-- ==== Sys2Proof/Word.lean ====
section
/-! DEFINITION. The value types of the block (00_scope.md R5, R6): bytes, sextets, widened lanes, the accumulator,
and a vector of eight lanes. -/

namespace Sys2Proof

/-- One 8-bit byte or narrow lane (`LANE_W` = 8). -/
abbrev Byte := BitVec 8

/-- One widened lane (`WIDE_W` = 16). -/
abbrev Half := BitVec 16

/-- The 6-bit value of one character (`SEXT_W` = 6). -/
abbrev Sextet := BitVec 6

/-- The scalar accumulator (`ACC_W` = 32). -/
abbrev Acc := BitVec 32

/-- The number of one of the caller's output buffers (log 4). -/
abbrev BufId := BitVec 8

/-- The two decoder agents (10_state.md R7). -/
inductive AgentId where
  | vdec
  | sdec
  deriving DecidableEq, Repr, Inhabited

/-- A vector of `LANES` = 8 lanes, lane 0 first (00_scope.md R5, R6). -/
@[ext] structure Lanes (α : Type) where
  l0 : α
  l1 : α
  l2 : α
  l3 : α
  l4 : α
  l5 : α
  l6 : α
  l7 : α
  deriving DecidableEq, Repr

namespace Lanes

variable {α β γ : Type}

/-- Lane `i`: `V[i]` of 00_scope.md §5. -/
def get (v : Lanes α) : Fin 8 → α
  | 0 => v.l0
  | 1 => v.l1
  | 2 => v.l2
  | 3 => v.l3
  | 4 => v.l4
  | 5 => v.l5
  | 6 => v.l6
  | 7 => v.l7

/-- The vector whose lane `i` is `f i`. -/
def ofFn (f : Fin 8 → α) : Lanes α := ⟨f 0, f 1, f 2, f 3, f 4, f 5, f 6, f 7⟩

/-- Every lane holds `a`. -/
def fill (a : α) : Lanes α := ⟨a, a, a, a, a, a, a, a⟩

/-- A lane-wise operation of one vector. -/
def map (f : α → β) (v : Lanes α) : Lanes β :=
  ⟨f v.l0, f v.l1, f v.l2, f v.l3, f v.l4, f v.l5, f v.l6, f v.l7⟩

/-- A lane-wise operation of two vectors. -/
def zipWith (f : α → β → γ) (v : Lanes α) (w : Lanes β) : Lanes γ :=
  ⟨f v.l0 w.l0, f v.l1 w.l1, f v.l2 w.l2, f v.l3 w.l3, f v.l4 w.l4, f v.l5 w.l5, f v.l6 w.l6, f v.l7 w.l7⟩

/-- The lanes in order, lane 0 first. -/
def toList (v : Lanes α) : List α := [v.l0, v.l1, v.l2, v.l3, v.l4, v.l5, v.l6, v.l7]

end Lanes

end Sys2Proof
end

