-- ==== Sys2Proof/Config.lean ====
section
/-! DEFINITION. What the spec leaves open and the machine does not change: the one free value of the model. The wired
constants `LUT`, `SHIFTS`, `GATHER_IDX` and `PAD` (10_state.md R16) stand in Machine/Operands.lean, where a later
repair may reach them. `LEN_W` is "unbounded natural number" (00_scope.md R5; log 19), `HANDSHAKE` is below the
model's level (00_scope.md R4). -/

namespace Sys2Proof

/-- FREE VALUE, DESIGN CHOICE (log 7). Which of two running decoders takes the next step: between calls on different
agents "there is no ordering and none is needed" (20_memory.md R27). Its argument is the counter `State.turns`. -/
opaque Config.freeTurn : Nat → AgentId

end Sys2Proof
end

