-- ==== Sys2Proof/Syntax.lean ====
section
/-! DEFINITION. The rows of spec/opcode_table.json as one inductive type (30_encoding.md R41, R34, R35, R32): 37
operations, 64 alphabet symbols, the padding symbol, 4 group formats. The block fetches no instructions (R41); the
model takes one row at a time from the caller (log 1). -/

namespace Sys2Proof

/-- Where a padding character stands in the input (30_encoding.md R35; log 12). -/
inductive PadPlace where
  /-- It is `IN[n-1]`. -/
  | last
  /-- It is `IN[n-2]` and `IN[n-1]` is `=` too. -/
  | secondLast
  /-- It is at any other index, so at an index below `end`. -/
  | body
  deriving DecidableEq, Repr

/-- One row of the opcode table with the operands the table gives it. `o` is the caller's output buffer `OUT`, `inp` and
`x` an input byte sequence, `g` a group, `len` a group's length; `n` is `IN`'s length. `acc`, `L` of VAPPEND, `is_ok` and
the lane vectors stand in State. `a` names the agent a START is for. -/
inductive Instr where
  /-- `START(IN, OUT)` on agent `a`, R46. -/
  | start (a : AgentId) (o : BufId) (inp : List Byte)
  /-- `STRIP(IN, n)`, R47; `n` is the length of `IN` (R8). -/
  | strip (inp : List Byte)
  /-- `PART(IN, pos, end)`, R49. -/
  | part (inp : List Byte) (pos : Nat) (bodyEnd : Nat)
  /-- `NBYTES(L)`, R50. -/
  | nbytes (len : Nat)
  /-- `S.MAP(b)`, R51. -/
  | sMap (b : Byte)
  /-- `S.FOLD(acc, s)`, R52. -/
  | sFold (x : Sextet)
  /-- `S.ALIGN(acc, L)`, R53. -/
  | sAlign (len : Nat)
  /-- `S.EMIT(acc, L, OUT)`, R54. -/
  | sEmit (len : Nat) (o : BufId)
  /-- `GROUP.S(g, OUT)`, R55. -/
  | groupS (g : List Byte) (o : BufId)
  /-- `DECODE.S(IN, OUT)`, R56. -/
  | decodeS (o : BufId) (inp : List Byte)
  /-- `P.SRL8`, R58. -/
  | pSrl8 (v : Lanes Byte) (k : BitVec 3)
  /-- `P.CMPEQ8`, R59. -/
  | pCmpeq8 (v : Lanes Byte) (c : Byte)
  /-- `P.ADD8`, R60. -/
  | pAdd8 (v : Lanes Byte) (w : Lanes Byte)
  /-- `P.SHUFFLE8`, R61. -/
  | pShuffle8 (t : Lanes Byte) (ix : Lanes Byte)
  /-- `P.INRANGE8`, R62. -/
  | pInrange8 (v : Lanes Byte)
  /-- `P.ANDR`, R63. -/
  | pAndr (m : Lanes Bool)
  /-- `P.ZEXT16`, R65. -/
  | pZext16 (v : Lanes Byte)
  /-- `P.SLLV16`, R66. -/
  | pSllv16 (w : Lanes Half) (k : Lanes Byte)
  /-- `P.LO8`, R67. -/
  | pLo8 (w : Lanes Half)
  /-- `P.HI8`, R68. -/
  | pHi8 (w : Lanes Half)
  /-- `P.ROTL1`, R69. -/
  | pRotl1 (v : Lanes Byte)
  /-- `P.OR8`, R64. -/
  | pOr8 (v : Lanes Byte) (w : Lanes Byte)
  /-- `P.GATHER8`, R70. -/
  | pGather8 (v : Lanes Byte) (ix : Lanes (BitVec 3))
  /-- `VLOAD`, R71. -/
  | vload (g : List Byte)
  /-- `VHASH`, R72. -/
  | vhash
  /-- `VVALID`, R73. -/
  | vvalid
  /-- `VLOOKUP`, R74. -/
  | vlookup
  /-- `VSEXT`, R75. -/
  | vsext
  /-- `VWIDEN`, R76. -/
  | vwiden
  /-- `VSPLIT`, R77. -/
  | vsplit
  /-- `VROT`, R78. -/
  | vrot
  /-- `VMERGE`, R79. -/
  | vmerge
  /-- `VCOMPACT`, R80. -/
  | vcompact
  /-- `VAPPEND` to `OUT`, R81. -/
  | vappend (o : BufId)
  /-- `GROUP.V(g, OUT)`, R82. -/
  | groupV (g : List Byte) (o : BufId)
  /-- `DECODE.V(IN, OUT)`, R85. -/
  | decodeV (o : BufId) (inp : List Byte)
  /-- `CHECK.EQ(x)`, R91. -/
  | checkEq (x : List Byte)
  -- the alphabet symbols, R34
  | symPlus
  | symSlash
  | sym0
  | sym1
  | sym2
  | sym3
  | sym4
  | sym5
  | sym6
  | sym7
  | sym8
  | sym9
  | symUpA
  | symUpB
  | symUpC
  | symUpD
  | symUpE
  | symUpF
  | symUpG
  | symUpH
  | symUpI
  | symUpJ
  | symUpK
  | symUpL
  | symUpM
  | symUpN
  | symUpO
  | symUpP
  | symUpQ
  | symUpR
  | symUpS
  | symUpT
  | symUpU
  | symUpV
  | symUpW
  | symUpX
  | symUpY
  | symUpZ
  | symLoA
  | symLoB
  | symLoC
  | symLoD
  | symLoE
  | symLoF
  | symLoG
  | symLoH
  | symLoI
  | symLoJ
  | symLoK
  | symLoL
  | symLoM
  | symLoN
  | symLoO
  | symLoP
  | symLoQ
  | symLoR
  | symLoS
  | symLoT
  | symLoU
  | symLoV
  | symLoW
  | symLoX
  | symLoY
  | symLoZ
  /-- The padding symbol `=`, R35. -/
  | padEq (p : PadPlace)
  /-- A group of format G4, R32. -/
  | g4 (c0 : Byte) (c1 : Byte) (c2 : Byte) (c3 : Byte)
  /-- A group of format G3, R32. -/
  | g3 (c0 : Byte) (c1 : Byte) (c2 : Byte)
  /-- A group of format G2, R32. -/
  | g2 (c0 : Byte) (c1 : Byte)
  /-- A group of format G1, R32. -/
  | g1 (c0 : Byte)
  deriving DecidableEq, Repr

end Sys2Proof
end

