-- ==== Sys2Proof/WellFormed.lean ====
section
/-! DEFINITION. Which instruction terms the spec has: a group length `L` is 1 to 4 (40_shared_preprocessing.md R49,
R50), a group has 1 to 4 bytes (30_encoding.md R32), and the body `IN[0 .. end)` that PART cuts lies within `IN` (R49;
20_memory.md R20). Every other operand's type is its range. -/

namespace Sys2Proof

/-- `L` in 1 to 4 (R50, R53). -/
def lengthOk (len : Nat) : Bool := decide (1 ≤ len ∧ len ≤ 4)

/-- The instruction is one the spec has; one arm per constructor. -/
def WellFormed : Instr → Bool
  | .start _ _ _ => true
  | .strip _ => true
  | .part inp _ bodyEnd => decide (bodyEnd ≤ inp.length)
  | .nbytes len => lengthOk len
  | .sMap _ => true
  | .sFold _ => true
  | .sAlign len => lengthOk len
  | .sEmit len _ => lengthOk len
  | .groupS g _ => lengthOk g.length
  | .decodeS _ _ => true
  | .pSrl8 _ _ => true
  | .pCmpeq8 _ _ => true
  | .pAdd8 _ _ => true
  | .pShuffle8 _ _ => true
  | .pInrange8 _ => true
  | .pAndr _ => true
  | .pZext16 _ => true
  | .pSllv16 _ _ => true
  | .pLo8 _ => true
  | .pHi8 _ => true
  | .pRotl1 _ => true
  | .pOr8 _ _ => true
  | .pGather8 _ _ => true
  | .vload g => lengthOk g.length
  | .vhash => true
  | .vvalid => true
  | .vlookup => true
  | .vsext => true
  | .vwiden => true
  | .vsplit => true
  | .vrot => true
  | .vmerge => true
  | .vcompact => true
  | .vappend _ => true
  | .groupV g _ => lengthOk g.length
  | .decodeV _ _ => true
  | .checkEq _ => true
  | .symPlus => true
  | .symSlash => true
  | .sym0 => true
  | .sym1 => true
  | .sym2 => true
  | .sym3 => true
  | .sym4 => true
  | .sym5 => true
  | .sym6 => true
  | .sym7 => true
  | .sym8 => true
  | .sym9 => true
  | .symUpA => true
  | .symUpB => true
  | .symUpC => true
  | .symUpD => true
  | .symUpE => true
  | .symUpF => true
  | .symUpG => true
  | .symUpH => true
  | .symUpI => true
  | .symUpJ => true
  | .symUpK => true
  | .symUpL => true
  | .symUpM => true
  | .symUpN => true
  | .symUpO => true
  | .symUpP => true
  | .symUpQ => true
  | .symUpR => true
  | .symUpS => true
  | .symUpT => true
  | .symUpU => true
  | .symUpV => true
  | .symUpW => true
  | .symUpX => true
  | .symUpY => true
  | .symUpZ => true
  | .symLoA => true
  | .symLoB => true
  | .symLoC => true
  | .symLoD => true
  | .symLoE => true
  | .symLoF => true
  | .symLoG => true
  | .symLoH => true
  | .symLoI => true
  | .symLoJ => true
  | .symLoK => true
  | .symLoL => true
  | .symLoM => true
  | .symLoN => true
  | .symLoO => true
  | .symLoP => true
  | .symLoQ => true
  | .symLoR => true
  | .symLoS => true
  | .symLoT => true
  | .symLoU => true
  | .symLoV => true
  | .symLoW => true
  | .symLoX => true
  | .symLoY => true
  | .symLoZ => true
  | .padEq _ => true
  | .g4 _ _ _ _ => true
  | .g3 _ _ _ => true
  | .g2 _ _ => true
  | .g1 _ => true

end Sys2Proof
end

