-- ==== Sys2Proof/Decode.lean ====
section
/-! DEFINITION. From presented words to instructions and back (30_encoding.md §1, §3, §6). A word stands at one of three
ports (log 2): the operation port, a catalogue key `opnum` (R41) and the operand bytes the rule asks for; the text
port, one input byte (R34, R35, R36); the group port `g_chars`, `g_len` (43_vector_group.md R83). Decoding is total and
rejects by name; `encode` is written from the same tables. -/

namespace Sys2Proof

/-- A word as the caller presents it; the port says which table it belongs to (log 2, DESIGN CHOICE). -/
inductive FetchWord where
  /-- Operation port: the key byte, then the operand bytes. -/
  | key (bytes : List Byte)
  /-- Text port: the byte, then the place of a padding symbol. -/
  | text (bytes : List Byte)
  /-- Group port: `g_chars[31:0]` and `g_len[2:0]`. -/
  | group (chars : BitVec 32) (len : BitVec 3)
  deriving DecidableEq, Repr

/-- Why a word is not an instruction. -/
inductive DecodeError where
  /-- No byte is presented. -/
  | emptyWord
  /-- `opnum` 37 to 63 name nothing (R41; 93_implementation_defined.md U11). -/
  | unnamedOpnum (k : Nat)
  /-- Bits 7:6 of a key byte are not 0: the key has 6 bits (R41). -/
  | notAKey (b : Byte)
  /-- Operand bytes are missing. -/
  | missingOperand
  /-- Bytes follow the last operand. -/
  | extraOperand
  /-- An operand byte has a value its operand does not have. -/
  | reservedOperand
  /-- A byte outside the alphabet at the text port (R36); the machine answers it as S.MAP does (log 14). -/
  | invalidByte (b : Byte)
  /-- `g_len` = 0: the port answers with no bytes (43_vector_group.md R83). -/
  | emptyGroup
  /-- `g_len` = 5, 6, 7: reserved (R83; U6). -/
  | reservedGroupLength (len : BitVec 3)
  deriving DecidableEq, Repr

/-- What a decoder answers. -/
abbrev Decoded := Except DecodeError Instr

/-! ## Operand readers -/

/-- No operand may follow. -/
def noOperand (i : Instr) : List Byte → Decoded
  | [] => .ok i
  | _ :: _ => .error .extraOperand

/-- Exactly one operand byte. -/
def oneByte (f : Byte → Decoded) : List Byte → Decoded
  | [] => .error .missingOperand
  | [b] => f b
  | _ :: _ :: _ => .error .extraOperand

/-- The agent operand: 0 is VDEC, 1 is SDEC. -/
def agentOf (f : AgentId → Decoded) (b : Byte) : Decoded :=
  if b = 0 then f .vdec else if b = 1 then f .sdec else .error .reservedOperand

/-- The length operand `L`, held as `L - 1` in bits 1:0. -/
def lengthOf (f : Nat → Instr) (b : Byte) : Decoded :=
  if b.toNat < 4 then .ok (f (b.toNat + 1)) else .error .reservedOperand

/-- A `LEN_W` operand, an unbounded natural (00_scope.md R5), and what follows: that many bytes 1, then a byte 0 (log 2). -/
def naturalOf : List Byte → Except DecodeError (Nat × List Byte)
  | [] => .error .missingOperand
  | b :: rest =>
    if b = 0 then .ok (0, rest)
    else if b = 1 then
      match naturalOf rest with
      | .ok (k, more) => .ok (k + 1, more)
      | .error e => .error e
    else .error .reservedOperand

/-- PART's operands: `pos`, the number of bytes of `IN` at and after `end`, then `IN` (log 2). -/
def partOf (rest : List Byte) : Decoded :=
  match naturalOf rest with
  | .error e => .error e
  | .ok (pos, more) =>
    match naturalOf more with
    | .error e => .error e
    | .ok (k, inp) => if k ≤ inp.length then .ok (.part inp pos (inp.length - k)) else .error .missingOperand

/-- A group operand: 1 to 4 bytes, its length the number presented ("no bit of the group says its length", R32). -/
def groupOf (f : List Byte → Instr) (bs : List Byte) : Decoded :=
  if bs.length = 0 then .error .missingOperand
  else if lengthOk bs.length then .ok (f bs) else .error .extraOperand

/-- Eight 8-bit lanes, lane 0 first, and what follows. -/
def takeLanes : List Byte → Option (Lanes Byte × List Byte)
  | a :: b :: c :: d :: e :: f :: g :: h :: rest => some (⟨a, b, c, d, e, f, g, h⟩, rest)
  | _ => none

/-- Eight 16-bit lanes, lane 0 first, each low byte first, and what follows. -/
def takeHalves (bs : List Byte) : Option (Lanes Half × List Byte) :=
  match bs with
  | a0 :: a1 :: b0 :: b1 :: c0 :: c1 :: d0 :: d1 :: e0 :: e1 :: f0 :: f1 :: g0 :: g1 :: h0 :: h1 :: rest =>
    some (⟨a1 ++ a0, b1 ++ b0, c1 ++ c0, d1 ++ d0, e1 ++ e0, f1 ++ f0, g1 ++ g0, h1 ++ h0⟩, rest)
  | _ => none

/-- One vector of narrow lanes, then the rest by `f`. -/
def lanesThen (f : Lanes Byte → List Byte → Decoded) (bs : List Byte) : Decoded :=
  match takeLanes bs with
  | some (v, rest) => f v rest
  | none => .error .missingOperand

/-- One vector of widened lanes, then the rest by `f`. -/
def halvesThen (f : Lanes Half → List Byte → Decoded) (bs : List Byte) : Decoded :=
  match takeHalves bs with
  | some (v, rest) => f v rest
  | none => .error .missingOperand

/-- Eight 1-bit lanes in one byte, lane `i` in bit `i`. -/
def maskOf (b : Byte) : Lanes Bool := Lanes.ofFn fun i => b.getLsbD i.val

/-- A lane index 0 to 7 held in a byte. -/
def indexOk (b : Byte) : Bool := decide (b.toNat < 8)

/-- Eight lane indices, one a byte. -/
def indicesOf (f : Lanes (BitVec 3) → Instr) (v : Lanes Byte) : Decoded :=
  if (v.map indexOk) = Lanes.fill true then .ok (f (v.map (BitVec.setWidth 3))) else .error .reservedOperand

/-! ## The three ports -/

/-- The operations by `opnum` (30_encoding.md R41). -/
def decodeOp (k : Nat) (rest : List Byte) : Decoded :=
  match k with
  | 0 => match rest with
    | a :: o :: inp => agentOf (fun ag => .ok (.start ag o inp)) a
    | _ => .error .missingOperand
  | 1 => .ok (.strip rest)
  | 2 => partOf rest
  | 3 => oneByte (lengthOf .nbytes) rest
  | 4 => oneByte (fun b => .ok (.sMap b)) rest
  | 5 => oneByte (fun b => if b.toNat < 64 then .ok (.sFold (b.setWidth 6)) else .error .reservedOperand) rest
  | 6 => oneByte (lengthOf .sAlign) rest
  | 7 => match rest with
    | b :: more => oneByte (fun o => lengthOf (fun len => .sEmit len o) b) more
    | [] => .error .missingOperand
  | 8 => match rest with
    | o :: g => groupOf (fun bs => .groupS bs o) g
    | [] => .error .missingOperand
  | 9 => match rest with
    | o :: inp => .ok (.decodeS o inp)
    | [] => .error .missingOperand
  | 10 => lanesThen (fun v => oneByte fun b => if indexOk b then .ok (.pSrl8 v (b.setWidth 3)) else .error .reservedOperand) rest
  | 11 => lanesThen (fun v => oneByte fun c => .ok (.pCmpeq8 v c)) rest
  | 12 => lanesThen (fun v => lanesThen fun w => noOperand (.pAdd8 v w)) rest
  | 13 => lanesThen (fun t => lanesThen fun ix => noOperand (.pShuffle8 t ix)) rest
  | 14 => lanesThen (fun v => noOperand (.pInrange8 v)) rest
  | 15 => oneByte (fun b => .ok (.pAndr (maskOf b))) rest
  | 16 => lanesThen (fun v => noOperand (.pZext16 v)) rest
  | 17 => halvesThen (fun w => lanesThen fun k => noOperand (.pSllv16 w k)) rest
  | 18 => halvesThen (fun w => noOperand (.pLo8 w)) rest
  | 19 => halvesThen (fun w => noOperand (.pHi8 w)) rest
  | 20 => lanesThen (fun v => noOperand (.pRotl1 v)) rest
  | 21 => lanesThen (fun v => lanesThen fun w => noOperand (.pOr8 v w)) rest
  | 22 => lanesThen (fun v => lanesThen fun ix more =>
      match more with
      | [] => indicesOf (.pGather8 v) ix
      | _ :: _ => .error .extraOperand) rest
  | 23 => groupOf .vload rest
  | 24 => noOperand .vhash rest
  | 25 => noOperand .vvalid rest
  | 26 => noOperand .vlookup rest
  | 27 => noOperand .vsext rest
  | 28 => noOperand .vwiden rest
  | 29 => noOperand .vsplit rest
  | 30 => noOperand .vrot rest
  | 31 => noOperand .vmerge rest
  | 32 => noOperand .vcompact rest
  | 33 => oneByte (fun o => .ok (.vappend o)) rest
  | 34 => match rest with
    | o :: g => groupOf (fun bs => .groupV bs o) g
    | [] => .error .missingOperand
  | 35 => match rest with
    | o :: inp => .ok (.decodeV o inp)
    | [] => .error .missingOperand
  | 36 => .ok (.checkEq rest)
  | k => .error (.unnamedOpnum k)

/-- The operation port: the key is bits 5:0 of its byte, bits 7:6 are 0. -/
def decodeKey : List Byte → Decoded
  | [] => .error .emptyWord
  | op :: rest => if op.toNat < 64 then decodeOp op.toNat rest else .error (.notAKey op)

/-- The symbol row of a byte (30_encoding.md R34, the table of 64 rows). -/
def symbolOf (b : Byte) : Option Instr :=
  match b.toNat with
  | 0x2B => some .symPlus
  | 0x2F => some .symSlash
  | 0x30 => some .sym0
  | 0x31 => some .sym1
  | 0x32 => some .sym2
  | 0x33 => some .sym3
  | 0x34 => some .sym4
  | 0x35 => some .sym5
  | 0x36 => some .sym6
  | 0x37 => some .sym7
  | 0x38 => some .sym8
  | 0x39 => some .sym9
  | 0x41 => some .symUpA
  | 0x42 => some .symUpB
  | 0x43 => some .symUpC
  | 0x44 => some .symUpD
  | 0x45 => some .symUpE
  | 0x46 => some .symUpF
  | 0x47 => some .symUpG
  | 0x48 => some .symUpH
  | 0x49 => some .symUpI
  | 0x4A => some .symUpJ
  | 0x4B => some .symUpK
  | 0x4C => some .symUpL
  | 0x4D => some .symUpM
  | 0x4E => some .symUpN
  | 0x4F => some .symUpO
  | 0x50 => some .symUpP
  | 0x51 => some .symUpQ
  | 0x52 => some .symUpR
  | 0x53 => some .symUpS
  | 0x54 => some .symUpT
  | 0x55 => some .symUpU
  | 0x56 => some .symUpV
  | 0x57 => some .symUpW
  | 0x58 => some .symUpX
  | 0x59 => some .symUpY
  | 0x5A => some .symUpZ
  | 0x61 => some .symLoA
  | 0x62 => some .symLoB
  | 0x63 => some .symLoC
  | 0x64 => some .symLoD
  | 0x65 => some .symLoE
  | 0x66 => some .symLoF
  | 0x67 => some .symLoG
  | 0x68 => some .symLoH
  | 0x69 => some .symLoI
  | 0x6A => some .symLoJ
  | 0x6B => some .symLoK
  | 0x6C => some .symLoL
  | 0x6D => some .symLoM
  | 0x6E => some .symLoN
  | 0x6F => some .symLoO
  | 0x70 => some .symLoP
  | 0x71 => some .symLoQ
  | 0x72 => some .symLoR
  | 0x73 => some .symLoS
  | 0x74 => some .symLoT
  | 0x75 => some .symLoU
  | 0x76 => some .symLoV
  | 0x77 => some .symLoW
  | 0x78 => some .symLoX
  | 0x79 => some .symLoY
  | 0x7A => some .symLoZ
  | _ => none

/-- The place operand of a padding symbol: 0 last, 1 second last, 2 elsewhere. -/
def padPlaceOf (b : Byte) : Decoded :=
  if b = 0 then .ok (.padEq .last) else if b = 1 then .ok (.padEq .secondLast)
  else if b = 2 then .ok (.padEq .body) else .error .reservedOperand

/-- The text port: one input byte; `=` carries its place (R34, R35, R36). -/
def decodeText : List Byte → Decoded
  | [] => .error .emptyWord
  | b :: rest =>
    if b = 0x3D then oneByte padPlaceOf rest
    else match symbolOf b with
      | some i => noOperand i rest
      | none => if rest = [] then .error (.invalidByte b) else .error .extraOperand

/-- Character `i` of `g_chars`: bits `[8i+7 : 8i]` (30_encoding.md R32). -/
def charAt (chars : BitVec 32) (i : Nat) : Byte := chars.extractLsb' (8 * i) 8

/-- The group port: `g_len` alone says which format it is; characters at and above `g_len` are ignored (R32, R83). -/
def decodeGroup (chars : BitVec 32) (len : BitVec 3) : Decoded :=
  match len.toNat with
  | 0 => .error .emptyGroup
  | 1 => .ok (.g1 (charAt chars 0))
  | 2 => .ok (.g2 (charAt chars 0) (charAt chars 1))
  | 3 => .ok (.g3 (charAt chars 0) (charAt chars 1) (charAt chars 2))
  | 4 => .ok (.g4 (charAt chars 0) (charAt chars 1) (charAt chars 2) (charAt chars 3))
  | _ => .error (.reservedGroupLength len)

/-- The decoder: total on every word of every port. -/
def decode : FetchWord → Decoded
  | .key bs => decodeKey bs
  | .text bs => decodeText bs
  | .group chars len => decodeGroup chars len

/-! ## The encoder -/

/-- The agent operand's byte. -/
def agentByte : AgentId → Byte
  | .vdec => 0
  | .sdec => 1

/-- The length operand's byte, `L - 1`. -/
def lengthByte (len : Nat) : Byte := BitVec.ofNat 8 (len - 1)

/-- The bytes of a `LEN_W` operand. -/
def naturalBytes (k : Nat) : List Byte := List.replicate k 1 ++ [0]

/-- The bytes of eight widened lanes. -/
def halvesBytes (w : Lanes Half) : List Byte :=
  w.toList.flatMap fun h => [h.extractLsb' 0 8, h.extractLsb' 8 8]

/-- The byte of eight 1-bit lanes. -/
def maskByte (m : Lanes Bool) : Byte :=
  BitVec.ofBool m.l7 ++ BitVec.ofBool m.l6 ++ BitVec.ofBool m.l5 ++ BitVec.ofBool m.l4 ++
    BitVec.ofBool m.l3 ++ BitVec.ofBool m.l2 ++ BitVec.ofBool m.l1 ++ BitVec.ofBool m.l0

/-- The place operand's byte. -/
def padPlaceByte : PadPlace → Byte
  | .last => 0
  | .secondLast => 1
  | .body => 2

/-- The word of an instruction, from the tables of 30_encoding.md R41, R34, R35, R32. -/
def encode : Instr → FetchWord
  | .start a o inp => .key (0 :: agentByte a :: o :: inp)
  | .strip inp => .key (1 :: inp)
  | .part inp pos bodyEnd => .key (2 :: (naturalBytes pos ++ (naturalBytes (inp.length - bodyEnd) ++ inp)))
  | .nbytes len => .key [3, lengthByte len]
  | .sMap b => .key [4, b]
  | .sFold x => .key [5, x.setWidth 8]
  | .sAlign len => .key [6, lengthByte len]
  | .sEmit len o => .key [7, lengthByte len, o]
  | .groupS g o => .key (8 :: o :: g)
  | .decodeS o inp => .key (9 :: o :: inp)
  | .pSrl8 v k => .key (10 :: (v.toList ++ [k.setWidth 8]))
  | .pCmpeq8 v c => .key (11 :: (v.toList ++ [c]))
  | .pAdd8 v w => .key (12 :: (v.toList ++ w.toList))
  | .pShuffle8 t ix => .key (13 :: (t.toList ++ ix.toList))
  | .pInrange8 v => .key (14 :: v.toList)
  | .pAndr m => .key [15, maskByte m]
  | .pZext16 v => .key (16 :: v.toList)
  | .pSllv16 w k => .key (17 :: (halvesBytes w ++ k.toList))
  | .pLo8 w => .key (18 :: halvesBytes w)
  | .pHi8 w => .key (19 :: halvesBytes w)
  | .pRotl1 v => .key (20 :: v.toList)
  | .pOr8 v w => .key (21 :: (v.toList ++ w.toList))
  | .pGather8 v ix => .key (22 :: (v.toList ++ (ix.map (BitVec.setWidth 8)).toList))
  | .vload g => .key (23 :: g)
  | .vhash => .key [24]
  | .vvalid => .key [25]
  | .vlookup => .key [26]
  | .vsext => .key [27]
  | .vwiden => .key [28]
  | .vsplit => .key [29]
  | .vrot => .key [30]
  | .vmerge => .key [31]
  | .vcompact => .key [32]
  | .vappend o => .key [33, o]
  | .groupV g o => .key (34 :: o :: g)
  | .decodeV o inp => .key (35 :: o :: inp)
  | .checkEq x => .key (36 :: x)
  | .symPlus => .text [0x2B]
  | .symSlash => .text [0x2F]
  | .sym0 => .text [0x30]
  | .sym1 => .text [0x31]
  | .sym2 => .text [0x32]
  | .sym3 => .text [0x33]
  | .sym4 => .text [0x34]
  | .sym5 => .text [0x35]
  | .sym6 => .text [0x36]
  | .sym7 => .text [0x37]
  | .sym8 => .text [0x38]
  | .sym9 => .text [0x39]
  | .symUpA => .text [0x41]
  | .symUpB => .text [0x42]
  | .symUpC => .text [0x43]
  | .symUpD => .text [0x44]
  | .symUpE => .text [0x45]
  | .symUpF => .text [0x46]
  | .symUpG => .text [0x47]
  | .symUpH => .text [0x48]
  | .symUpI => .text [0x49]
  | .symUpJ => .text [0x4A]
  | .symUpK => .text [0x4B]
  | .symUpL => .text [0x4C]
  | .symUpM => .text [0x4D]
  | .symUpN => .text [0x4E]
  | .symUpO => .text [0x4F]
  | .symUpP => .text [0x50]
  | .symUpQ => .text [0x51]
  | .symUpR => .text [0x52]
  | .symUpS => .text [0x53]
  | .symUpT => .text [0x54]
  | .symUpU => .text [0x55]
  | .symUpV => .text [0x56]
  | .symUpW => .text [0x57]
  | .symUpX => .text [0x58]
  | .symUpY => .text [0x59]
  | .symUpZ => .text [0x5A]
  | .symLoA => .text [0x61]
  | .symLoB => .text [0x62]
  | .symLoC => .text [0x63]
  | .symLoD => .text [0x64]
  | .symLoE => .text [0x65]
  | .symLoF => .text [0x66]
  | .symLoG => .text [0x67]
  | .symLoH => .text [0x68]
  | .symLoI => .text [0x69]
  | .symLoJ => .text [0x6A]
  | .symLoK => .text [0x6B]
  | .symLoL => .text [0x6C]
  | .symLoM => .text [0x6D]
  | .symLoN => .text [0x6E]
  | .symLoO => .text [0x6F]
  | .symLoP => .text [0x70]
  | .symLoQ => .text [0x71]
  | .symLoR => .text [0x72]
  | .symLoS => .text [0x73]
  | .symLoT => .text [0x74]
  | .symLoU => .text [0x75]
  | .symLoV => .text [0x76]
  | .symLoW => .text [0x77]
  | .symLoX => .text [0x78]
  | .symLoY => .text [0x79]
  | .symLoZ => .text [0x7A]
  | .padEq p => .text [0x3D, padPlaceByte p]
  | .g4 c0 c1 c2 c3 => .group (c3 ++ c2 ++ c1 ++ c0) 4
  | .g3 c0 c1 c2 => .group ((0 : Byte) ++ c2 ++ c1 ++ c0) 3
  | .g2 c0 c1 => .group ((0 : Half) ++ c1 ++ c0) 2
  | .g1 c0 => .group ((0 : BitVec 24) ++ c0) 1

/-! ## The table's own numbering of words (the host's interface; log 3) -/

/-- How many zero bytes an operation's operand bytes take: the least that its operands need, so for PART two zero
numbers and an `IN` of one byte. -/
def operandZeros (k : Nat) : Nat :=
  [2, 0, 3, 1, 1, 1, 1, 2, 2, 1, 9, 9, 16, 16, 8, 1, 8, 24, 16, 16, 8, 16, 16, 1, 0, 0, 0, 0, 0, 0, 0, 0, 0, 1, 2, 1, 0].getD k 0

/-- The width in whole bytes the table's reader gives an operation row: 8 bits for the 6-bit key, more where the reader
lists a field `opnum` at bit `opnum` (98_reader.md; log 3). -/
def keyRowWidth (k : Nat) : Nat :=
  if k = 8 ∨ k = 9 ∨ (11 ≤ k ∧ k ≤ 15) then 16
  else if 16 ≤ k ∧ k ≤ 22 then 24
  else if 24 ≤ k ∧ k ≤ 31 then 32
  else 8

/-- The operation a table word names, if it names one. -/
def keyOf (nbits w : Nat) : Option Nat :=
  if nbits ≤ 8 then (if w < 37 then some w else none)
  else
    let k := w % 64
    if k < 37 ∧ nbits = keyRowWidth k ∧ (w = k ∨ w = k + 2 ^ k) then some k else none

/-- The word the table's bits `w` stand for: a row with fixed bits before a group format, which fixes none (log 3). -/
def tableWord (nbits w : Nat) : FetchWord :=
  match keyOf nbits w with
  | some k => .key (BitVec.ofNat 8 k :: List.replicate (operandZeros k) 0)
  | none =>
    if nbits ≤ 8 then
      let b := BitVec.ofNat 8 w
      if b = 0x3D then .text [b, 0]
      else if (symbolOf b).isSome then .text [b]
      else .group (b.setWidth 32) 1
    else if nbits ≤ 16 then .group ((BitVec.ofNat 16 w).setWidth 32) 2
    else if nbits ≤ 24 then .group ((BitVec.ofNat 24 w).setWidth 32) 3
    else if nbits ≤ 32 then .group (BitVec.ofNat 32 w) 4
    else .key []

/-- The instruction the decoder reads from the table's bits `w`. -/
def decodeTableWord (nbits w : Nat) : Option Instr :=
  match decode (tableWord nbits w) with
  | .ok i => some i
  | .error _ => none

end Sys2Proof
end

