-- ==== Sys2Proof/Machine/State.lean ====
section
/-! DEFINITION. The state of the machine as plain data (10_state.md), the reasons a step can stop, and the state after
reset (70_reset_and_hazards.md R107). Every field is listed in INVENTORY.md under State. -/

namespace Sys2Proof.Machine

/-- `status` of a decoder agent (10_state.md R10). -/
inductive Status where
  | idle
  | run
  | done
  | err
  deriving DecidableEq, Repr

/-- The sequencer state of one decoder agent and the parameters of its call in flight (10_state.md R8, R9, R10). The two
references are held while `status` is RUN and no longer: "the core never retains references beyond the call" (R9;
60_exceptions.md R104; 70_reset_and_hazards.md R108). -/
structure Seq where
  /-- `IN` of the call in flight; nothing otherwise (log 5). -/
  inp : List Byte
  /-- `OUT` of the call in flight; none otherwise (log 4, log 5). -/
  out : Option BufId
  /-- `n`, the length of `IN`; after the call it keeps its value (log 27). -/
  n : Nat
  /-- `end`, the length of the body; after the call it keeps its value (log 27). -/
  bodyEnd : Nat
  /-- `pos`, the index of the next group. -/
  pos : Nat
  /-- `status`. -/
  status : Status
  /-- `err`. -/
  err : Bool
  deriving DecidableEq, Repr

/-- The output port of one decoder agent, which shows one append (44_vector_message.md R88; log 20). -/
structure OutPort where
  /-- The signal `out_bytes`. -/
  bytes : BitVec 24
  /-- The signal `out_n`. -/
  num : BitVec 2
  deriving DecidableEq, Repr

/-- The lane vectors of VDEC, in the order the stages write them, its flag and the group length (10_state.md R12, R15). They
keep what was written last (log 26, DESIGN CHOICE); no group step reads that (R13). -/
structure VRegs where
  vIn : Lanes Byte
  vEq : Lanes Byte
  vHash : Lanes Byte
  vOk : Lanes Bool
  vOff : Lanes Byte
  vSext : Lanes Byte
  vWide : Lanes Half
  vLo : Lanes Byte
  vHi : Lanes Byte
  vRot : Lanes Byte
  vPack : Lanes Byte
  vComp : Lanes Byte
  /-- `is_ok` (R12). -/
  isOk : Bool
  /-- `L`, the length of the loaded group, read by VAPPEND (43_vector_group.md R81). -/
  gLen : Nat
  deriving DecidableEq, Repr

/-- The outputs of the group port (43_vector_group.md R83). -/
structure GroupPort where
  bytes : BitVec 24
  num : BitVec 2
  ok : Bool
  deriving DecidableEq, Repr

/-- What the alphabet table says of one symbol (30_encoding.md R34). -/
structure SymbolInfo where
  byte : Byte
  sextet : Option Sextet
  hash : Byte
  offset : Byte
  deriving DecidableEq, Repr

/-- The verdict of the harness (45_equivalence_harness.md R91). -/
inductive Verdict where
  | pass
  | fail
  deriving DecidableEq, Repr

/-- The value an operation returns where its rule says "return" or "result" and names no register (log 9). -/
inductive Ret where
  | none
  /-- STRIP: `end`. -/
  | bodyEnd (e : Nat)
  /-- NBYTES: `N(L)`. -/
  | count (k : Nat)
  /-- S.MAP: the sextet. -/
  | sextet (x : Sextet)
  /-- PART: the group and its length. -/
  | group (g : List Byte) (len : Nat)
  /-- A vector of 8-bit lanes. -/
  | lanes8 (v : Lanes Byte)
  /-- A vector of 16-bit lanes. -/
  | lanes16 (w : Lanes Half)
  /-- A vector of 1-bit lanes. -/
  | mask (m : Lanes Bool)
  /-- P.ANDR: one bit. -/
  | bit (b : Bool)
  /-- A symbol row. -/
  | symbol (i : SymbolInfo)
  /-- A padding symbol that STRIP drops. -/
  | padding
  /-- The group port's outputs. -/
  | port (p : GroupPort)
  /-- `InvalidByte`, raised by a row that stands alone; the byte where the row names it (60_exceptions.md R98; log 10). -/
  | invalidByte (b : Option Byte)
  deriving DecidableEq, Repr

/-- The caller's output buffers: (number, bytes) pairs, numbers strictly rising, no empty buffer listed (log 4). -/
abbrev Memory := List (Nat × List Byte)

/-- One move of the caller (10_state.md R7, R17; log 1). -/
inductive Stimulus where
  /-- The caller asks for nothing; the running decoders move. -/
  | quiet
  /-- Reset of one agent (70_reset_and_hazards.md R107). -/
  | rst (a : AgentId)
  /-- The caller hands over an output buffer with these contents (R9, R108; log 16). -/
  | supply (o : BufId) (bytes : List Byte)
  /-- The caller presents a word at a port. -/
  | word (w : FetchWord)
  deriving DecidableEq, Repr

/-- The whole machine. -/
structure State where
  /-- VDEC's sequencer. -/
  vseq : Seq
  /-- SDEC's sequencer. -/
  sseq : Seq
  /-- VDEC's output port. -/
  vport : OutPort
  /-- SDEC's output port. -/
  sport : OutPort
  /-- VDEC's lane vectors. -/
  vdp : VRegs
  /-- SDEC's accumulator `acc` (R14); it keeps what was written last (log 26). -/
  acc : Acc
  /-- SDEC's `err_byte` (R10). -/
  errByte : Byte
  /-- The caller's output buffers (R9, R20). -/
  bufs : Memory
  /-- HARNESS's last verdict (R91). -/
  verdict : Option Verdict
  /-- The value last returned (log 9). -/
  ret : Ret
  /-- The caller's moves still to come, the next first (log 1). -/
  inbox : List Stimulus
  /-- The counter of the free value `Config.freeTurn` (log 7). -/
  turns : Nat
  deriving DecidableEq, Repr

/-- A stop that is an access the spec says does not exist. -/
inductive Fault where
  /-- An index outside `0 … n−1` of IN (20_memory.md R20, R22): raised by a group step in a state no call can reach
  (log 18). Safe. -/
  | inputOutOfRange
  /-- An append of a running call that holds no OUT: raised by a group step in a state no call can reach (log 18). Safe. -/
  | noOutput
  deriving DecidableEq, Repr

/-- A stop where the spec says the model has no such move. -/
inductive Refusal where
  /-- An instruction with no meaning yet: raised by `exec` only. Safe. -/
  | notModelled (mnemonic : String)
  /-- START on an agent whose `status` is RUN (40_shared_preprocessing.md R46; U9): raised by START, DECODE.S, DECODE.V.
  Safe. -/
  | startWhileRunning
  /-- A buffer another call in flight is using (20_memory.md R28; U3): raised by START, DECODE.S, DECODE.V, S.EMIT,
  VAPPEND, GROUP.S, GROUP.V, a group step, and the caller's handing over of a buffer. Safe. -/
  | sharedOutput
  /-- PART with `pos ≥ end` (40_shared_preprocessing.md R49 "require pos < end"): raised by PART. Safe. -/
  | partAtEnd
  /-- `g_len` 5, 6, 7 at the group port (43_vector_group.md R83; U6): raised by the step. Safe. -/
  | reservedGroupLength
  /-- A length operand outside 1 to 4 (R50, R53), a group of another length (30_encoding.md R32), or an `end` beyond `IN`
  (R49): raised by NBYTES, S.ALIGN, S.EMIT, GROUP.S, VLOAD, GROUP.V, PART on an ill-formed instruction term only. Safe. -/
  | illFormedLength
  /-- A presented word that is no instruction (30_encoding.md R41; U11): raised by the step. Safe. -/
  | undecodable (e : DecodeError)
  deriving DecidableEq, Repr

/-- What a step or a meaning answers. -/
abbrev Out := Host.Outcome State Fault Refusal

/-- An output port that shows no append (R88: `out_n` 0; log 20). -/
def OutPort.quiet : OutPort := ⟨0, 0⟩

/-- A sequencer after reset (R107): idle, with nothing in flight and so no reference to IN or OUT. -/
def Seq.reset : Seq where
  inp := []
  out := none
  n := 0
  bodyEnd := 0
  pos := 0
  status := .idle
  err := false

/-- The lane vectors after reset: "hold no value (unspecified)" (R107); zero by log 6, DESIGN CHOICE, unsafe. -/
def VRegs.reset : VRegs where
  vIn := .fill 0
  vEq := .fill 0
  vHash := .fill 0
  vOk := .fill false
  vOff := .fill 0
  vSext := .fill 0
  vWide := .fill 0
  vLo := .fill 0
  vHi := .fill 0
  vRot := .fill 0
  vPack := .fill 0
  vComp := .fill 0
  isOk := false
  gLen := 0

/-- The machine right after reset (70_reset_and_hazards.md R107; log 6): both agents idle, nothing in flight, no buffer
handed over, no move of the caller pending. -/
def State.reset : State where
  vseq := .reset
  sseq := .reset
  vport := .quiet
  sport := .quiet
  vdp := .reset
  acc := 0
  errByte := 0
  bufs := []
  verdict := none
  ret := .none
  inbox := []
  turns := 0

end Sys2Proof.Machine
end

