-- ==== Sys2Proof/Machine/Operands.lean ====
section
/-! DEFINITION. The wired constants, the alphabet, the arithmetic of lanes and of the accumulator, and every operand
form: pure functions of values (30_encoding.md §3, §5; 40_shared_preprocessing.md R47, R50; 41_scalar_reference.md
R51 to R54; 42_lane_primitives.md). -/

namespace Sys2Proof.Machine

/-! ## Wired constants (10_state.md R16) -/

/-- `LUT`, the signed offsets as 8-bit two's-complement bytes (30_encoding.md R37). -/
def LUT : Lanes Byte := ⟨0x00, 0x10, 0x13, 0x04, 0xBF, 0xBF, 0xB9, 0xB9⟩

/-- `SHIFTS`, tiled (30_encoding.md R38). -/
def SHIFTS : Lanes Byte := ⟨2, 4, 6, 8, 2, 4, 6, 8⟩

/-- `GATHER_IDX` (30_encoding.md R39; D10). -/
def GATHER_IDX : Lanes (BitVec 3) := ⟨0, 1, 2, 4, 5, 6, 3, 7⟩

/-- `PAD`, the character `A` (00_scope.md R5). -/
def PAD : Byte := 0x41

/-- The padding character `=` (30_encoding.md R35). -/
def padChar : Byte := 0x3D

/-- `/`, the byte the hash compares with (43_vector_group.md R72). -/
def slash : Byte := 0x2F

/-! ## The alphabet -/

/-- `valid(b)` (30_encoding.md R36): the five ranges, unsigned. -/
def valid (b : Byte) : Bool :=
  decide ((0x41 ≤ b.toNat ∧ b.toNat ≤ 0x5A) ∨ (0x61 ≤ b.toNat ∧ b.toNat ≤ 0x7A) ∨
    (0x30 ≤ b.toNat ∧ b.toNat ≤ 0x39) ∨ b.toNat = 0x2B ∨ b.toNat = 0x2F)

/-- `sextet_of(b)` (30_encoding.md R34). -/
def sextetOf (b : Byte) : Option Sextet :=
  if 0x41 ≤ b.toNat ∧ b.toNat ≤ 0x5A then some (BitVec.ofNat 6 (b.toNat - 0x41))
  else if 0x61 ≤ b.toNat ∧ b.toNat ≤ 0x7A then some (BitVec.ofNat 6 (b.toNat - 0x61 + 26))
  else if 0x30 ≤ b.toNat ∧ b.toNat ≤ 0x39 then some (BitVec.ofNat 6 (b.toNat - 0x30 + 52))
  else if b.toNat = 0x2B then some 62
  else if b.toNat = 0x2F then some 63
  else none

/-! ## Lengths, padding, groups -/

/-- `N(L) = L - L/2 + L/4` (40_shared_preprocessing.md R50). -/
def nBytes (len : Nat) : Nat := len - len / 2 + len / 4

/-- `STRIP(IN, n)` (40_shared_preprocessing.md R47): the test for two is made first. -/
def stripEnd (inp : List Byte) (n : Nat) : Nat :=
  if 2 ≤ n ∧ inp[n - 2]? = some padChar ∧ inp[n - 1]? = some padChar then n - 2
  else if 1 ≤ n ∧ inp[n - 1]? = some padChar then n - 1
  else n

/-- `L = min(4, end - pos)` (20_memory.md R23). -/
def groupLen (pos bodyEnd : Nat) : Nat := min 4 (bodyEnd - pos)

/-- `IN[pos .. pos+len)` (20_memory.md R23). -/
def groupAt (inp : List Byte) (pos len : Nat) : List Byte := (inp.drop pos).take len

/-- The same, or none where an index is outside `IN`. -/
def fetchGroup (inp : List Byte) (pos len : Nat) : Option (List Byte) :=
  if pos + len ≤ inp.length then some (groupAt inp pos len) else none

/-! ## Lane primitives (42_lane_primitives.md); each is total and pure (R57) -/

/-- `add8(a, b)` (00_scope.md §5): wraps. -/
def add8 (a b : Byte) : Byte := a + b

/-- `eqmask8(a, b)` (00_scope.md §5; D6): all ones where equal. -/
def eqmask8 (a b : Byte) : Byte := if a = b then 0xFF else 0x00

/-- `P.SRL8(V, k)` (R58). -/
def srl8 (v : Lanes Byte) (k : BitVec 3) : Lanes Byte := v.map fun (b : Byte) => b >>> k.toNat

/-- `P.CMPEQ8(V, c)` (R59). -/
def cmpeq8 (v : Lanes Byte) (c : Byte) : Lanes Byte := v.map fun (b : Byte) => eqmask8 b c

/-- `P.ADD8(V, W)` (R60). -/
def addLanes (v w : Lanes Byte) : Lanes Byte := v.zipWith add8 w

/-- `P.SHUFFLE8(T, I)` (R61): the index is taken modulo 8, its bits 2:0 (D7; log 15). -/
def shuffle8 (t ix : Lanes Byte) : Lanes Byte := ix.map fun (i : Byte) => t.get (Fin.ofNat 8 i.toNat)

/-- `P.INRANGE8(V)` (R62). -/
def inrange8 (v : Lanes Byte) : Lanes Bool := v.map valid

/-- `P.ZEXT16(V)` (R65). -/
def zext16 (v : Lanes Byte) : Lanes Half := v.map (BitVec.setWidth 16)

/-- `P.SLLV16(W, S)` (R66). -/
def sllv16 (w : Lanes Half) (k : Lanes Byte) : Lanes Half := w.zipWith (fun (x : Half) (a : Byte) => x <<< a.toNat) k

/-- `P.LO8(W)` (R67): bits 7:0. -/
def lo8 (w : Lanes Half) : Lanes Byte := w.map (BitVec.extractLsb' 0 8)

/-- `P.HI8(W)` (R68): bits 15:8. -/
def hi8 (w : Lanes Half) : Lanes Byte := w.map (BitVec.extractLsb' 8 8)

/-- `P.ROTL1(V)` (R69): one lane toward lane 0. -/
def rotl1 (v : Lanes Byte) : Lanes Byte := ⟨v.l1, v.l2, v.l3, v.l4, v.l5, v.l6, v.l7, v.l0⟩

/-- `P.OR8(V, W)` (R64). -/
def or8 (v w : Lanes Byte) : Lanes Byte := v.zipWith (· ||| ·) w

/-- `P.GATHER8(V, IDX)` (R70). -/
def gather8 (v : Lanes Byte) (ix : Lanes (BitVec 3)) : Lanes Byte := ix.map fun (i : BitVec 3) => v.get i.toFin

/-! ## Group operands of the vector datapath -/

/-- The input vector of a group: its characters, then `PAD` (43_vector_group.md R71). -/
def loadLanes (g : List Byte) : Lanes Byte :=
  ⟨g.getD 0 PAD, g.getD 1 PAD, g.getD 2 PAD, g.getD 3 PAD, PAD, PAD, PAD, PAD⟩

/-- The class hash of every lane (43_vector_group.md R72). -/
def hashLanes (v : Lanes Byte) : Lanes Byte := addLanes (srl8 v 4) (cmpeq8 v slash)

/-- The class hash of one byte (43_vector_group.md R72). -/
def hash (b : Byte) : Byte := add8 (b >>> 4) (eqmask8 b slash)

/-- The offset byte of one byte (43_vector_group.md R74). -/
def offset (b : Byte) : Byte := LUT.get (Fin.ofNat 8 (hash b).toNat)

/-- What the alphabet table says of a byte (30_encoding.md R34). -/
def symbolInfo (b : Byte) : SymbolInfo := ⟨b, sextetOf b, hash b, offset b⟩

/-! ## The scalar accumulator (41_scalar_reference.md) -/

/-- `S.FOLD(acc, s)` (R52). -/
def fold (acc : Acc) (x : Sextet) : Acc := (acc <<< 6) ||| x.setWidth 32

/-- `S.ALIGN(acc, L)` (R53). -/
def align (acc : Acc) (len : Nat) : Acc := acc <<< (32 - 6 * len)

/-- The accumulator "as 4 big-endian bytes" (R54). -/
def bigEndian (acc : Acc) : List Byte :=
  [acc.extractLsb' 24 8, acc.extractLsb' 16 8, acc.extractLsb' 8 8, acc.extractLsb' 0 8]

/-- The fold of a group, left to right, and the first invalid byte that stopped it (R55). -/
def foldGroup (acc : Acc) : List Byte → Acc × Option Byte
  | [] => (acc, none)
  | b :: bs =>
    match sextetOf b with
    | some x => foldGroup (fold acc x) bs
    | none => (acc, some b)

/-- Up to three bytes as a port word, byte `k` in bits `[8k+7 : 8k]`. Above the last byte it is 0: for `g_bytes` the spec
says so (43_vector_group.md R83; D3), for `out_bytes` it says nothing (44_vector_message.md R88) and 0 is the model's
choice (log 20, DESIGN CHOICE). -/
def portWord (bs : List Byte) : BitVec 24 := bs.getD 2 0 ++ bs.getD 1 0 ++ bs.getD 0 0

end Sys2Proof.Machine
end

