-- ==== Sys2Proof/Machine/Flags.lean ====
section
/-! DEFINITION. The two flags and the status encoding (10_state.md R10, R12; 30_encoding.md R45). There is no carry,
zero, sign or overflow flag (R12). -/

namespace Sys2Proof.Machine

/-- `P.ANDR(M)` (42_lane_primitives.md R63): 1 iff every lane is 1. -/
def andr (m : Lanes Bool) : Bool := m.l0 && m.l1 && m.l2 && m.l3 && m.l4 && m.l5 && m.l6 && m.l7

/-- `is_ok` of an input vector (43_vector_group.md R73; D8): over all eight lanes, pad lanes included. -/
def isOkOf (v : Lanes Byte) : Bool := andr (inrange8 v)

/-- The 2-bit code of `status` (10_state.md R10; D15). -/
def Status.code : Status → BitVec 2
  | .idle => 0
  | .run => 1
  | .done => 2
  | .err => 3

/-- The cause code of the error: 1 for InvalidByte, 0 for none (30_encoding.md R45; D21). -/
def causeCode (err : Bool) : Nat := if err then 1 else 0

/-- The call ends with the error: `err <- 1`, `status <- ERR`, `pos` keeps its value (60_exceptions.md R101), and no
reference to IN or OUT is kept (70_reset_and_hazards.md R108). `n` and `end` keep their values (log 27, DESIGN CHOICE: they
live for one call, 10_state.md R10, R19). -/
def Seq.fail (q : Seq) : Seq := { q with err := true, status := .err, inp := [], out := none }

/-- The call ends well: `status <- DONE` (44_vector_message.md R85), and no reference to IN or OUT is kept (R108).
`n` and `end` keep their values (log 27, DESIGN CHOICE). -/
def Seq.finish (q : Seq) : Seq := { q with status := .done, inp := [], out := none }

/-- `pos <- pos + 4`, whatever the group's length (10_state.md R11). -/
def Seq.advance (q : Seq) : Seq := { q with pos := q.pos + 4 }

end Sys2Proof.Machine
end

