-- ==== Sys2Proof/Machine/Ops.lean ====
section
/-! DEFINITION. The named operations over the state: the caller's buffers, the agents' sequencers, `Append`, the entry
of `InvalidByte` (60_exceptions.md R98, R101), reset of an agent. There is no return from the error (R102): the next
START clears it (`Seq.begin`). Only START, a decoder's own step and reset write a sequencer (10_state.md R10, R12). -/

namespace Sys2Proof.Machine

/-! ## The caller's buffers (20_memory.md R20; log 4) -/

/-- What an unlisted buffer reads as (log 4, DESIGN CHOICE): no byte has been appended to it. -/
def Memory.unlisted : List Byte := []

/-- The contents of buffer `k`. -/
def Memory.read : Memory → Nat → List Byte
  | [], _ => Memory.unlisted
  | (j, bs) :: m, k => if j = k then bs else Memory.read m k

/-- `(k, bs)` as an entry, unless it is what an unlisted buffer reads as. -/
def Memory.entry (k : Nat) (bs : List Byte) : Memory :=
  if bs = Memory.unlisted then [] else [(k, bs)]

/-- Buffer `k` now holds `bs`; the canonical form is kept. -/
def Memory.write : Memory → Nat → List Byte → Memory
  | [], k, bs => Memory.entry k bs
  | (j, old) :: m, k, bs =>
    if k < j then Memory.entry k bs ++ (j, old) :: m
    else if k = j then Memory.entry k bs ++ m
    else (j, old) :: Memory.write m k bs

/-- `Append(OUT, bs)`: `OUT <- OUT ++ bs` (20_memory.md R24). -/
def Memory.append (m : Memory) (k : Nat) (bs : List Byte) : Memory := m.write k (m.read k ++ bs)

/-- The canonical form: every number above `lo`, strictly rising, no entry equal to what an unlisted buffer reads as. -/
def Memory.wfFrom : Nat → Memory → Bool
  | _, [] => true
  | lo, (j, bs) :: m => decide (lo ≤ j) && decide (bs ≠ Memory.unlisted) && Memory.wfFrom (j + 1) m

/-- The canonical form of the caller's buffers. -/
def Memory.wf (m : Memory) : Bool := Memory.wfFrom 0 m

/-! ## Outcomes -/

/-- Go on from a next state; a stop stays the stop it is. -/
def andThen (r : Out) (f : State → Out) : Out :=
  match r with
  | .next s => f s
  | .fault e => .fault e
  | .refused e => .refused e

/-- The same state, with the value an operation returns (log 9). -/
def State.answer (s : State) (r : Ret) : State := { s with ret := r }

/-! ## Agents -/

/-- The other decoder agent. -/
def other : AgentId → AgentId
  | .vdec => .sdec
  | .sdec => .vdec

/-- The sequencer of an agent. -/
def State.seq (s : State) : AgentId → Seq
  | .vdec => s.vseq
  | .sdec => s.sseq

/-- The state with another sequencer for an agent. -/
def State.setSeq (s : State) (a : AgentId) (q : Seq) : State :=
  match a with
  | .vdec => { s with vseq := q }
  | .sdec => { s with sseq := q }

/-- The output port of an agent. -/
def State.port (s : State) : AgentId → OutPort
  | .vdec => s.vport
  | .sdec => s.sport

/-- The state with another output port for an agent. -/
def State.setPort (s : State) (a : AgentId) (p : OutPort) : State :=
  match a with
  | .vdec => { s with vport := p }
  | .sdec => { s with sport := p }

/-- Agent `a` has a call in flight on buffer `o` (20_memory.md R28). -/
def State.inFlight (s : State) (a : AgentId) (o : BufId) : Bool :=
  decide ((s.seq a).status = .run ∧ (s.seq a).out = some o)

/-- Some call in flight is on buffer `o`: it is "exclusively mutated by the single in-flight call" (R28). -/
def State.inUse (s : State) (o : BufId) : Bool := s.inFlight .vdec o || s.inFlight .sdec o

/-! ## Append (20_memory.md R24) -/

/-- The port that shows an append of these bytes (44_vector_message.md R88; bits above the last byte by log 20). -/
def OutPort.showing (bs : List Byte) : OutPort := ⟨portWord bs, BitVec.ofNat 2 bs.length⟩

/-- The state after agent `a` appends `bs` to buffer `o`: the buffer grows at its end, and the agent's port shows the append
(log 20). -/
def State.appended (s : State) (a : AgentId) (o : BufId) (bs : List Byte) : State :=
  { s with bufs := s.bufs.append o.toNat bs }.setPort a (.showing bs)

/-- `Append(OUT, bs)` by a row that stands alone; refused while a call in flight uses that buffer, so that no row reaches
into a call (R28; U3; 60_exceptions.md R99; log 21). -/
def appendRow (a : AgentId) (o : BufId) (bs : List Byte) (s : State) : Out :=
  if s.inUse o then .refused .sharedOutput else .next (s.appended a o bs)

/-- `Append(OUT, bs)` by a running call, and `pos <- pos + 4` with it: "one indivisible step" (R24; D18). It stops only in
states no call can reach (log 18, log 21). -/
def appendStep (a : AgentId) (bs : List Byte) (s : State) : Out :=
  match (s.seq a).out with
  | none => .fault .noOutput
  | some o =>
    if s.inFlight (other a) o then .refused .sharedOutput
    else .next ((s.appended a o bs).setSeq a (s.seq a).advance)

/-! ## The error (60_exceptions.md) -/

/-- `InvalidByte` taken by VDEC's call: nothing recorded beyond `err` (R98, R101). -/
def raiseV (s : State) : State := { s with vseq := s.vseq.fail, vport := .quiet }

/-- `InvalidByte(b)` taken by SDEC's call: `err_byte <- b` (R98, R101). -/
def raiseS (b : Byte) (s : State) : State := { s with sseq := s.sseq.fail, sport := .quiet, errByte := b }

/-- `InvalidByte` raised on agent `a` by a group row that stands alone: it goes back to who presented the row, nothing is
appended, and no flag is written, since `err` is "1 iff the call ended with InvalidByte" and here is none (10_state.md R10,
R12; 41_scalar_reference.md R55 "Flags: none here"; log 10). -/
def raiseRow (a : AgentId) (b : Option Byte) (s : State) : State := (s.setPort a .quiet).answer (.invalidByte b)

/-! ## Start, end and reset -/

/-- The assignments of START (40_shared_preprocessing.md R46); they read nothing of the past. -/
def Seq.begin (o : BufId) (inp : List Byte) : Seq where
  inp := inp
  out := some o
  n := inp.length
  bodyEnd := stripEnd inp inp.length
  pos := 0
  status := .run
  err := false

/-- The state in which a call of agent `a` has begun. -/
def State.begun (s : State) (a : AgentId) (o : BufId) (inp : List Byte) : State :=
  (s.setSeq a (Seq.begin o inp)).setPort a .quiet

/-- START on agent `a` (R46; U9; 20_memory.md R28, U3). -/
def startCall (a : AgentId) (o : BufId) (inp : List Byte) (s : State) : Out :=
  if (s.seq a).status = .run then .refused .startWhileRunning
  else if s.inFlight (other a) o then .refused .sharedOutput
  else .next (s.begun a o inp)

/-- The state in which the end test has ended agent `a`'s call: it "appends nothing" (44_vector_message.md R85). -/
def State.finished (s : State) (a : AgentId) : State := (s.setSeq a (s.seq a).finish).setPort a .quiet

/-- Reset of one agent (70_reset_and_hazards.md R107): the call in flight is abandoned and its references with it; the
buffers are the caller's and are not touched. The registers the rule leaves unspecified take the values of log 6. -/
def State.resetAgent (s : State) (a : AgentId) : State :=
  match a with
  | .vdec => { s with vseq := .reset, vport := .quiet, vdp := .reset }
  | .sdec => { s with sseq := .reset, sport := .quiet, acc := 0, errByte := 0 }

/-- The caller hands over buffer `o` holding `bs` (R9, R108; log 16); refused while a call is using it (R28). -/
def supplyBuffer (o : BufId) (bs : List Byte) (s : State) : Out :=
  if s.inUse o then .refused .sharedOutput else .next { s with bufs := s.bufs.write o.toNat bs }

/-! ## What the caller observes (10_state.md R17, 30_encoding.md R45) -/

/-- What the caller sees of an agent: `status`, `err`, `err_byte` on SDEC, and `pos`. R17 says "exactly" the first three and
the growth of OUT; R19, 60_exceptions.md R105 and D9 have `pos` for the caller to read as well, and the model shows it
(log 25, DESIGN CHOICE). -/
structure Signals where
  status : BitVec 2
  pos : Nat
  err : Bool
  errByte : Option Byte
  deriving DecidableEq, Repr

/-- What the caller can read of an agent (R17, R19; 60_exceptions.md R105; log 25). -/
def State.signals (s : State) (a : AgentId) : Signals where
  status := (s.seq a).status.code
  pos := (s.seq a).pos
  err := (s.seq a).err
  errByte := match a with
    | .vdec => none
    | .sdec => some s.errByte

/-- The result of a call: `Ok(())` or `Err(InvalidByte)`, with the byte on SDEC (R17, R45). -/
inductive CallResult where
  | ok
  | err (b : Option Byte)
  deriving DecidableEq, Repr

/-- The result of agent `a`'s call, once it is over (44_vector_message.md R86). -/
def State.result (s : State) (a : AgentId) : Option CallResult :=
  match (s.seq a).status with
  | .done => some .ok
  | .err => some (.err (s.signals a).errByte)
  | .idle => none
  | .run => none

end Sys2Proof.Machine
end

