-- ==== Sys2Proof/Machine/Vector.lean ====
section
/-! DEFINITION. The vector group datapath (43_vector_group.md R71 to R82): each stage a function of the lane registers,
GROUP.V their chain. A stage row standing alone reads the registers as the last row, group step or call left them (log 26,
DESIGN CHOICE: the spec gives them no value there). -/

namespace Sys2Proof.Machine

/-- `VLOAD(g)`: `V_IN` and `L` (R71). -/
def stageLoad (g : List Byte) (r : VRegs) : VRegs := { r with vIn := loadLanes g, gLen := g.length }

/-- `VHASH` (R72). -/
def stageHash (r : VRegs) : VRegs := { r with vEq := cmpeq8 r.vIn slash, vHash := addLanes (srl8 r.vIn 4) (cmpeq8 r.vIn slash) }

/-- `VVALID` (R73). -/
def stageValid (r : VRegs) : VRegs := { r with vOk := inrange8 r.vIn, isOk := andr (inrange8 r.vIn) }

/-- `VLOOKUP` (R74). -/
def stageLookup (r : VRegs) : VRegs := { r with vOff := shuffle8 LUT r.vHash }

/-- `VSEXT` (R75). -/
def stageSext (r : VRegs) : VRegs := { r with vSext := addLanes r.vIn r.vOff }

/-- `VWIDEN` (R76). -/
def stageWiden (r : VRegs) : VRegs := { r with vWide := sllv16 (zext16 r.vSext) SHIFTS }

/-- `VSPLIT` (R77). -/
def stageSplit (r : VRegs) : VRegs := { r with vLo := lo8 r.vWide, vHi := hi8 r.vWide }

/-- `VROT` (R78). -/
def stageRot (r : VRegs) : VRegs := { r with vRot := rotl1 r.vHi }

/-- `VMERGE` (R79). -/
def stageMerge (r : VRegs) : VRegs := { r with vPack := or8 r.vLo r.vRot }

/-- `VCOMPACT` (R80). -/
def stageCompact (r : VRegs) : VRegs := { r with vComp := gather8 r.vPack GATHER_IDX }

/-- The ten stages before VAPPEND, in the order of R82. -/
def datapath (g : List Byte) (r : VRegs) : VRegs :=
  stageCompact (stageMerge (stageRot (stageSplit (stageWiden (stageSext (stageLookup (stageValid (stageHash
    (stageLoad g r)))))))))

/-- The bytes VAPPEND would append: `V_COMP[0], …, V_COMP[N(L) - 1]` (R81). -/
def VRegs.outBytes (r : VRegs) : List Byte := r.vComp.toList.take (nBytes r.gLen)

/-- Finishing a group: append by `k`, or raise `InvalidByte` by `raise` (R81, R98). A call and a row differ in these only. -/
def appendGroup (k : List Byte → State → Out) (raise : State → State) (s : State) : Out :=
  if s.vdp.isOk then k s.vdp.outBytes s else .next (raise s)

/-- One whole group (R82). -/
def groupVector (k : List Byte → State → Out) (raise : State → State) (g : List Byte) (s : State) : Out :=
  appendGroup k raise { s with vdp := datapath g s.vdp }

/-- `VLOAD(g)` (R71). -/
def execVload (g : List Byte) (s : State) : Out :=
  if lengthOk g.length then .next { s with vdp := stageLoad g s.vdp } else .refused .illFormedLength

/-- `VHASH` (R72). -/
def execVhash (s : State) : Out := .next { s with vdp := stageHash s.vdp }

/-- `VVALID` (R73). -/
def execVvalid (s : State) : Out := .next { s with vdp := stageValid s.vdp }

/-- `VLOOKUP` (R74). -/
def execVlookup (s : State) : Out := .next { s with vdp := stageLookup s.vdp }

/-- `VSEXT` (R75). -/
def execVsext (s : State) : Out := .next { s with vdp := stageSext s.vdp }

/-- `VWIDEN` (R76). -/
def execVwiden (s : State) : Out := .next { s with vdp := stageWiden s.vdp }

/-- `VSPLIT` (R77). -/
def execVsplit (s : State) : Out := .next { s with vdp := stageSplit s.vdp }

/-- `VROT` (R78). -/
def execVrot (s : State) : Out := .next { s with vdp := stageRot s.vdp }

/-- `VMERGE` (R79). -/
def execVmerge (s : State) : Out := .next { s with vdp := stageMerge s.vdp }

/-- `VCOMPACT` (R80). -/
def execVcompact (s : State) : Out := .next { s with vdp := stageCompact s.vdp }

/-- `VAPPEND` to `OUT` (R81). It reads `is_ok`, `L` and `V_COMP` as they stand, so after a group step or a call it appends
that group's bytes once more (log 26, DESIGN CHOICE). -/
def execVappend (s : State) (o : BufId) : Out := appendGroup (appendRow .vdec o) (raiseRow .vdec none) s

/-- `GROUP.V(g, OUT)` (R82). -/
def execGroupV (g : List Byte) (s : State) (o : BufId) : Out :=
  if lengthOk g.length then groupVector (appendRow .vdec o) (raiseRow .vdec none) g s else .refused .illFormedLength

end Sys2Proof.Machine
end

