-- ==== Sys2Proof/Machine/Groups.lean ====
section
/-! DEFINITION. The group formats G1 to G4 at the group port (30_encoding.md R32, R33; 43_vector_group.md R83; log 13). -/

namespace Sys2Proof.Machine

/-- The group port as a pure function of the group presented (R83): byte `k` of `g_bytes` is `V_COMP[k]` for `k < g_n`
and 0 above; no bytes when the group is invalid. -/
def groupPort (g : List Byte) : GroupPort :=
  let r := datapath g VRegs.reset
  if r.isOk then ⟨portWord r.outBytes, BitVec.ofNat 2 (nBytes g.length), true⟩ else ⟨0, 0, false⟩

/-- A group of length 4. -/
def execG4 (c0 c1 c2 c3 : Byte) (s : State) : Out := .next (s.answer (.port (groupPort [c0, c1, c2, c3])))

/-- A group of length 3. -/
def execG3 (c0 c1 c2 : Byte) (s : State) : Out := .next (s.answer (.port (groupPort [c0, c1, c2])))

/-- A group of length 2. -/
def execG2 (c0 c1 : Byte) (s : State) : Out := .next (s.answer (.port (groupPort [c0, c1])))

/-- A group of length 1. -/
def execG1 (c0 : Byte) (s : State) : Out := .next (s.answer (.port (groupPort [c0])))

end Sys2Proof.Machine
end

