-- ==== Sys2Proof/Machine/Scalar.lean ====
section
/-! DEFINITION. The scalar operations S.MAP, S.FOLD, S.ALIGN, S.EMIT, GROUP.S (41_scalar_reference.md R51 to R55). -/

namespace Sys2Proof.Machine

/-- Mapping one byte: its sextet, or `InvalidByte(b)` (R51, R98). Outside a call the error goes back to who asked (log 10). -/
def mapByte (b : Byte) (s : State) : Out :=
  match sextetOf b with
  | some x => .next (s.answer (.sextet x))
  | none => .next (s.answer (.invalidByte (some b)))

/-- The bytes S.EMIT appends: the first `N(L)` big-endian bytes of the aligned accumulator (R54). -/
def emitted (acc : Acc) (len : Nat) : List Byte := (bigEndian acc).take (nBytes len)

/-- One whole group (R55): fold every byte, align, and emit by `k`; the first invalid byte is raised by `raise`, and nothing
is appended. `acc` keeps the fold up to there (log 22). A call and a row differ in `k` and `raise` only. -/
def groupScalar (k : List Byte → State → Out) (raise : Byte → State → State) (g : List Byte) (s : State) : Out :=
  match foldGroup 0 g with
  | (acc, none) => k (emitted (align acc g.length) g.length) { s with acc := align acc g.length }
  | (acc, some b) => .next (raise b { s with acc := acc })

/-- `S.MAP(b)` (R51). -/
def execSMap (b : Byte) (s : State) : Out := mapByte b s

/-- `S.FOLD(acc, s)` (R52), on `acc` as it stands (log 26). -/
def execSFold (x : Sextet) (s : State) : Out := .next { s with acc := fold s.acc x }

/-- `S.ALIGN(acc, L)` (R53), on `acc` as it stands (log 26). -/
def execSAlign (len : Nat) (s : State) : Out :=
  if lengthOk len then .next { s with acc := align s.acc len } else .refused .illFormedLength

/-- `S.EMIT(acc, L, OUT)` (R54), of `acc` as it stands (log 26). -/
def execSEmit (len : Nat) (s : State) (o : BufId) : Out :=
  if lengthOk len then appendRow .sdec o (emitted s.acc len) s else .refused .illFormedLength

/-- `GROUP.S(g, OUT)` (R55). -/
def execGroupS (g : List Byte) (s : State) (o : BufId) : Out :=
  if lengthOk g.length then groupScalar (appendRow .sdec o) (fun b => raiseRow .sdec (some b)) g s
  else .refused .illFormedLength

end Sys2Proof.Machine
end

