-- ==== Sys2Proof/Machine/Message.lean ====
section
/-! DEFINITION. The sequencer of a call: one step of each decoder, and DECODE.S, DECODE.V as whole calls
(41_scalar_reference.md R56, 44_vector_message.md R85, R86). -/

namespace Sys2Proof.Machine

/-- The next group of a call: PART on the sequencer's own registers (40_shared_preprocessing.md R49). -/
def Seq.nextGroup (q : Seq) : Option (List Byte) := fetchGroup q.inp q.pos (groupLen q.pos q.bodyEnd)

/-- One step of VDEC (R85): the end test, or the next group, its append and the advance of `pos` together
(20_memory.md R24); an invalid group leaves `pos`. -/
def vdecStep (s : State) : Out :=
  if s.vseq.bodyEnd ≤ s.vseq.pos then .next (s.finished .vdec)
  else
    match s.vseq.nextGroup with
    | none => .fault .inputOutOfRange
    | some g => groupVector (appendStep .vdec) raiseV g s

/-- One step of SDEC (R56). -/
def sdecStep (s : State) : Out :=
  if s.sseq.bodyEnd ≤ s.sseq.pos then .next (s.finished .sdec)
  else
    match s.sseq.nextGroup with
    | none => .fault .inputOutOfRange
    | some g => groupScalar (appendStep .sdec) raiseS g s

/-- One step of an agent. -/
def agentStep : AgentId → State → Out
  | .vdec => vdecStep
  | .sdec => sdecStep

/-- `while status = RUN`, at most `k` times (R56, R85). -/
def runCall (a : AgentId) : Nat → State → Out
  | 0, s => .next s
  | k + 1, s => if (s.seq a).status = .run then andThen (agentStep a s) (runCall a k) else .next s

/-- Enough iterations for a call: `⌈end/4⌉` groups and the end test (44_vector_message.md R86). -/
def Seq.callSteps (q : Seq) : Nat := q.bodyEnd / 4 + 2

/-- A whole call: START, then steps until it is over (R56, R85). -/
def decodeCall (a : AgentId) (o : BufId) (inp : List Byte) (s : State) : Out :=
  andThen (startCall a o inp s) fun t => runCall a (t.seq a).callSteps t

/-- `DECODE.S(IN, OUT)` (R56; in one step by log 23). -/
def execDecodeS (o : BufId) (inp : List Byte) (s : State) : Out := decodeCall .sdec o inp s

/-- `DECODE.V(IN, OUT)` (R85; in one step by log 23). -/
def execDecodeV (o : BufId) (inp : List Byte) (s : State) : Out := decodeCall .vdec o inp s

end Sys2Proof.Machine
end

