-- ==== Sys2Proof/Machine/Harness.lean ====
section
/-! DEFINITION. The equivalence harness CHECK.EQ (45_equivalence_harness.md R90, R91). -/

namespace Sys2Proof.Machine

/-- What the harness compares (R90): the kind, true for `Ok`, and the buffer; never the carried byte. -/
abbrev HarnessResult := Bool × List Byte

/-- The harness's reading of a finished call of agent `a` on its buffer 0. -/
def harnessResult (a : AgentId) (r : Out) : Option HarnessResult :=
  match r with
  | .next t =>
    match t.result a with
    | some .ok => some (true, t.bufs.read 0)
    | some (.err _) => some (false, t.bufs.read 0)
    | none => none
  | .fault _ => none
  | .refused _ => none

/-- `x` decoded by a decoder of the harness's own, with a fresh, empty buffer (R91; D25; log 24). -/
def freshRun (a : AgentId) (x : List Byte) : Option HarnessResult := harnessResult a (decodeCall a 0 x State.reset)

/-- The verdict on two results (R91; D24). -/
def judge : Option HarnessResult → Option HarnessResult → Verdict
  | some (true, outS), some (true, outV) => if outS = outV then .pass else .fail
  | some (false, _), some (false, _) => .pass
  | _, _ => .fail

/-- `CHECK.EQ(x)` (R91): only the verdict survives the check. -/
def execCheckEq (x : List Byte) (s : State) : Out :=
  .next { s with verdict := some (judge (freshRun .sdec x) (freshRun .vdec x)) }

end Sys2Proof.Machine
end

