-- ==== Sys2Proof/Machine/Lane.lean ====
section
/-! DEFINITION. The lane primitives as operations standing alone (42_lane_primitives.md R58 to R70): each returns its
value (log 9) and touches nothing else: "it writes no flag, raises no exception and touches no memory". -/

namespace Sys2Proof.Machine

/-- `P.SRL8` (R58). -/
def execPSrl8 (v : Lanes Byte) (k : BitVec 3) (s : State) : Out := .next (s.answer (.lanes8 (srl8 v k)))

/-- `P.CMPEQ8` (R59). -/
def execPCmpeq8 (v : Lanes Byte) (c : Byte) (s : State) : Out := .next (s.answer (.lanes8 (cmpeq8 v c)))

/-- `P.ADD8` (R60). -/
def execPAdd8 (v w : Lanes Byte) (s : State) : Out := .next (s.answer (.lanes8 (addLanes v w)))

/-- `P.SHUFFLE8` (R61). -/
def execPShuffle8 (t ix : Lanes Byte) (s : State) : Out := .next (s.answer (.lanes8 (shuffle8 t ix)))

/-- `P.INRANGE8` (R62). -/
def execPInrange8 (v : Lanes Byte) (s : State) : Out := .next (s.answer (.mask (inrange8 v)))

/-- `P.ANDR` (R63). -/
def execPAndr (m : Lanes Bool) (s : State) : Out := .next (s.answer (.bit (andr m)))

/-- `P.ZEXT16` (R65). -/
def execPZext16 (v : Lanes Byte) (s : State) : Out := .next (s.answer (.lanes16 (zext16 v)))

/-- `P.SLLV16` (R66). -/
def execPSllv16 (w : Lanes Half) (k : Lanes Byte) (s : State) : Out := .next (s.answer (.lanes16 (sllv16 w k)))

/-- `P.LO8` (R67). -/
def execPLo8 (w : Lanes Half) (s : State) : Out := .next (s.answer (.lanes8 (lo8 w)))

/-- `P.HI8` (R68). -/
def execPHi8 (w : Lanes Half) (s : State) : Out := .next (s.answer (.lanes8 (hi8 w)))

/-- `P.ROTL1` (R69). -/
def execPRotl1 (v : Lanes Byte) (s : State) : Out := .next (s.answer (.lanes8 (rotl1 v)))

/-- `P.OR8` (R64). -/
def execPOr8 (v w : Lanes Byte) (s : State) : Out := .next (s.answer (.lanes8 (or8 v w)))

/-- `P.GATHER8` (R70). -/
def execPGather8 (v : Lanes Byte) (ix : Lanes (BitVec 3)) (s : State) : Out := .next (s.answer (.lanes8 (gather8 v ix)))

end Sys2Proof.Machine
end

