-- ==== Sys2Proof/Machine/Shared.lean ====
section
/-! DEFINITION. The shared operations START, STRIP, PART, NBYTES (40_shared_preprocessing.md R46, R47, R49, R50). -/

namespace Sys2Proof.Machine

/-- `START(IN, OUT)` on agent `a` (R46). -/
def execStart (a : AgentId) (o : BufId) (inp : List Byte) (s : State) : Out := startCall a o inp s

/-- `STRIP(IN, n)`: the value `end` (R47). START writes it to the call's register `end`, "end <- STRIP(IN, n)" (R46); a
row standing alone belongs to no call and returns it (log 9, log 10). -/
def execStrip (inp : List Byte) (s : State) : Out := .next (s.answer (.bodyEnd (stripEnd inp inp.length)))

/-- `PART(IN, pos, end)`: "require pos < end", then the group and its length (R49). -/
def execPart (inp : List Byte) (s : State) (pos bodyEnd : Nat) : Out :=
  if bodyEnd ≤ inp.length then
    if pos < bodyEnd then
      .next (s.answer (.group (groupAt inp pos (groupLen pos bodyEnd)) (groupLen pos bodyEnd)))
    else .refused .partAtEnd
  else .refused .illFormedLength

/-- `NBYTES(L)`: `N(L)` (R50). -/
def execNbytes (len : Nat) (s : State) : Out :=
  if lengthOk len then .next (s.answer (.count (nBytes len))) else .refused .illFormedLength

end Sys2Proof.Machine
end

