-- ==== Sys2Proof/Machine/Symbols.lean ====
section
/-! DEFINITION. The alphabet symbols and the padding symbol (30_encoding.md R34, R35; log 11, log 12). -/

namespace Sys2Proof.Machine

/-- A symbol row: what the alphabet table says of its byte (R34; log 11). -/
def symbolRow (b : Byte) (s : State) : Out := .next (s.answer (.symbol (symbolInfo b)))

/-- The symbol `+`. -/
def execSymPlus (s : State) : Out := symbolRow 0x2B s

/-- The symbol `/`. -/
def execSymSlash (s : State) : Out := symbolRow 0x2F s

/-- The symbol `0`. -/
def execSym0 (s : State) : Out := symbolRow 0x30 s

/-- The symbol `1`. -/
def execSym1 (s : State) : Out := symbolRow 0x31 s

/-- The symbol `2`. -/
def execSym2 (s : State) : Out := symbolRow 0x32 s

/-- The symbol `3`. -/
def execSym3 (s : State) : Out := symbolRow 0x33 s

/-- The symbol `4`. -/
def execSym4 (s : State) : Out := symbolRow 0x34 s

/-- The symbol `5`. -/
def execSym5 (s : State) : Out := symbolRow 0x35 s

/-- The symbol `6`. -/
def execSym6 (s : State) : Out := symbolRow 0x36 s

/-- The symbol `7`. -/
def execSym7 (s : State) : Out := symbolRow 0x37 s

/-- The symbol `8`. -/
def execSym8 (s : State) : Out := symbolRow 0x38 s

/-- The symbol `9`. -/
def execSym9 (s : State) : Out := symbolRow 0x39 s

/-- The symbol `A`. -/
def execSymUpA (s : State) : Out := symbolRow 0x41 s

/-- The symbol `B`. -/
def execSymUpB (s : State) : Out := symbolRow 0x42 s

/-- The symbol `C`. -/
def execSymUpC (s : State) : Out := symbolRow 0x43 s

/-- The symbol `D`. -/
def execSymUpD (s : State) : Out := symbolRow 0x44 s

/-- The symbol `E`. -/
def execSymUpE (s : State) : Out := symbolRow 0x45 s

/-- The symbol `F`. -/
def execSymUpF (s : State) : Out := symbolRow 0x46 s

/-- The symbol `G`. -/
def execSymUpG (s : State) : Out := symbolRow 0x47 s

/-- The symbol `H`. -/
def execSymUpH (s : State) : Out := symbolRow 0x48 s

/-- The symbol `I`. -/
def execSymUpI (s : State) : Out := symbolRow 0x49 s

/-- The symbol `J`. -/
def execSymUpJ (s : State) : Out := symbolRow 0x4A s

/-- The symbol `K`. -/
def execSymUpK (s : State) : Out := symbolRow 0x4B s

/-- The symbol `L`. -/
def execSymUpL (s : State) : Out := symbolRow 0x4C s

/-- The symbol `M`. -/
def execSymUpM (s : State) : Out := symbolRow 0x4D s

/-- The symbol `N`. -/
def execSymUpN (s : State) : Out := symbolRow 0x4E s

/-- The symbol `O`. -/
def execSymUpO (s : State) : Out := symbolRow 0x4F s

/-- The symbol `P`. -/
def execSymUpP (s : State) : Out := symbolRow 0x50 s

/-- The symbol `Q`. -/
def execSymUpQ (s : State) : Out := symbolRow 0x51 s

/-- The symbol `R`. -/
def execSymUpR (s : State) : Out := symbolRow 0x52 s

/-- The symbol `S`. -/
def execSymUpS (s : State) : Out := symbolRow 0x53 s

/-- The symbol `T`. -/
def execSymUpT (s : State) : Out := symbolRow 0x54 s

/-- The symbol `U`. -/
def execSymUpU (s : State) : Out := symbolRow 0x55 s

/-- The symbol `V`. -/
def execSymUpV (s : State) : Out := symbolRow 0x56 s

/-- The symbol `W`. -/
def execSymUpW (s : State) : Out := symbolRow 0x57 s

/-- The symbol `X`. -/
def execSymUpX (s : State) : Out := symbolRow 0x58 s

/-- The symbol `Y`. -/
def execSymUpY (s : State) : Out := symbolRow 0x59 s

/-- The symbol `Z`. -/
def execSymUpZ (s : State) : Out := symbolRow 0x5A s

/-- The symbol `a`. -/
def execSymLoA (s : State) : Out := symbolRow 0x61 s

/-- The symbol `b`. -/
def execSymLoB (s : State) : Out := symbolRow 0x62 s

/-- The symbol `c`. -/
def execSymLoC (s : State) : Out := symbolRow 0x63 s

/-- The symbol `d`. -/
def execSymLoD (s : State) : Out := symbolRow 0x64 s

/-- The symbol `e`. -/
def execSymLoE (s : State) : Out := symbolRow 0x65 s

/-- The symbol `f`. -/
def execSymLoF (s : State) : Out := symbolRow 0x66 s

/-- The symbol `g`. -/
def execSymLoG (s : State) : Out := symbolRow 0x67 s

/-- The symbol `h`. -/
def execSymLoH (s : State) : Out := symbolRow 0x68 s

/-- The symbol `i`. -/
def execSymLoI (s : State) : Out := symbolRow 0x69 s

/-- The symbol `j`. -/
def execSymLoJ (s : State) : Out := symbolRow 0x6A s

/-- The symbol `k`. -/
def execSymLoK (s : State) : Out := symbolRow 0x6B s

/-- The symbol `l`. -/
def execSymLoL (s : State) : Out := symbolRow 0x6C s

/-- The symbol `m`. -/
def execSymLoM (s : State) : Out := symbolRow 0x6D s

/-- The symbol `n`. -/
def execSymLoN (s : State) : Out := symbolRow 0x6E s

/-- The symbol `o`. -/
def execSymLoO (s : State) : Out := symbolRow 0x6F s

/-- The symbol `p`. -/
def execSymLoP (s : State) : Out := symbolRow 0x70 s

/-- The symbol `q`. -/
def execSymLoQ (s : State) : Out := symbolRow 0x71 s

/-- The symbol `r`. -/
def execSymLoR (s : State) : Out := symbolRow 0x72 s

/-- The symbol `s`. -/
def execSymLoS (s : State) : Out := symbolRow 0x73 s

/-- The symbol `t`. -/
def execSymLoT (s : State) : Out := symbolRow 0x74 s

/-- The symbol `u`. -/
def execSymLoU (s : State) : Out := symbolRow 0x75 s

/-- The symbol `v`. -/
def execSymLoV (s : State) : Out := symbolRow 0x76 s

/-- The symbol `w`. -/
def execSymLoW (s : State) : Out := symbolRow 0x77 s

/-- The symbol `x`. -/
def execSymLoX (s : State) : Out := symbolRow 0x78 s

/-- The symbol `y`. -/
def execSymLoY (s : State) : Out := symbolRow 0x79 s

/-- The symbol `z`. -/
def execSymLoZ (s : State) : Out := symbolRow 0x7A s

/-- The padding symbol (R35): dropped as the last byte or the last two bytes of the input; anywhere else "an ordinary
byte outside the alphabet", mapped like any other (R51). -/
def execPadEq (p : PadPlace) (s : State) : Out :=
  match p with
  | .last => .next (s.answer .padding)
  | .secondLast => .next (s.answer .padding)
  | .body => mapByte padChar s

end Sys2Proof.Machine
end

