-- ==== Sys2Proof/Machine/Dispatch.lean ====
section
/-! DEFINITION. One arm per row of the opcode table. -/

namespace Sys2Proof.Machine

def exec (i : Instr) (s : State) : Host.Outcome State Fault Refusal :=
  match i with
  | .start a o inp => Sys2Proof.Machine.execStart a o inp s
  | .strip inp => Sys2Proof.Machine.execStrip inp s
  | .part inp pos bodyEnd => Sys2Proof.Machine.execPart inp s pos bodyEnd
  | .nbytes len => Sys2Proof.Machine.execNbytes len s
  | .sMap b => Sys2Proof.Machine.execSMap b s
  | .sFold x => Sys2Proof.Machine.execSFold x s
  | .sAlign len => Sys2Proof.Machine.execSAlign len s
  | .sEmit len o => Sys2Proof.Machine.execSEmit len s o
  | .groupS g o => Sys2Proof.Machine.execGroupS g s o
  | .decodeS o inp => Sys2Proof.Machine.execDecodeS o inp s
  | .pSrl8 v k => Sys2Proof.Machine.execPSrl8 v k s
  | .pCmpeq8 v c => Sys2Proof.Machine.execPCmpeq8 v c s
  | .pAdd8 v w => Sys2Proof.Machine.execPAdd8 v w s
  | .pShuffle8 t ix => Sys2Proof.Machine.execPShuffle8 t ix s
  | .pInrange8 v => Sys2Proof.Machine.execPInrange8 v s
  | .pAndr m => Sys2Proof.Machine.execPAndr m s
  | .pZext16 v => Sys2Proof.Machine.execPZext16 v s
  | .pSllv16 w k => Sys2Proof.Machine.execPSllv16 w k s
  | .pLo8 w => Sys2Proof.Machine.execPLo8 w s
  | .pHi8 w => Sys2Proof.Machine.execPHi8 w s
  | .pRotl1 v => Sys2Proof.Machine.execPRotl1 v s
  | .pOr8 v w => Sys2Proof.Machine.execPOr8 v w s
  | .pGather8 v ix => Sys2Proof.Machine.execPGather8 v ix s
  | .vload g => Sys2Proof.Machine.execVload g s
  | .vhash => Sys2Proof.Machine.execVhash s
  | .vvalid => Sys2Proof.Machine.execVvalid s
  | .vlookup => Sys2Proof.Machine.execVlookup s
  | .vsext => Sys2Proof.Machine.execVsext s
  | .vwiden => Sys2Proof.Machine.execVwiden s
  | .vsplit => Sys2Proof.Machine.execVsplit s
  | .vrot => Sys2Proof.Machine.execVrot s
  | .vmerge => Sys2Proof.Machine.execVmerge s
  | .vcompact => Sys2Proof.Machine.execVcompact s
  | .vappend o => Sys2Proof.Machine.execVappend s o
  | .groupV g o => Sys2Proof.Machine.execGroupV g s o
  | .decodeV o inp => Sys2Proof.Machine.execDecodeV o inp s
  | .checkEq x => Sys2Proof.Machine.execCheckEq x s
  | .symPlus => Sys2Proof.Machine.execSymPlus s
  | .symSlash => Sys2Proof.Machine.execSymSlash s
  | .sym0 => Sys2Proof.Machine.execSym0 s
  | .sym1 => Sys2Proof.Machine.execSym1 s
  | .sym2 => Sys2Proof.Machine.execSym2 s
  | .sym3 => Sys2Proof.Machine.execSym3 s
  | .sym4 => Sys2Proof.Machine.execSym4 s
  | .sym5 => Sys2Proof.Machine.execSym5 s
  | .sym6 => Sys2Proof.Machine.execSym6 s
  | .sym7 => Sys2Proof.Machine.execSym7 s
  | .sym8 => Sys2Proof.Machine.execSym8 s
  | .sym9 => Sys2Proof.Machine.execSym9 s
  | .symUpA => Sys2Proof.Machine.execSymUpA s
  | .symUpB => Sys2Proof.Machine.execSymUpB s
  | .symUpC => Sys2Proof.Machine.execSymUpC s
  | .symUpD => Sys2Proof.Machine.execSymUpD s
  | .symUpE => Sys2Proof.Machine.execSymUpE s
  | .symUpF => Sys2Proof.Machine.execSymUpF s
  | .symUpG => Sys2Proof.Machine.execSymUpG s
  | .symUpH => Sys2Proof.Machine.execSymUpH s
  | .symUpI => Sys2Proof.Machine.execSymUpI s
  | .symUpJ => Sys2Proof.Machine.execSymUpJ s
  | .symUpK => Sys2Proof.Machine.execSymUpK s
  | .symUpL => Sys2Proof.Machine.execSymUpL s
  | .symUpM => Sys2Proof.Machine.execSymUpM s
  | .symUpN => Sys2Proof.Machine.execSymUpN s
  | .symUpO => Sys2Proof.Machine.execSymUpO s
  | .symUpP => Sys2Proof.Machine.execSymUpP s
  | .symUpQ => Sys2Proof.Machine.execSymUpQ s
  | .symUpR => Sys2Proof.Machine.execSymUpR s
  | .symUpS => Sys2Proof.Machine.execSymUpS s
  | .symUpT => Sys2Proof.Machine.execSymUpT s
  | .symUpU => Sys2Proof.Machine.execSymUpU s
  | .symUpV => Sys2Proof.Machine.execSymUpV s
  | .symUpW => Sys2Proof.Machine.execSymUpW s
  | .symUpX => Sys2Proof.Machine.execSymUpX s
  | .symUpY => Sys2Proof.Machine.execSymUpY s
  | .symUpZ => Sys2Proof.Machine.execSymUpZ s
  | .symLoA => Sys2Proof.Machine.execSymLoA s
  | .symLoB => Sys2Proof.Machine.execSymLoB s
  | .symLoC => Sys2Proof.Machine.execSymLoC s
  | .symLoD => Sys2Proof.Machine.execSymLoD s
  | .symLoE => Sys2Proof.Machine.execSymLoE s
  | .symLoF => Sys2Proof.Machine.execSymLoF s
  | .symLoG => Sys2Proof.Machine.execSymLoG s
  | .symLoH => Sys2Proof.Machine.execSymLoH s
  | .symLoI => Sys2Proof.Machine.execSymLoI s
  | .symLoJ => Sys2Proof.Machine.execSymLoJ s
  | .symLoK => Sys2Proof.Machine.execSymLoK s
  | .symLoL => Sys2Proof.Machine.execSymLoL s
  | .symLoM => Sys2Proof.Machine.execSymLoM s
  | .symLoN => Sys2Proof.Machine.execSymLoN s
  | .symLoO => Sys2Proof.Machine.execSymLoO s
  | .symLoP => Sys2Proof.Machine.execSymLoP s
  | .symLoQ => Sys2Proof.Machine.execSymLoQ s
  | .symLoR => Sys2Proof.Machine.execSymLoR s
  | .symLoS => Sys2Proof.Machine.execSymLoS s
  | .symLoT => Sys2Proof.Machine.execSymLoT s
  | .symLoU => Sys2Proof.Machine.execSymLoU s
  | .symLoV => Sys2Proof.Machine.execSymLoV s
  | .symLoW => Sys2Proof.Machine.execSymLoW s
  | .symLoX => Sys2Proof.Machine.execSymLoX s
  | .symLoY => Sys2Proof.Machine.execSymLoY s
  | .symLoZ => Sys2Proof.Machine.execSymLoZ s
  | .padEq p => Sys2Proof.Machine.execPadEq p s
  | .g4 c0 c1 c2 c3 => Sys2Proof.Machine.execG4 c0 c1 c2 c3 s
  | .g3 c0 c1 c2 => Sys2Proof.Machine.execG3 c0 c1 c2 s
  | .g2 c0 c1 => Sys2Proof.Machine.execG2 c0 c1 s
  | .g1 c0 => Sys2Proof.Machine.execG1 c0 s

end Sys2Proof.Machine
end

