-- ==== Sys2Proof/Machine/Sequencer.lean ====
section
/-! DEFINITION. What one step of the machine does: the caller's next move, or the running decoders' (10_state.md R7;
log 1, log 7, log 8). -/

namespace Sys2Proof.Machine

/-- The agents on their own. One running decoder takes its step (R56, R85); of two, the free value says which (log 7); with
none running nothing changes (log 8). -/
def autoStep (s : State) : Out :=
  if s.vseq.status = .run ∧ s.sseq.status = .run then
    agentStep (Config.freeTurn s.turns) { s with turns := s.turns + 1 }
  else if s.vseq.status = .run then vdecStep s
  else if s.sseq.status = .run then sdecStep s
  else .next s

/-- A presented word that decodes to no instruction: `g_len` = 0 answers with no bytes (43_vector_group.md R83), a byte
outside the alphabet raises the error of 30_encoding.md R36 as S.MAP does (log 14), everything else is refused by name. -/
def rejectWord (e : DecodeError) (s : State) : Out :=
  match e with
  | .emptyGroup => .next (s.answer (.port (groupPort [])))
  | .reservedGroupLength _ => .refused .reservedGroupLength
  | .invalidByte b => mapByte b s
  | .emptyWord => .refused (.undecodable .emptyWord)
  | .unnamedOpnum k => .refused (.undecodable (.unnamedOpnum k))
  | .notAKey b => .refused (.undecodable (.notAKey b))
  | .missingOperand => .refused (.undecodable .missingOperand)
  | .extraOperand => .refused (.undecodable .extraOperand)
  | .reservedOperand => .refused (.undecodable .reservedOperand)

/-- A presented word: its instruction, or its rejection. -/
def runWord (w : FetchWord) (s : State) : Out :=
  match decode w with
  | .ok i => exec i s
  | .error e => rejectWord e s

/-- One move of the caller. -/
def serve (e : Stimulus) (s : State) : Out :=
  match e with
  | .quiet => autoStep s
  | .rst a => .next (s.resetAgent a)
  | .supply o bs => supplyBuffer o bs s
  | .word w => runWord w s

/-- The caller's next move is taken from the inbox and served; with none left the agents move on their own. -/
def nextMove (s : State) : Out :=
  match s.inbox with
  | [] => autoStep s
  | e :: rest => serve e { s with inbox := rest }

/-- The word, presented as the caller's next move. -/
def State.present (s : State) (w : FetchWord) : State := { s with inbox := .word w :: s.inbox }

end Sys2Proof.Machine
end

