-- ==== Sys2Proof/Safety.lean ====
section
/-! DEFINITION. What the claims call a good state and a safe run, and the spec's own closed forms the claims compare the
machine with (30_encoding.md R33, R34, R36; 40_shared_preprocessing.md R47, R50; 44_vector_message.md R85). -/

namespace Sys2Proof.Machine

/-! ## Good states -/

/-- What holds of a sequencer in every state a call can reach (10_state.md R8 to R11; 40_shared_preprocessing.md R47). -/
structure SeqInv (q : Seq) : Prop where
  /-- A running call holds its IN, of length `n`, and its OUT. -/
  running : q.status = .run → q.n = q.inp.length ∧ q.bodyEnd = stripEnd q.inp q.n ∧ ∃ o, q.out = some o
  /-- "the core never retains references beyond the call" (R9; 70_reset_and_hazards.md R108). -/
  released : q.status ≠ .run → q.inp = [] ∧ q.out = none
  /-- `end` is `n`, `n - 1` or `n - 2`. -/
  stripped : q.bodyEnd ≤ q.n ∧ q.n ≤ q.bodyEnd + 2
  /-- `pos` is a multiple of 4. -/
  aligned : q.pos % 4 = 0
  /-- `pos ≤ end + 3`. -/
  bounded : q.pos ≤ q.bodyEnd + 3
  /-- `err` is 1 iff the call ended with InvalidByte. -/
  sticky : q.err = true ↔ q.status = .err
  /-- A call is done only at the end of the body. -/
  ended : q.status = .done → q.bodyEnd ≤ q.pos

/-- A good state: both sequencers good, no buffer shared by two calls in flight (20_memory.md R28), buffers in canonical
form (log 4), and a loaded group of at most 4 characters. -/
structure GoodState (s : State) : Prop where
  vector : SeqInv s.vseq
  scalar : SeqInv s.sseq
  distinct : s.vseq.status = .run → s.sseq.status = .run → s.vseq.out ≠ s.sseq.out
  canonical : s.bufs.wf = true
  loaded : s.vdp.gLen ≤ 4

/-- A safe step: no access the spec says does not exist. -/
def SafeStep (s : State) : Prop := ∀ f : Fault, step s ≠ .fault f

/-- A bounded build with `LEN_W` = `w` accepts a call on `n` bytes (10_state.md R11; D14). -/
def FitsLenW (w n : Nat) : Prop := n + 3 < 2 ^ w

/-- Agent `a` may be started on buffer `o` (40_shared_preprocessing.md R46; 20_memory.md R28). -/
def MayStart (a : AgentId) (o : BufId) (s : State) : Prop :=
  (s.seq a).status ≠ .run ∧ s.inFlight (other a) o = false

/-- What is not agent `a`'s own is as before: the other agent's registers, the verdict, the returned value, the caller's
moves and the free value's counter. The agent's own are its sequencer, its output port, VDEC's lane vectors, SDEC's `acc`
and `err_byte` (10_state.md R10, R14, R15). -/
structure SameOutside (a : AgentId) (s t : State) : Prop where
  sequencer : t.seq (other a) = s.seq (other a)
  port : t.port (other a) = s.port (other a)
  lanes : a = .sdec → t.vdp = s.vdp
  accumulator : a = .vdec → t.acc = s.acc ∧ t.errByte = s.errByte
  verdict : t.verdict = s.verdict
  ret : t.ret = s.ret
  inbox : t.inbox = s.inbox
  turns : t.turns = s.turns

/-- What a row of agent `a` that stands alone leaves as it was: both sequencers and `err_byte` (10_state.md R10, R12;
60_exceptions.md R99), and everything that is not the agent's own. What it may change besides buffers and the returned value
is the agent's output port and its working registers, VDEC's lane vectors and SDEC's `acc`. -/
structure RowFrame (a : AgentId) (s t : State) : Prop where
  sequencers : ∀ c, t.seq c = s.seq c
  errByte : t.errByte = s.errByte
  port : t.port (other a) = s.port (other a)
  lanes : a = .sdec → t.vdp = s.vdp
  accumulator : a = .vdec → t.acc = s.acc
  verdict : t.verdict = s.verdict
  inbox : t.inbox = s.inbox
  turns : t.turns = s.turns

/-- Every buffer but `k` holds what it held. -/
def OnlyBuffer (k : Nat) (s t : State) : Prop := ∀ j, j ≠ k → t.bufs.read j = s.bufs.read j

/-- What an output port shows of an append: `out_n` is how many bytes, byte `k` of `out_bytes` is byte `k` of them
(44_vector_message.md R88), and the bits above are 0 (log 20). -/
def OutShows (bs : List Byte) (p : OutPort) : Prop :=
  p.num.toNat = bs.length ∧ (∀ k, k < bs.length → bs[k]? = some (p.bytes.extractLsb' (8 * k) 8)) ∧
    p.bytes.toNat < 2 ^ (8 * bs.length)

/-- Agent `a` appended `bs` to buffer `o`, no other buffer changed, and its output port shows the append (20_memory.md R24;
44_vector_message.md R88; log 20). -/
structure Appended (a : AgentId) (o : BufId) (bs : List Byte) (s t : State) : Prop where
  grown : t.bufs.read o.toNat = s.bufs.read o.toNat ++ bs
  others : OnlyBuffer o.toNat s t
  port : OutShows bs (t.port a)

/-- From buffers `m` to `m'` and from buffers `l` to `l'`, every buffer grew at its end by one and the same bytes. -/
def SameAppends (m m' l l' : Memory) : Prop := ∀ k, ∃ bs, m'.read k = m.read k ++ bs ∧ l'.read k = l.read k ++ bs

/-- What `f` does does not depend on what the buffers hold: given other contents it answers the same stop, or a next state
that differs in the buffers alone, and it appends the same bytes to each ("decoders never read it", 10_state.md R9). -/
def IgnoresBuffers (f : State → Out) : Prop :=
  ∀ (s : State) (m : Memory), s.bufs.wf = true → m.wf = true →
    (∀ t, f s = .next t →
      ∃ m', m'.wf = true ∧ SameAppends s.bufs t.bufs m m' ∧ f { s with bufs := m } = .next { t with bufs := m' }) ∧
    (∀ r, f s = .refused r → f { s with bufs := m } = .refused r) ∧
    ∀ e, f s = .fault e → f { s with bufs := m } = .fault e

/-- A row of agent `a` that stands alone raised `InvalidByte`: it answers that, with the byte where it names one, appends
nothing, and its port shows no append (60_exceptions.md R98; log 10, log 20). -/
structure RowRaised (a : AgentId) (b : Option Byte) (s t : State) : Prop where
  kept : t.bufs = s.bufs
  ret : t.ret = .invalidByte b
  port : OutShows [] (t.port a)

/-- What is left of a call: a bound on the steps it still takes, 0 when it is over (44_vector_message.md R86). -/
def Seq.work (q : Seq) : Nat := if q.status = .run then q.bodyEnd + 4 - q.pos else 0

/-! ## The spec's closed forms -/

/-- The sextet of a byte as a number, 0 for a byte that has none (R34). -/
def sextetNat (b : Byte) : Nat :=
  if 0x41 ≤ b.toNat ∧ b.toNat ≤ 0x5A then b.toNat - 65
  else if 0x61 ≤ b.toNat ∧ b.toNat ≤ 0x7A then b.toNat - 71
  else if 0x30 ≤ b.toNat ∧ b.toNat ≤ 0x39 then b.toNat + 4
  else if b.toNat = 0x2B then 62
  else if b.toNat = 0x2F then 63
  else 0

/-- `T = s0·2^18 + s1·2^12 + s2·2^6 + s3`, missing sextets 0 (R33). -/
def groupValue (g : List Byte) : Nat :=
  (g.map sextetNat).getD 0 0 * 2 ^ 18 + (g.map sextetNat).getD 1 0 * 2 ^ 12 +
    (g.map sextetNat).getD 2 0 * 2 ^ 6 + (g.map sextetNat).getD 3 0

/-- `take(N(L), [T[23:16], T[15:8], T[7:0]])` (R33). -/
def groupBytes (g : List Byte) : List Byte :=
  [BitVec.ofNat 8 (groupValue g / 2 ^ 16), BitVec.ofNat 8 (groupValue g / 2 ^ 8), BitVec.ofNat 8 (groupValue g)].take
    (nBytes g.length)

/-- The body of an input: what is left when trailing padding is stripped (R47), written on the text itself. -/
def bodyOf (inp : List Byte) : List Byte :=
  match inp.reverse with
  | a :: b :: rest =>
    if a = padChar then (if b = padChar then rest.reverse else (b :: rest).reverse) else inp
  | [a] => if a = padChar then [] else inp
  | [] => []

/-- The groups of a body: "consecutive groups of up to 4 bytes, preserving order, last group possibly shorter" (R49). -/
def groupsOf : List Byte → List (List Byte)
  | a :: b :: c :: d :: rest => [a, b, c, d] :: groupsOf rest
  | [] => []
  | short => [short]

/-- The groups before the first one that holds an invalid byte. -/
def goodGroups (gs : List (List Byte)) : List (List Byte) := gs.takeWhile fun g => g.all valid

/-- What a call on `inp` appends (41_scalar_reference.md R56, 44_vector_message.md R85). -/
def callBytes (inp : List Byte) : List Byte := (goodGroups (groupsOf (bodyOf inp))).flatMap groupBytes

/-! ## The rows of the table by agent, and the symbol table -/

/-- The operation that is a whole call of an agent (41_scalar_reference.md R56, 44_vector_message.md R85). -/
def callInstr (a : AgentId) (o : BufId) (inp : List Byte) : Instr :=
  match a with
  | .vdec => .decodeV o inp
  | .sdec => .decodeS o inp

/-- Both decoders accept `inp` and append `out`, whatever the buffer held. -/
def Decodes (inp out : List Byte) : Prop :=
  ∀ (a : AgentId) (o : BufId) (s : State), MayStart a o s →
    ∃ t, exec (callInstr a o inp) s = .next t ∧ t.result a = some .ok ∧
      t.bufs.read o.toNat = s.bufs.read o.toNat ++ out

/-- Both decoders reject `inp` after appending `out`; SDEC names the byte `b`, VDEC names none (60_exceptions.md R98). -/
def Rejects (inp out : List Byte) (b : Byte) : Prop :=
  ∀ (a : AgentId) (o : BufId) (s : State), MayStart a o s →
    ∃ t, exec (callInstr a o inp) s = .next t ∧
      t.result a = some (.err (match a with | .vdec => none | .sdec => some b)) ∧
      t.bufs.read o.toNat = s.bufs.read o.toNat ++ out

/-- When a well-formed row runs: a call may be started (R46, R28), a group is left (R49), the buffer an append goes to is in
no call's use (R28; log 21). Every other row always runs. -/
structure Admitted (i : Instr) (s : State) : Prop where
  start : ∀ a o inp, i = .start a o inp → MayStart a o s
  call : ∀ a o inp, i = callInstr a o inp → MayStart a o s
  part : ∀ inp pos bodyEnd, i = .part inp pos bodyEnd → pos < bodyEnd
  emit : ∀ len o, i = .sEmit len o → s.inUse o = false
  append : ∀ o, i = .vappend o → s.vdp.isOk = true → s.inUse o = false
  scalar : ∀ o g, i = .groupS g o → g.all valid = true → s.inUse o = false
  vector : ∀ o g, i = .groupV g o → g.all valid = true → s.inUse o = false

/-- The caller's next move clears the error of agent `a`: a reset, a START or a whole call (10_state.md R12). -/
def ClearsError (a : AgentId) (s : State) : Prop :=
  s.inbox.head? = some (.rst a) ∨
    ∃ w o inp, s.inbox.head? = some (.word w) ∧ (decode w = .ok (.start a o inp) ∨ decode w = .ok (callInstr a o inp))

/-- The group-port row of a group (30_encoding.md R32). -/
def groupRow : List Byte → Option Instr
  | [c0, c1, c2, c3] => some (.g4 c0 c1 c2 c3)
  | [c0, c1, c2] => some (.g3 c0 c1 c2)
  | [c0, c1] => some (.g2 c0 c1)
  | [c0] => some (.g1 c0)
  | [] => none
  | _ :: _ :: _ :: _ :: _ :: _ => none

/-- The agent whose registers or port a row may write; none for a row that only returns a value or a verdict. -/
def agentOfInstr : Instr → Option AgentId
  | .start a _ _ => some a
  | .strip _ => none
  | .part _ _ _ => none
  | .nbytes _ => none
  | .sMap _ => none
  | .sFold _ => some .sdec
  | .sAlign _ => some .sdec
  | .sEmit _ _ => some .sdec
  | .groupS _ _ => some .sdec
  | .decodeS _ _ => some .sdec
  | .pSrl8 _ _ => none
  | .pCmpeq8 _ _ => none
  | .pAdd8 _ _ => none
  | .pShuffle8 _ _ => none
  | .pInrange8 _ => none
  | .pAndr _ => none
  | .pZext16 _ => none
  | .pSllv16 _ _ => none
  | .pLo8 _ => none
  | .pHi8 _ => none
  | .pRotl1 _ => none
  | .pOr8 _ _ => none
  | .pGather8 _ _ => none
  | .vload _ => some .vdec
  | .vhash => some .vdec
  | .vvalid => some .vdec
  | .vlookup => some .vdec
  | .vsext => some .vdec
  | .vwiden => some .vdec
  | .vsplit => some .vdec
  | .vrot => some .vdec
  | .vmerge => some .vdec
  | .vcompact => some .vdec
  | .vappend _ => some .vdec
  | .groupV _ _ => some .vdec
  | .decodeV _ _ => some .vdec
  | .checkEq _ => none
  | .symPlus => none
  | .symSlash => none
  | .sym0 => none
  | .sym1 => none
  | .sym2 => none
  | .sym3 => none
  | .sym4 => none
  | .sym5 => none
  | .sym6 => none
  | .sym7 => none
  | .sym8 => none
  | .sym9 => none
  | .symUpA => none
  | .symUpB => none
  | .symUpC => none
  | .symUpD => none
  | .symUpE => none
  | .symUpF => none
  | .symUpG => none
  | .symUpH => none
  | .symUpI => none
  | .symUpJ => none
  | .symUpK => none
  | .symUpL => none
  | .symUpM => none
  | .symUpN => none
  | .symUpO => none
  | .symUpP => none
  | .symUpQ => none
  | .symUpR => none
  | .symUpS => none
  | .symUpT => none
  | .symUpU => none
  | .symUpV => none
  | .symUpW => none
  | .symUpX => none
  | .symUpY => none
  | .symUpZ => none
  | .symLoA => none
  | .symLoB => none
  | .symLoC => none
  | .symLoD => none
  | .symLoE => none
  | .symLoF => none
  | .symLoG => none
  | .symLoH => none
  | .symLoI => none
  | .symLoJ => none
  | .symLoK => none
  | .symLoL => none
  | .symLoM => none
  | .symLoN => none
  | .symLoO => none
  | .symLoP => none
  | .symLoQ => none
  | .symLoR => none
  | .symLoS => none
  | .symLoT => none
  | .symLoU => none
  | .symLoV => none
  | .symLoW => none
  | .symLoX => none
  | .symLoY => none
  | .symLoZ => none
  | .padEq _ => none
  | .g4 _ _ _ _ => none
  | .g3 _ _ _ => none
  | .g2 _ _ => none
  | .g1 _ => none

/-- The buffer a row may append to; none for a row that appends nothing (20_memory.md R20, R24). -/
def outOfRow : Instr → Option BufId
  | .start _ _ _ => none
  | .strip _ => none
  | .part _ _ _ => none
  | .nbytes _ => none
  | .sMap _ => none
  | .sFold _ => none
  | .sAlign _ => none
  | .sEmit _ o => some o
  | .groupS _ o => some o
  | .decodeS o _ => some o
  | .pSrl8 _ _ => none
  | .pCmpeq8 _ _ => none
  | .pAdd8 _ _ => none
  | .pShuffle8 _ _ => none
  | .pInrange8 _ => none
  | .pAndr _ => none
  | .pZext16 _ => none
  | .pSllv16 _ _ => none
  | .pLo8 _ => none
  | .pHi8 _ => none
  | .pRotl1 _ => none
  | .pOr8 _ _ => none
  | .pGather8 _ _ => none
  | .vload _ => none
  | .vhash => none
  | .vvalid => none
  | .vlookup => none
  | .vsext => none
  | .vwiden => none
  | .vsplit => none
  | .vrot => none
  | .vmerge => none
  | .vcompact => none
  | .vappend o => some o
  | .groupV _ o => some o
  | .decodeV o _ => some o
  | .checkEq _ => none
  | .symPlus => none
  | .symSlash => none
  | .sym0 => none
  | .sym1 => none
  | .sym2 => none
  | .sym3 => none
  | .sym4 => none
  | .sym5 => none
  | .sym6 => none
  | .sym7 => none
  | .sym8 => none
  | .sym9 => none
  | .symUpA => none
  | .symUpB => none
  | .symUpC => none
  | .symUpD => none
  | .symUpE => none
  | .symUpF => none
  | .symUpG => none
  | .symUpH => none
  | .symUpI => none
  | .symUpJ => none
  | .symUpK => none
  | .symUpL => none
  | .symUpM => none
  | .symUpN => none
  | .symUpO => none
  | .symUpP => none
  | .symUpQ => none
  | .symUpR => none
  | .symUpS => none
  | .symUpT => none
  | .symUpU => none
  | .symUpV => none
  | .symUpW => none
  | .symUpX => none
  | .symUpY => none
  | .symUpZ => none
  | .symLoA => none
  | .symLoB => none
  | .symLoC => none
  | .symLoD => none
  | .symLoE => none
  | .symLoF => none
  | .symLoG => none
  | .symLoH => none
  | .symLoI => none
  | .symLoJ => none
  | .symLoK => none
  | .symLoL => none
  | .symLoM => none
  | .symLoN => none
  | .symLoO => none
  | .symLoP => none
  | .symLoQ => none
  | .symLoR => none
  | .symLoS => none
  | .symLoT => none
  | .symLoU => none
  | .symLoV => none
  | .symLoW => none
  | .symLoX => none
  | .symLoY => none
  | .symLoZ => none
  | .padEq _ => none
  | .g4 _ _ _ _ => none
  | .g3 _ _ _ => none
  | .g2 _ _ => none
  | .g1 _ => none

/-- The rows of the alphabet table (30_encoding.md R34): symbol, byte, sextet, hash, offset as stored. -/
structure SymbolRow where
  instr : Instr
  byte : Byte
  sextet : Sextet
  hash : Byte
  offset : Byte
  deriving DecidableEq, Repr

/-- R34, punctuation and digits. -/
def symbolTable0 : List SymbolRow :=
  [⟨.symPlus, 0x2B, 62, 2, 0x13⟩,
   ⟨.symSlash, 0x2F, 63, 1, 0x10⟩,
   ⟨.sym0, 0x30, 52, 3, 0x04⟩,
   ⟨.sym1, 0x31, 53, 3, 0x04⟩,
   ⟨.sym2, 0x32, 54, 3, 0x04⟩,
   ⟨.sym3, 0x33, 55, 3, 0x04⟩,
   ⟨.sym4, 0x34, 56, 3, 0x04⟩,
   ⟨.sym5, 0x35, 57, 3, 0x04⟩,
   ⟨.sym6, 0x36, 58, 3, 0x04⟩,
   ⟨.sym7, 0x37, 59, 3, 0x04⟩,
   ⟨.sym8, 0x38, 60, 3, 0x04⟩,
   ⟨.sym9, 0x39, 61, 3, 0x04⟩]

/-- R34, A to M. -/
def symbolTable1 : List SymbolRow :=
  [⟨.symUpA, 0x41, 0, 4, 0xBF⟩,
   ⟨.symUpB, 0x42, 1, 4, 0xBF⟩,
   ⟨.symUpC, 0x43, 2, 4, 0xBF⟩,
   ⟨.symUpD, 0x44, 3, 4, 0xBF⟩,
   ⟨.symUpE, 0x45, 4, 4, 0xBF⟩,
   ⟨.symUpF, 0x46, 5, 4, 0xBF⟩,
   ⟨.symUpG, 0x47, 6, 4, 0xBF⟩,
   ⟨.symUpH, 0x48, 7, 4, 0xBF⟩,
   ⟨.symUpI, 0x49, 8, 4, 0xBF⟩,
   ⟨.symUpJ, 0x4A, 9, 4, 0xBF⟩,
   ⟨.symUpK, 0x4B, 10, 4, 0xBF⟩,
   ⟨.symUpL, 0x4C, 11, 4, 0xBF⟩,
   ⟨.symUpM, 0x4D, 12, 4, 0xBF⟩]

/-- R34, N to Z. -/
def symbolTable2 : List SymbolRow :=
  [⟨.symUpN, 0x4E, 13, 4, 0xBF⟩,
   ⟨.symUpO, 0x4F, 14, 4, 0xBF⟩,
   ⟨.symUpP, 0x50, 15, 5, 0xBF⟩,
   ⟨.symUpQ, 0x51, 16, 5, 0xBF⟩,
   ⟨.symUpR, 0x52, 17, 5, 0xBF⟩,
   ⟨.symUpS, 0x53, 18, 5, 0xBF⟩,
   ⟨.symUpT, 0x54, 19, 5, 0xBF⟩,
   ⟨.symUpU, 0x55, 20, 5, 0xBF⟩,
   ⟨.symUpV, 0x56, 21, 5, 0xBF⟩,
   ⟨.symUpW, 0x57, 22, 5, 0xBF⟩,
   ⟨.symUpX, 0x58, 23, 5, 0xBF⟩,
   ⟨.symUpY, 0x59, 24, 5, 0xBF⟩,
   ⟨.symUpZ, 0x5A, 25, 5, 0xBF⟩]

/-- R34, a to m. -/
def symbolTable3 : List SymbolRow :=
  [⟨.symLoA, 0x61, 26, 6, 0xB9⟩,
   ⟨.symLoB, 0x62, 27, 6, 0xB9⟩,
   ⟨.symLoC, 0x63, 28, 6, 0xB9⟩,
   ⟨.symLoD, 0x64, 29, 6, 0xB9⟩,
   ⟨.symLoE, 0x65, 30, 6, 0xB9⟩,
   ⟨.symLoF, 0x66, 31, 6, 0xB9⟩,
   ⟨.symLoG, 0x67, 32, 6, 0xB9⟩,
   ⟨.symLoH, 0x68, 33, 6, 0xB9⟩,
   ⟨.symLoI, 0x69, 34, 6, 0xB9⟩,
   ⟨.symLoJ, 0x6A, 35, 6, 0xB9⟩,
   ⟨.symLoK, 0x6B, 36, 6, 0xB9⟩,
   ⟨.symLoL, 0x6C, 37, 6, 0xB9⟩,
   ⟨.symLoM, 0x6D, 38, 6, 0xB9⟩]

/-- R34, n to z. -/
def symbolTable4 : List SymbolRow :=
  [⟨.symLoN, 0x6E, 39, 6, 0xB9⟩,
   ⟨.symLoO, 0x6F, 40, 6, 0xB9⟩,
   ⟨.symLoP, 0x70, 41, 7, 0xB9⟩,
   ⟨.symLoQ, 0x71, 42, 7, 0xB9⟩,
   ⟨.symLoR, 0x72, 43, 7, 0xB9⟩,
   ⟨.symLoS, 0x73, 44, 7, 0xB9⟩,
   ⟨.symLoT, 0x74, 45, 7, 0xB9⟩,
   ⟨.symLoU, 0x75, 46, 7, 0xB9⟩,
   ⟨.symLoV, 0x76, 47, 7, 0xB9⟩,
   ⟨.symLoW, 0x77, 48, 7, 0xB9⟩,
   ⟨.symLoX, 0x78, 49, 7, 0xB9⟩,
   ⟨.symLoY, 0x79, 50, 7, 0xB9⟩,
   ⟨.symLoZ, 0x7A, 51, 7, 0xB9⟩]

/-- R34, all 64 rows. -/
def symbolTable : List SymbolRow :=
  symbolTable0 ++ symbolTable1 ++ symbolTable2 ++ symbolTable3 ++ symbolTable4

/-- What the group port shows of a valid group (43_vector_group.md R83): `g_ok`, `g_n` = `N(L)`, the bytes of R33 in
bits `[8k+7 : 8k]` for `k < g_n`, and 0 above. -/
def PortShows (g : List Byte) (p : GroupPort) : Prop :=
  p.ok = true ∧ p.num.toNat = nBytes g.length ∧
    (∀ k, k < nBytes g.length → (groupBytes g)[k]? = some (p.bytes.extractLsb' (8 * k) 8)) ∧
    p.bytes.toNat < 2 ^ (8 * nBytes g.length)

end Sys2Proof.Machine
end

