-- ==== Sys2Proof/Certificates/Slice0/Obligations.lean ====
section
/-! DEFINITION. The statements about the model. Each docstring says which rules of spec/ it formalises and which log
entries it rests on. -/

section Statements

open Sys2Proof Sys2Proof.Machine

/-- O1. State.reset has, for VDEC and for SDEC, status IDLE, err 0, pos 0, end 0, n 0, no IN and no OUT, and no buffer of
the caller holds a byte. The values of status, err, pos, end and n are decision D16 of the spec; that an idle agent
holds no IN and no OUT is log 5 and the last clause is log 4, the model's choices. (70_reset_and_hazards.md R107;
10_state.md R10) -/
def Obligations.ResetLeavesBothAgentsIdle : Prop :=
  (∀ a : AgentId, (State.reset.seq a).status = .idle ∧ (State.reset.seq a).err = false ∧ (State.reset.seq a).pos = 0 ∧
    (State.reset.seq a).bodyEnd = 0 ∧ (State.reset.seq a).n = 0 ∧ (State.reset.seq a).inp = [] ∧
    (State.reset.seq a).out = none) ∧
  ∀ k : Nat, State.reset.bufs.read k = []

/-- O2. Read as signed 8-bit values, LUT lane 0 first is 0, 16, 19, 4, -65, -65, -71, -71; its stored bytes are 00 10 13
04 BF BF B9 B9; lane i of SHIFTS is 2*((i mod 4)+1). (R37; R38) -/
def Obligations.ConstantsAreAsWired : Prop :=
  LUT.toList.map BitVec.toInt = [0, 16, 19, 4, -65, -65, -71, -71] ∧
  LUT.toList = [0x00, 0x10, 0x13, 0x04, 0xBF, 0xBF, 0xB9, 0xB9] ∧
  ∀ i : Fin 8, (SHIFTS.get i).toNat = 2 * (i.val % 4 + 1)

/-- O3. When the caller's next move is a reset of agent a, the step answers a next state in which that agent is IDLE with
err, pos, end and n 0, holds no IN and no OUT any more (log 5), and shows no append on its port (log 20); every
buffer, the other agent, the verdict and the returned value are as before. That the move comes from the inbox is the
model's choice (log 1). (70_reset_and_hazards.md R107, R108) -/
def Obligations.AgentResetAbandonsTheCall : Prop :=
  ∀ (a : AgentId) (s : State) (rest : List Stimulus), s.inbox = .rst a :: rest →
    ∃ t, step s = .next t ∧ SameOutside a { s with inbox := rest } t ∧ t.bufs = s.bufs ∧
      t.seq a = { inp := [], out := none, n := 0, bodyEnd := 0, pos := 0, status := .idle, err := false } ∧
      OutShows [] (t.port a)

/-- O4. When the caller's next move hands over buffer o with contents bs and no call in flight uses o, the step answers a
next state in which o reads bs, every other buffer reads as before and nothing else changed but the inbox; when a
running call of either agent uses o, the step is refused by name. The move is the model's (log 1, log 16); its refusal
extends R28 (log 21). (10_state.md R9; 70_reset_and_hazards.md R108; 20_memory.md R28) -/
def Obligations.SupplyHandsOverOneBuffer : Prop :=
  ∀ (o : BufId) (bs : List Byte) (s : State) (rest : List Stimulus), s.inbox = .supply o bs :: rest → s.bufs.wf = true →
    ((∀ a, s.inFlight a o = false) →
      ∃ m : Memory, step s = .next { s with inbox := rest, bufs := m } ∧ m.wf = true ∧ m.read o.toNat = bs ∧
        ∀ k, k ≠ o.toNat → m.read k = s.bufs.read k) ∧
    ((∃ a, s.inFlight a o = true) → step s = .refused .sharedOutput)

/-- O5. On an agent that is not running, with a buffer no other call in flight uses, START(IN, OUT) answers exactly the
state in which that agent's sequencer has IN, OUT, n = |IN|, end = the length of the body, pos = 0, err = 0, status
RUN and no append on its port (log 20). No buffer, no working register and nothing of the other agent changes.
(40_shared_preprocessing.md R46; 10_state.md R19) -/
def Obligations.StartBeginsACall : Prop :=
  ∀ (a : AgentId) (o : BufId) (inp : List Byte) (s : State), MayStart a o s →
    exec (.start a o inp) s = .next ((s.setSeq a
      { inp := inp, out := some o, n := inp.length, bodyEnd := (bodyOf inp).length, pos := 0, status := .run,
        err := false }).setPort a ⟨0, 0⟩)

/-- O6. START and a whole call on an agent whose status is RUN are refused as startWhileRunning; on an agent that is not
running, with a buffer the other agent's running call uses, they are refused as sharedOutput. A row standing alone
that would append to a buffer a running call of either agent uses (S.EMIT, VAPPEND with is_ok 1, a valid group by
GROUP.S or GROUP.V) is refused as sharedOutput too; that last clause is the model's extension (log 21).
(40_shared_preprocessing.md R46; 20_memory.md R28; 93_implementation_defined.md U3, U9) -/
def Obligations.RunningAgentsAndSharedBuffersAreRefused : Prop :=
  (∀ (a : AgentId) (o : BufId) (inp : List Byte) (s : State),
    ((s.seq a).status = .run →
      exec (.start a o inp) s = .refused .startWhileRunning ∧ exec (callInstr a o inp) s = .refused .startWhileRunning) ∧
    ((s.seq a).status ≠ .run → s.inFlight (other a) o = true →
      exec (.start a o inp) s = .refused .sharedOutput ∧ exec (callInstr a o inp) s = .refused .sharedOutput)) ∧
  ∀ (o : BufId) (s : State), s.inUse o = true →
    (∀ len, 1 ≤ len → len ≤ 4 → exec (.sEmit len o) s = .refused .sharedOutput) ∧
    (s.vdp.isOk = true → exec (.vappend o) s = .refused .sharedOutput) ∧
    ∀ g : List Byte, 1 ≤ g.length → g.length ≤ 4 → g.all valid = true →
      exec (.groupS g o) s = .refused .sharedOutput ∧ exec (.groupV g o) s = .refused .sharedOutput

/-- O7. STRIP(IN, n) answers the same state with a value e returned (log 9), for which: if IN ends with == then e = n-2;
else if it ends with = then e = n-1; else e = n. A row standing alone belongs to no call and returns e (log 10); in a
call START writes e to end. (40_shared_preprocessing.md R46, R47) -/
def Obligations.StripDropsTrailingPadding : Prop :=
  ∀ (inp : List Byte) (s : State),
    ∃ e, exec (.strip inp) s = .next (s.answer (.bodyEnd e)) ∧
      (∀ body, inp = body ++ [0x3D, 0x3D] → e = body.length) ∧
      (∀ body, inp = body ++ [0x3D] → body.getLast? ≠ some 0x3D → e = body.length) ∧
      (inp.getLast? ≠ some 0x3D → e = inp.length) ∧
      ∀ (a : AgentId) (o : BufId), MayStart a o s → ∃ t, exec (.start a o inp) s = .next t ∧ (t.seq a).bodyEnd = e

/-- O8. With pos < end and end within IN, PART(IN, pos, end) returns the group g = IN[pos..pos+L), L = min(4, end-pos),
and its length, and changes nothing else; g is the first group of IN[pos..end) cut into consecutive groups of up to 4.
With pos >= end it is refused as partAtEnd, and an end beyond IN, which no body has, is refused as illFormedLength
(log 21). The returned pair stands in the latch of log 9. (40_shared_preprocessing.md R49; 20_memory.md R23) -/
def Obligations.PartTakesTheNextGroup : Prop :=
  ∀ (inp : List Byte) (pos bodyEnd : Nat) (s : State),
    (pos < bodyEnd → bodyEnd ≤ inp.length →
      ∃ g, exec (.part inp pos bodyEnd) s = .next (s.answer (.group g g.length)) ∧ g.length = min 4 (bodyEnd - pos) ∧
        g = (inp.drop pos).take g.length ∧ (groupsOf ((inp.take bodyEnd).drop pos)).head? = some g) ∧
    (bodyEnd ≤ pos → bodyEnd ≤ inp.length → exec (.part inp pos bodyEnd) s = .refused .partAtEnd) ∧
    (inp.length < bodyEnd → exec (.part inp pos bodyEnd) s = .refused .illFormedLength)

/-- O9. NBYTES(1), NBYTES(2), NBYTES(3), NBYTES(4) answer the same state with the value 1, 1, 2, 3 in the return latch
(log 9), which is L - L/2 + L/4. (40_shared_preprocessing.md R50) -/
def Obligations.NbytesIsOneOneTwoThree : Prop :=
  ∀ s : State,
    exec (.nbytes 1) s = .next (s.answer (.count 1)) ∧ exec (.nbytes 2) s = .next (s.answer (.count 1)) ∧
    exec (.nbytes 3) s = .next (s.answer (.count 2)) ∧ exec (.nbytes 4) s = .next (s.answer (.count 3)) ∧
    ∀ len, 1 ≤ len → len ≤ 4 → exec (.nbytes len) s = .next (s.answer (.count (len - len / 2 + len / 4)))

/-- O10. Every instruction term the spec does not have (a length L outside 1 to 4, a group of 0 or more than 4 bytes, an
end beyond IN) is refused as illFormedLength, whatever the state. The refusal is the model's (log 21).
(40_shared_preprocessing.md R49, R50; 41_scalar_reference.md R53; 30_encoding.md R32) -/
def Obligations.IllFormedRowsAreRefused : Prop :=
  ∀ (i : Instr) (s : State), WellFormed i = false → exec i s = .refused .illFormedLength

/-- O11. For a valid byte S.MAP answers the same state with the byte's sextet returned (log 9). For an invalid byte b it
answers the same state with InvalidByte(b) returned: a row standing alone belongs to no call, so it writes no flag and
no status (log 10). (41_scalar_reference.md R51; 60_exceptions.md R98) -/
def Obligations.MapGivesSextetOrRaises : Prop :=
  ∀ (b : Byte) (s : State),
    (valid b = true → exec (.sMap b) s = .next (s.answer (.sextet (BitVec.ofNat 6 (sextetNat b))))) ∧
    (valid b = false → exec (.sMap b) s = .next (s.answer (.invalidByte (some b))))

/-- O12. sextet_of(b) is b-0x41, b-0x61+26, b-0x30+52, 62, 63 or none as R34 says; every sextet value is that of exactly
one byte; every row of the table of 64 has the sextet, hash and offset the model computes for its byte; every valid
byte has a row; and on the valid bytes add8(b, LUT[hash(b) mod 8]) is the same sextet. (R34; R92) -/
def Obligations.AlphabetIsABijection : Prop :=
  (∀ b : Byte, sextetOf b =
    if 0x41 ≤ b.toNat ∧ b.toNat ≤ 0x5A then some (BitVec.ofNat 6 (b.toNat - 0x41))
    else if 0x61 ≤ b.toNat ∧ b.toNat ≤ 0x7A then some (BitVec.ofNat 6 (b.toNat - 0x61 + 26))
    else if 0x30 ≤ b.toNat ∧ b.toNat ≤ 0x39 then some (BitVec.ofNat 6 (b.toNat - 0x30 + 52))
    else if b = 0x2B then some 62 else if b = 0x2F then some 63 else none) ∧
  (∀ x : Sextet, ∃! b : Byte, sextetOf b = some x) ∧
  (∀ r ∈ symbolTable, sextetOf r.byte = some r.sextet ∧ Machine.hash r.byte = r.hash ∧ offset r.byte = r.offset) ∧
  (∀ b : Byte, valid b = true → ∃ r ∈ symbolTable, r.byte = b) ∧
  (∀ b : Byte, valid b = true →
    ∃ x : Sextet, sextetOf b = some x ∧ add8 b (LUT.get (Fin.ofNat 8 ((Machine.hash b).toNat % 8))) = x.setWidth 8) ∧
  ∀ x : Sextet, ∃! b : Byte, valid b = true ∧ add8 b (LUT.get (Fin.ofNat 8 ((Machine.hash b).toNat % 8))) = x.setWidth 8

/-- O13. valid(b) is membership of the five ranges; exactly 64 of the 256 byte values are valid and 192 are not; every
call of either decoder on a body that begins with an invalid byte ends with err 1 and status ERR and appends nothing;
and GROUP.S and GROUP.V standing alone on a group that is one invalid byte answer InvalidByte, with the byte from
GROUP.S and without it from GROUP.V, and append nothing. That a row standing alone returns the error and writes no
flag, no status and no sequencer is the model's choice (log 10); its port is log 20. (30_encoding.md R36;
41_scalar_reference.md R55; 60_exceptions.md R98, R101) -/
def Obligations.EveryInvalidByteHasOneEffect : Prop :=
  (∀ b : Byte, valid b = true ↔
    (0x41 ≤ b.toNat ∧ b.toNat ≤ 0x5A) ∨ (0x61 ≤ b.toNat ∧ b.toNat ≤ 0x7A) ∨ (0x30 ≤ b.toNat ∧ b.toNat ≤ 0x39) ∨
      b.toNat = 0x2B ∨ b.toNat = 0x2F) ∧
  ((List.range 256).filter fun k => valid (BitVec.ofNat 8 k)).length = 64 ∧
  ((List.range 256).filter fun k => !valid (BitVec.ofNat 8 k)).length = 192 ∧
  (∀ (b : Byte) (inp : List Byte) (a : AgentId) (o : BufId) (s : State), valid b = false → (bodyOf inp).head? = some b →
    MayStart a o s → ∃ t, exec (callInstr a o inp) s = .next t ∧ (t.seq a).err = true ∧ (t.seq a).status = .err ∧
      ∀ k, t.bufs.read k = s.bufs.read k) ∧
  ∀ (b : Byte) (o : BufId) (s : State), valid b = false →
    (∃ t, exec (.groupS [b] o) s = .next t ∧ RowFrame .sdec s t ∧ RowRaised .sdec (some b) s t) ∧
    ∃ t, exec (.groupV [b] o) s = .next t ∧ RowFrame .vdec s t ∧ RowRaised .vdec none s t

/-- O14. S.FOLD answers the state in which only acc changed, to (acc*64 + s) mod 2^32. Folding up to four sextets into 0
gives their base-64 number, below 2^(6*L): no bit is shifted out. (R52) -/
def Obligations.FoldShiftsInASextet : Prop :=
  (∀ (x : Sextet) (s : State), exec (.sFold x) s = .next { s with acc := BitVec.ofNat 32 (s.acc.toNat * 64 + x.toNat) }) ∧
  ∀ xs : List Sextet, xs.length ≤ 4 →
    (xs.foldl fold 0).toNat = xs.foldl (fun n x => n * 64 + x.toNat) 0 ∧ (xs.foldl fold 0).toNat < 2 ^ (6 * xs.length)

/-- O15. For L = 1 to 4, S.ALIGN answers the state in which only acc changed, to acc * 2^(32-6L) mod 2^32; and where acc
is below 2^(6L) before, the value is exactly acc * 2^(32-6L), so the sextets stand in bits 31 to 32-6L and all bits
below are 0. (R53) -/
def Obligations.AlignMovesTheBitsToTheTop : Prop :=
  ∀ (len : Nat) (s : State), 1 ≤ len → len ≤ 4 →
    ∃ v : Acc, exec (.sAlign len) s = .next { s with acc := v } ∧ v.toNat = s.acc.toNat * 2 ^ (32 - 6 * len) % 2 ^ 32 ∧
      (s.acc.toNat < 2 ^ (6 * len) → v.toNat = s.acc.toNat * 2 ^ (32 - 6 * len))

/-- O16. For L = 1 to 4, when no call in flight uses OUT, S.EMIT appends to the end of OUT the first N(L) of acc[31:24],
acc[23:16], acc[15:8], acc[7:0], and SDEC's port shows them: out_n is how many, byte k of out_bytes is the k-th, and
the bits above are 0 (log 20). No other buffer, no register, no sequencer, no returned value and no other agent
changes. On a buffer in use it is refused (log 21). A row standing alone names its OUT (log 5).
(41_scalar_reference.md R54; 20_memory.md R24; 44_vector_message.md R88) -/
def Obligations.EmitAppendsTheTopBytes : Prop :=
  ∀ (len : Nat) (o : BufId) (s : State), 1 ≤ len → len ≤ 4 →
    (s.inUse o = false → ∃ t, exec (.sEmit len o) s = .next t ∧ RowFrame .sdec s t ∧ t.acc = s.acc ∧ t.ret = s.ret ∧
      Appended .sdec o (([s.acc.toNat / 2 ^ 24, s.acc.toNat / 2 ^ 16, s.acc.toNat / 2 ^ 8, s.acc.toNat].map
        (BitVec.ofNat 8)).take (len - len / 2 + len / 4)) s t) ∧
    (s.inUse o = true → exec (.sEmit len o) s = .refused .sharedOutput)

/-- O17. For a group of 1 to 4 bytes: if all are valid and no call in flight uses OUT, GROUP.S appends take(N(L), [B0, B1,
B2]) of the group's 24-bit value T to OUT, SDEC's port shows those bytes and zeros above (log 20), acc = T * 256, and
the returned value is as before; if some byte is invalid it answers InvalidByte with the first one in input order and
appends nothing. Standing alone it writes no flag, no status, no err_byte and no sequencer (log 10), names its OUT
(log 5), and nothing of the other agent changes. (41_scalar_reference.md R55; 30_encoding.md R33; 60_exceptions.md
R100; 44_vector_message.md R88) -/
def Obligations.ScalarGroupAppendsOrRaises : Prop :=
  (∀ (g : List Byte) (o : BufId) (s : State), 1 ≤ g.length → g.length ≤ 4 → g.all valid = true → s.inUse o = false →
    ∃ t, exec (.groupS g o) s = .next t ∧ RowFrame .sdec s t ∧ Appended .sdec o (groupBytes g) s t ∧
      t.acc.toNat = groupValue g * 256 ∧ t.ret = s.ret) ∧
  ∀ (pre post : List Byte) (b : Byte) (o : BufId) (s : State), (pre ++ b :: post).length ≤ 4 → pre.all valid = true →
    valid b = false →
    ∃ t, exec (.groupS (pre ++ b :: post) o) s = .next t ∧ RowFrame .sdec s t ∧ RowRaised .sdec (some b) s t

/-- O18. P.SRL8 returns floor(V[i]/2^k); P.CMPEQ8 returns 0xFF where V[i] = c and 0x00 elsewhere; P.ADD8 returns
(V[i]+W[i]) mod 256; P.OR8 returns V[i] OR W[i]; each in every lane, in the return latch (log 9), and the rest of the
state is as before. (42_lane_primitives.md R57, R58, R59, R60, R64) -/
def Obligations.NarrowPrimitivesComputeLaneByLane : Prop :=
  ∀ (v w : Lanes Byte) (k : BitVec 3) (c : Byte) (s : State),
    exec (.pSrl8 v k) s = .next (s.answer (.lanes8 (.ofFn fun i => BitVec.ofNat 8 ((v.get i).toNat / 2 ^ k.toNat)))) ∧
    exec (.pCmpeq8 v c) s = .next (s.answer (.lanes8 (.ofFn fun i => if v.get i = c then 0xFF else 0x00))) ∧
    exec (.pAdd8 v w) s = .next (s.answer (.lanes8 (.ofFn fun i => BitVec.ofNat 8 (((v.get i).toNat + (w.get i).toNat) % 256)))) ∧
    exec (.pOr8 v w) s = .next (s.answer (.lanes8 (.ofFn fun i => BitVec.ofNat 8 ((v.get i).toNat ||| (w.get i).toNat))))

/-- O19. P.SHUFFLE8 returns T[I[i] mod 8] (the modulo is decision D7); P.GATHER8 returns V[IDX[i]]; P.ROTL1 returns
V[(i+1) mod 8]; each in every lane, in the return latch (log 9), and the rest of the state is as before.
(42_lane_primitives.md R61, R69, R70) -/
def Obligations.CrossLanePrimitivesMoveLanes : Prop :=
  ∀ (v ix : Lanes Byte) (idx : Lanes (BitVec 3)) (s : State),
    exec (.pShuffle8 v ix) s = .next (s.answer (.lanes8 (.ofFn fun i => v.get (Fin.ofNat 8 ((ix.get i).toNat % 8))))) ∧
    exec (.pGather8 v idx) s = .next (s.answer (.lanes8 (.ofFn fun i => v.get (Fin.ofNat 8 (idx.get i).toNat)))) ∧
    exec (.pRotl1 v) s = .next (s.answer (.lanes8 (.ofFn fun i => v.get (Fin.ofNat 8 ((i.val + 1) % 8)))))

/-- O20. P.INRANGE8 returns in lane i whether V[i] is in one of the five ranges, which equals the hash form: hash < 8 and
LOB[hash] <= V[i] <= HIB[hash]. P.ANDR returns 1 iff every lane is 1. Both in the return latch (log 9); the rest of
the state is as before. (42_lane_primitives.md R62, R63) -/
def Obligations.RangeTestAndReduction : Prop :=
  ∀ (v : Lanes Byte) (m : Lanes Bool) (s : State),
    (∃ r : Lanes Bool, exec (.pInrange8 v) s = .next (s.answer (.mask r)) ∧
      ∀ i, (r.get i = true ↔
        (0x41 ≤ (v.get i).toNat ∧ (v.get i).toNat ≤ 0x5A) ∨ (0x61 ≤ (v.get i).toNat ∧ (v.get i).toNat ≤ 0x7A) ∨
        (0x30 ≤ (v.get i).toNat ∧ (v.get i).toNat ≤ 0x39) ∨ v.get i = 0x2B ∨ v.get i = 0x2F) ∧
      (r.get i = true ↔ (Machine.hash (v.get i)).toNat < 8 ∧
        [0xFF, 0x2F, 0x2B, 0x30, 0x41, 0x50, 0x61, 0x70].getD (Machine.hash (v.get i)).toNat 0 ≤ (v.get i).toNat ∧
        (v.get i).toNat ≤ [0x00, 0x2F, 0x2B, 0x39, 0x4F, 0x5A, 0x6F, 0x7A].getD (Machine.hash (v.get i)).toNat 0)) ∧
    ∃ b : Bool, exec (.pAndr m) s = .next (s.answer (.bit b)) ∧ (b = true ↔ ∀ i, m.get i = true)

/-- O21. P.ZEXT16 keeps the number of each lane; P.SLLV16 returns (W[i] * 2^S[i]) mod 65536; P.LO8 returns W[i] mod 256
and P.HI8 floor(W[i]/256); each in every lane, in the return latch (log 9), and the rest of the state is as before.
(42_lane_primitives.md R57, R65, R66, R67, R68) -/
def Obligations.WidePrimitivesKeepValues : Prop :=
  ∀ (v k : Lanes Byte) (w : Lanes Half) (s : State),
    exec (.pZext16 v) s = .next (s.answer (.lanes16 (.ofFn fun i => BitVec.ofNat 16 (v.get i).toNat))) ∧
    exec (.pSllv16 w k) s = .next (s.answer (.lanes16 (.ofFn fun i => BitVec.ofNat 16 ((w.get i).toNat * 2 ^ (k.get i).toNat % 65536)))) ∧
    exec (.pLo8 w) s = .next (s.answer (.lanes8 (.ofFn fun i => BitVec.ofNat 8 ((w.get i).toNat % 256)))) ∧
    exec (.pHi8 w) s = .next (s.answer (.lanes8 (.ofFn fun i => BitVec.ofNat 8 ((w.get i).toNat / 256))))

/-- O22. For a group of 1 to 4 bytes VLOAD answers the state in which only V_IN and L changed: lane i holds g[i] for i < L
and 0x41 for i >= L (decision D5). (43_vector_group.md R71) -/
def Obligations.VloadPlacesTheGroup : Prop :=
  ∀ (g : List Byte) (s : State), 1 ≤ g.length → g.length ≤ 4 →
    exec (.vload g) s = .next { s with vdp := { s.vdp with
      vIn := .ofFn fun i => g.getD i.val 0x41
      gLen := g.length } }

/-- O23. VHASH answers the state in which only V_EQ and V_HASH changed: V_EQ[i] is 0xFF where V_IN[i] is 0x2F and 0x00
elsewhere; V_HASH[i] is 1 where V_IN[i] is 0x2F and floor(V_IN[i]/16) elsewhere. (R72) -/
def Obligations.VhashComputesTheClass : Prop :=
  ∀ s : State, exec .vhash s = .next { s with vdp := { s.vdp with
    vEq := .ofFn fun i => if s.vdp.vIn.get i = 0x2F then 0xFF else 0x00
    vHash := .ofFn fun i => if s.vdp.vIn.get i = 0x2F then 1 else BitVec.ofNat 8 ((s.vdp.vIn.get i).toNat / 16) } }

/-- O24. VVALID answers the state in which only V_OK and is_ok changed: V_OK[i] says whether V_IN[i] is in the alphabet,
and is_ok is 1 iff all 8 lanes are (decision D8). (43_vector_group.md R73; 10_state.md R12) -/
def Obligations.VvalidFlagsAnyInvalidLane : Prop :=
  ∀ s : State, exec .vvalid s = .next { s with vdp := { s.vdp with
    vOk := .ofFn fun i => valid (s.vdp.vIn.get i)
    isOk := decide (∀ i, valid (s.vdp.vIn.get i) = true) } }

/-- O25. VLOOKUP answers the state in which only V_OFF changed: lane i is entry V_HASH[i] mod 8 of 00 10 13 04 BF BF B9 B9
(the modulo is decision D7). (43_vector_group.md R74; 30_encoding.md R37; 42_lane_primitives.md R61) -/
def Obligations.VlookupFetchesTheOffset : Prop :=
  ∀ s : State, exec .vlookup s = .next { s with vdp := { s.vdp with
    vOff := .ofFn fun i => [0x00, 0x10, 0x13, 0x04, 0xBF, 0xBF, 0xB9, 0xB9].getD ((s.vdp.vHash.get i).toNat % 8) 0 } }

/-- O26. VSEXT answers the state in which only V_SEXT changed: lane i is (V_IN[i] + V_OFF[i]) mod 256; where V_OFF[i] is
the offset of the class of V_IN[i] and V_IN[i] is valid, the lane is its sextet; a pad lane 0x41 with its offset gives
0. (R75) -/
def Obligations.VsextAddsTheOffset : Prop :=
  ∀ s : State, ∃ r : Lanes Byte, exec .vsext s = .next { s with vdp := { s.vdp with vSext := r } } ∧
    ∀ i, (r.get i).toNat = ((s.vdp.vIn.get i).toNat + (s.vdp.vOff.get i).toNat) % 256 ∧
      (s.vdp.vOff.get i = LUT.get (Fin.ofNat 8 ((Machine.hash (s.vdp.vIn.get i)).toNat % 8)) →
        (valid (s.vdp.vIn.get i) = true → (r.get i).toNat = sextetNat (s.vdp.vIn.get i)) ∧
        (s.vdp.vIn.get i = 0x41 → r.get i = 0))

/-- O27. VWIDEN answers the state in which only V_WIDE changed: as a number, lane i is V_SEXT[i] * 2^(2*((i mod 4)+1)),
with nothing shifted out. (R76) -/
def Obligations.VwidenMovesTheSextet : Prop :=
  ∀ s : State, ∃ r : Lanes Half, exec .vwiden s = .next { s with vdp := { s.vdp with vWide := r } } ∧
    ∀ i, (r.get i).toNat = (s.vdp.vSext.get i).toNat * 2 ^ (2 * (i.val % 4 + 1))

/-- O28. VSPLIT answers the state in which only V_LO and V_HI changed: lane i of V_LO is V_WIDE[i] mod 256 and of V_HI is
floor(V_WIDE[i]/256). (R77) -/
def Obligations.VsplitSplitsByValue : Prop :=
  ∀ s : State, exec .vsplit s = .next { s with vdp := { s.vdp with
    vLo := .ofFn fun i => BitVec.ofNat 8 ((s.vdp.vWide.get i).toNat % 256)
    vHi := .ofFn fun i => BitVec.ofNat 8 ((s.vdp.vWide.get i).toNat / 256) } }

/-- O29. VROT answers the state in which only V_ROT changed: lane i is lane (i+1) mod 8 of V_HI. (R78) -/
def Obligations.VrotRotatesTowardLaneZero : Prop :=
  ∀ s : State, exec .vrot s = .next { s with vdp := { s.vdp with
    vRot := .ofFn fun i => s.vdp.vHi.get (Fin.ofNat 8 ((i.val + 1) % 8)) } }

/-- O30. VMERGE answers the state in which only V_PACK changed, to V_LO[i] OR V_ROT[i]. Where lanes 0 to 3 of V_SEXT hold
sextets and lanes 4 to 7 hold 0, running VWIDEN, VSPLIT, VROT and VMERGE one after the other leaves V_PACK = B0, B1,
B2, 0, 0, 0, 0, 0 of the 24-bit value of the four sextets. (R79) -/
def Obligations.VmergeFormsThePackedBytes : Prop :=
  (∀ s : State, exec .vmerge s = .next { s with vdp := { s.vdp with
    vPack := .ofFn fun i => BitVec.ofNat 8 ((s.vdp.vLo.get i).toNat ||| (s.vdp.vRot.get i).toNat) } }) ∧
  ∀ (s0 s1 s2 s3 : Nat) (s : State), s0 < 64 → s1 < 64 → s2 < 64 → s3 < 64 →
    s.vdp.vSext = ⟨BitVec.ofNat 8 s0, BitVec.ofNat 8 s1, BitVec.ofNat 8 s2, BitVec.ofNat 8 s3, 0, 0, 0, 0⟩ →
    ∃ t, andThen (andThen (andThen (exec .vwiden s) (exec .vsplit)) (exec .vrot)) (exec .vmerge) = .next t ∧
      t.vdp.vPack = ⟨BitVec.ofNat 8 ((s0 * 2 ^ 18 + s1 * 2 ^ 12 + s2 * 2 ^ 6 + s3) / 2 ^ 16),
        BitVec.ofNat 8 ((s0 * 2 ^ 18 + s1 * 2 ^ 12 + s2 * 2 ^ 6 + s3) / 2 ^ 8),
        BitVec.ofNat 8 (s0 * 2 ^ 18 + s1 * 2 ^ 12 + s2 * 2 ^ 6 + s3), 0, 0, 0, 0, 0⟩

/-- O31. VCOMPACT answers the state in which only V_COMP changed: its lanes are lanes 0, 1, 2, 4, 5, 6, 3, 7 of V_PACK in
this order (decision D10). (43_vector_group.md R80; 30_encoding.md R39) -/
def Obligations.VcompactDropsTheFiller : Prop :=
  ∀ s : State, exec .vcompact s = .next { s with vdp := { s.vdp with
    vComp := ⟨s.vdp.vPack.l0, s.vdp.vPack.l1, s.vdp.vPack.l2, s.vdp.vPack.l4, s.vdp.vPack.l5, s.vdp.vPack.l6,
      s.vdp.vPack.l3, s.vdp.vPack.l7⟩ } }

/-- O32. With is_ok = 1, buffers in canonical form, a loaded length of at most 4 and no call in flight on OUT, VAPPEND
appends the first N(L) lanes of V_COMP to OUT, and VDEC's port shows them and zeros above (log 20); on a buffer in use
it is refused (log 21). With is_ok = 0 it answers InvalidByte, naming no byte, and appends nothing. In both cases no
lane vector, no flag, no status and no sequencer changes, since a row standing alone belongs to no call (log 10) and
names its OUT (log 5). GoodState gives the two premises on the buffers and the length. (43_vector_group.md R81;
60_exceptions.md R98; 20_memory.md R24; 44_vector_message.md R88) -/
def Obligations.VappendAppendsOrRaises : Prop :=
  ∀ (o : BufId) (s : State),
    (s.vdp.isOk = true → s.bufs.wf = true → s.vdp.gLen ≤ 4 → s.inUse o = false →
      ∃ t, exec (.vappend o) s = .next t ∧ RowFrame .vdec s t ∧ t.vdp = s.vdp ∧ t.ret = s.ret ∧
        Appended .vdec o ([s.vdp.vComp.l0, s.vdp.vComp.l1, s.vdp.vComp.l2].take
          (s.vdp.gLen - s.vdp.gLen / 2 + s.vdp.gLen / 4)) s t) ∧
    (s.vdp.isOk = true → s.inUse o = true → exec (.vappend o) s = .refused .sharedOutput) ∧
    (s.vdp.isOk = false →
      ∃ t, exec (.vappend o) s = .next t ∧ RowFrame .vdec s t ∧ t.vdp = s.vdp ∧ RowRaised .vdec none s t)

/-- O33. For a group of 1 to 4 bytes put v[i] = g[i] for i < L and 0x41 otherwise, and s[i] = (v[i] + LUT[hash(v[i]) mod
8]) mod 256. If v[0] to v[3] are all valid and no call in flight uses OUT, GROUP.V appends the first N(L) of P0, P1,
P2 to OUT, VDEC's port shows them and zeros above (log 20), and the returned value is as before; if one is not valid
it answers InvalidByte, naming no byte, and appends nothing. The bytes are a function of g alone; nothing outside VDEC
changes. Standing alone it writes no flag of a call, no status and no sequencer (log 10), and names its OUT (log 5).
(43_vector_group.md R82; 60_exceptions.md R98; 44_vector_message.md R88) -/
def Obligations.VectorGroupIsTheClosedFormula : Prop :=
  ∀ (g : List Byte) (o : BufId) (s : State), 1 ≤ g.length → g.length ≤ 4 →
    let v : Nat → Byte := fun i => g.getD i 0x41
    let x : Nat → Nat := fun i => ((v i).toNat + (LUT.get (Fin.ofNat 8 ((Machine.hash (v i)).toNat % 8))).toNat) % 256
    let p0 := (x 0 * 4 % 256) ||| (x 1 * 16 / 256)
    let p1 := (x 1 * 16 % 256) ||| (x 2 * 64 / 256)
    let p2 := (x 2 * 64 % 256) ||| (x 3 * 256 / 256)
    let ok := valid (v 0) && valid (v 1) && valid (v 2) && valid (v 3)
    (ok = true → s.inUse o = false → ∃ t, exec (.groupV g o) s = .next t ∧ RowFrame .vdec s t ∧ t.ret = s.ret ∧
      Appended .vdec o (([p0, p1, p2].map (BitVec.ofNat 8)).take (g.length - g.length / 2 + g.length / 4)) s t) ∧
    (ok = false → ∃ t, exec (.groupV g o) s = .next t ∧ RowFrame .vdec s t ∧ RowRaised .vdec none s t)

/-- O34. For every group of 1 to 4 bytes over all 256 byte values, and every two buffers no call in flight uses: if every
byte is valid, GROUP.S and GROUP.V append the same N(L) bytes, each to the buffer it names; otherwise both raise
InvalidByte and append nothing, GROUP.S naming the first invalid byte and GROUP.V naming none. The two rows stand
alone: they name their OUT (log 5), and the error is the value they return (log 10); their ports are log 20.
(43_vector_group.md R84; 60_exceptions.md R98) -/
def Obligations.GroupOperationsAgree : Prop :=
  ∀ (g : List Byte) (oS oV : BufId) (s : State), 1 ≤ g.length → g.length ≤ 4 → s.inUse oS = false → s.inUse oV = false →
    (g.all valid = true → ∃ tS tV bs, exec (.groupS g oS) s = .next tS ∧ exec (.groupV g oV) s = .next tV ∧
      bs.length = g.length - g.length / 2 + g.length / 4 ∧ Appended .sdec oS bs s tS ∧ Appended .vdec oV bs s tV) ∧
    (g.all valid = false → ∃ tS tV b, exec (.groupS g oS) s = .next tS ∧ exec (.groupV g oV) s = .next tV ∧
      (g.find? fun b => !valid b) = some b ∧ RowRaised .sdec (some b) s tS ∧ RowRaised .vdec none s tV)

/-- O35. For each format the row answers the same state with the port outputs in the return latch (log 9, log 13): for
valid characters g_ok = 1, g_n = N(L), byte k of g_bytes is byte k of the group's take(N(L), [B0, B1, B2]) for k < g_n
and 0 above; with an invalid character g_ok = 0, g_n = 0, g_bytes = 0. (43_vector_group.md R83; 30_encoding.md R32,
R33) -/
def Obligations.GroupFormatsShowTheirBytes : Prop :=
  ∀ (g : List Byte) (i : Instr) (s : State), groupRow g = some i →
    (g.all valid = true → ∃ p, exec i s = .next (s.answer (.port p)) ∧ PortShows g p) ∧
    (g.all valid = false → exec i s = .next (s.answer (.port ⟨0, 0, false⟩)))

/-- O36. A word at the group port with g_len = 0 answers g_ok = 1, g_n = 0 and no bytes; g_len 5, 6, 7 is refused as
reservedGroupLength (decision D11); for g_len 1 to 4 two words that agree in the characters below g_len do the same
(decision D12). (43_vector_group.md R83; 92_eei_decisions.md D11, D12) -/
def Obligations.GroupPortEdges : Prop :=
  ∀ (chars chars' : BitVec 32) (len : BitVec 3) (s : State),
    (len.toNat = 0 → runWord (.group chars len) s = .next (s.answer (.port ⟨0, 0, true⟩))) ∧
    (5 ≤ len.toNat → runWord (.group chars len) s = .refused .reservedGroupLength) ∧
    (1 ≤ len.toNat → len.toNat ≤ 4 → chars.toNat % 2 ^ (8 * len.toNat) = chars'.toNat % 2 ^ (8 * len.toNat) →
      runWord (.group chars len) s = runWord (.group chars' len) s ∧ ∃ t, runWord (.group chars len) s = .next t)

/-- O37. For every row of the table of R34 the symbol's instruction answers the same state with the row's byte, sextet,
hash and stored offset in the return latch; that a symbol row returns them is the model's reading (log 11). The
padding symbol as the last byte, or the second last before another =, answers the same state with "dropped" returned;
in the body it answers the same state with InvalidByte(0x3D) returned, as S.MAP of it does (log 10). Its place operand
is the model's reading (log 12). (30_encoding.md R34, R35, R36; 60_exceptions.md R98) -/
def Obligations.SymbolRowsGiveTheirTable : Prop :=
  (∀ r ∈ symbolTable, ∀ s : State, exec r.instr s = .next (s.answer (.symbol ⟨r.byte, some r.sextet, r.hash, r.offset⟩))) ∧
  ∀ s : State,
    exec (.padEq .last) s = .next (s.answer .padding) ∧ exec (.padEq .secondLast) s = .next (s.answer .padding) ∧
    exec (.padEq .body) s = .next (s.answer (.invalidByte (some 0x3D)))

/-- O38. From every state in which agent a may be started on buffer o, DECODE on a answers a state in which: o holds what
it held, then the bytes of the groups before the first invalid one, in order; every other buffer, the other agent, the
verdict and the returned value are as before; n and end are those of the call, which is the model's choice once the
call is over (log 27), IN and OUT are held no longer (R108), and its port shows no append (log 20); pos is 4 times the
number of groups appended; status is DONE and err 0 when every byte of the body is valid, else ERR and 1; on SDEC
err_byte is the first invalid byte of the body, or as before when there is none. That pos and status show the error is
decision D9; that the call is one step is log 23. (41_scalar_reference.md R56; 44_vector_message.md R85;
60_exceptions.md R100, R101; 70_reset_and_hazards.md R108) -/
def Obligations.DecodeCallAppendsGroupByGroup : Prop :=
  ∀ (a : AgentId) (o : BufId) (inp : List Byte) (s : State), MayStart a o s →
    ∃ t, exec (callInstr a o inp) s = .next t ∧ SameOutside a s t ∧ OnlyBuffer o.toNat s t ∧
      t.bufs.read o.toNat = s.bufs.read o.toNat ++ callBytes inp ∧
      (t.seq a).inp = [] ∧ (t.seq a).out = none ∧ OutShows [] (t.port a) ∧ (t.seq a).n = inp.length ∧
      (t.seq a).bodyEnd = (bodyOf inp).length ∧
      (t.seq a).pos = 4 * (goodGroups (groupsOf (bodyOf inp))).length ∧
      ((bodyOf inp).all valid = true → (t.seq a).status = .done ∧ (t.seq a).err = false) ∧
      ((bodyOf inp).all valid = false → (t.seq a).status = .err ∧ (t.seq a).err = true) ∧
      (a = .sdec → t.errByte = ((bodyOf inp).find? fun b => !valid b).getD s.errByte)

/-- O39. For every input and every initial buffer contents: run DECODE.S and DECODE.V on the same input from any states in
which they may be started, on buffers with equal contents. Both answer a next state, both calls are over, one returned
Ok iff the other did, and the two buffers hold the same bytes. (R89; R93) -/
def Obligations.DecodersAgreeOnEveryInput : Prop :=
  ∀ (inp : List Byte) (o o' : BufId) (s s' : State), MayStart .sdec o s → MayStart .vdec o' s' →
    s.bufs.read o.toNat = s'.bufs.read o'.toNat →
    ∃ tS tV rS rV, exec (.decodeS o inp) s = .next tS ∧ exec (.decodeV o' inp) s' = .next tV ∧
      tS.result .sdec = some rS ∧ tV.result .vdec = some rV ∧ (rS = .ok ↔ rV = .ok) ∧
      tS.bufs.read o.toNat = tV.bufs.read o'.toNat

/-- O40. GROUP.S and GROUP.V on a valid group of length L, on a buffer no call in flight uses, grow that buffer by exactly
1, 1, 2, 3 bytes for L = 1, 2, 3, 4; that they run standing alone, on a buffer they name, whatever the status, is the
model's choice (log 10, log 5). A successful call of either decoder on a body of length end grows its buffer by
3*floor(end/4) + N(end mod 4), with N(0) = 0. (45_equivalence_harness.md R94; 41_scalar_reference.md R55;
43_vector_group.md R82) -/
def Obligations.GroupLengthLaw : Prop :=
  (∀ (g : List Byte) (o : BufId) (s : State) (k : Nat), (g.length, k) ∈ [(1, 1), (2, 1), (3, 2), (4, 3)] →
    g.all valid = true → s.inUse o = false →
    (∃ t, exec (.groupS g o) s = .next t ∧ (t.bufs.read o.toNat).length = (s.bufs.read o.toNat).length + k) ∧
    ∃ t, exec (.groupV g o) s = .next t ∧ (t.bufs.read o.toNat).length = (s.bufs.read o.toNat).length + k) ∧
  ∀ (a : AgentId) (o : BufId) (inp : List Byte) (s : State), MayStart a o s → (bodyOf inp).all valid = true →
    ∃ t, exec (callInstr a o inp) s = .next t ∧
      (t.bufs.read o.toNat).length = (s.bufs.read o.toNat).length + 3 * ((bodyOf inp).length / 4) +
        [0, 1, 1, 2].getD ((bodyOf inp).length % 4) 0

/-- O41. For every input, from every state in which the agent may be started, the call of either decoder returns an error
iff some byte of the input at an index below end (the length without trailing padding) is invalid; otherwise it
returns Ok. (R95) -/
def Obligations.RejectionAgreement : Prop :=
  ∀ (a : AgentId) (o : BufId) (inp : List Byte) (s : State), MayStart a o s →
    ∃ t, exec (callInstr a o inp) s = .next t ∧
      ((∃ c, t.result a = some (.err c)) ↔ ∃ k b, k < (bodyOf inp).length ∧ inp[k]? = some b ∧ valid b = false) ∧
      (t.result a = some .ok ↔ ∀ k b, k < (bodyOf inp).length → inp[k]? = some b → valid b = true)

/-- O42. Run the same call of the same decoder from any two states in which it may be started, whatever their registers,
histories and buffer numbers, on buffers with equal contents: the two results are equal and the two buffers end with
equal contents. Running a decoder twice on one input with fresh buffers is a case of it. (R96) -/
def Obligations.CallsAreFunctionsOfInputAndBuffer : Prop :=
  ∀ (a : AgentId) (o o' : BufId) (inp : List Byte) (s s' : State), MayStart a o s → MayStart a o' s' →
    s.bufs.read o.toNat = s'.bufs.read o'.toNat →
    ∃ t t' r, exec (callInstr a o inp) s = .next t ∧ exec (callInstr a o' inp) s' = .next t' ∧
      t.result a = some r ∧ t'.result a = some r ∧ t.bufs.read o.toNat = t'.bufs.read o'.toNat

/-- O43. From every state in which the decoder may be started: aaaa gives [105, 166, 154]; a gives [104]; AaA gives [1,
160]; jhgsdf6234hsdf gives the same ten bytes on both; every input whose first byte outside the alphabet is ! is
rejected by both after the groups before it, SDEC naming 0x21; the empty input succeeds with no byte appended; and
AAAA=, AAAA==, A, A==, AA, AB, = and == succeed with [0,0,0], [0,0,0], [0], [0], [0], [0], nothing and nothing. (R48;
R97) -/
def Obligations.SourceScenariosAndPermissivePadding : Prop :=
  Decodes [0x61, 0x61, 0x61, 0x61] [105, 166, 154] ∧ Decodes [0x61] [104] ∧ Decodes [0x41, 0x61, 0x41] [1, 160] ∧
  Decodes [0x6A, 0x68, 0x67, 0x73, 0x64, 0x66, 0x36, 0x32, 0x33, 0x34, 0x68, 0x73, 0x64, 0x66]
    [142, 24, 44, 117, 254, 182, 223, 136, 108, 117] ∧
  (∀ pre post : List Byte, pre.all valid = true →
    Rejects (pre ++ 0x21 :: post) ((groupsOf (pre.take (pre.length / 4 * 4))).flatMap groupBytes) 0x21) ∧
  Decodes [] [] ∧
  Decodes [0x41, 0x41, 0x41, 0x41, 0x3D] [0, 0, 0] ∧ Decodes [0x41, 0x41, 0x41, 0x41, 0x3D, 0x3D] [0, 0, 0] ∧
  Decodes [0x41] [0] ∧ Decodes [0x41, 0x3D, 0x3D] [0] ∧ Decodes [0x41, 0x41] [0] ∧ Decodes [0x41, 0x42] [0] ∧
  Decodes [0x3D] [] ∧ Decodes [0x3D, 0x3D] []

/-- O44. For every byte sequence x and every state, CHECK.EQ(x) answers the same state with verdict PASS. It runs on
decoders and fresh buffers of its own (log 24). How it judges (decision D24): two Ok results pass iff their buffers
are equal, two Err results pass, and one Ok with one Err, or a run without a result, fails. (45_equivalence_harness.md
R90, R91; 44_vector_message.md R89) -/
def Obligations.EquivalenceCheckAlwaysPasses : Prop :=
  (∀ (x : List Byte) (s : State), exec (.checkEq x) s = .next { s with verdict := some .pass }) ∧
  ∀ (outS outV : List Byte) (r : Option HarnessResult),
    (judge (some (true, outS)) (some (true, outV)) = .pass ↔ outS = outV) ∧
    judge (some (false, outS)) (some (false, outV)) = .pass ∧
    judge (some (true, outS)) (some (false, outV)) = .fail ∧ judge (some (false, outS)) (some (true, outV)) = .fail ∧
    judge none r = .fail ∧ judge r none = .fail

/-- O45. With no move of the caller pending and the other decoder not running: after START, running the machine for any
number of steps from ceil(end/4)+1 up answers exactly the state the whole call DECODE answers. So no call hangs, at
most ceil(end/4) group steps and one end test are taken, and the machine then rests (log 8). The granularity of DECODE
is log 23. (44_vector_message.md R85, R86; 41_scalar_reference.md R56; 70_reset_and_hazards.md R110) -/
def Obligations.StepwiseCallEndsAsTheWholeCall : Prop :=
  ∀ (a : AgentId) (o : BufId) (inp : List Byte) (s u : State), s.inbox = [] → (s.seq (other a)).status ≠ .run →
    exec (.start a o inp) s = .next u →
    ∃ t, exec (callInstr a o inp) s = .next t ∧
      ∀ k, ((bodyOf inp).length + 3) / 4 + 1 ≤ k → Host.Core.run core k u = .next t

/-- O46. In every good state, for a running decoder on buffer o with g the next group IN[pos..min(pos+4, end)): if pos >=
end its step ends the call with DONE, appends nothing and drops IN and OUT, n and end kept (log 27); if pos < end and
g is valid its step appends exactly the bytes of g to o, shows them on the port (log 20) and sets pos + 4 with them,
and nothing else of the call changes; if g has an invalid byte its step sets err and status ERR, keeps pos (and n and
end, log 27), appends nothing, drops IN and OUT, and SDEC records the first invalid byte in err_byte. What is not the
agent's own is as before. And with no move of the caller pending and a decoder running, the step of the machine
answers a next state in which the work left (end + 4 - pos of each running decoder, 0 for one that is not) is strictly
smaller, for every value of the free value that says which of two running decoders moves (log 7). That pos and status
show the error is decision D9. (44_vector_message.md R85, R86, R88; 41_scalar_reference.md R56; 20_memory.md R24, R27;
10_state.md R11; 60_exceptions.md R101; 70_reset_and_hazards.md R108; 92_eei_decisions.md D1, D18) -/
def Obligations.RunningDecodersAlwaysProgress : Prop :=
  (∀ (a : AgentId) (o : BufId) (s : State), GoodState s → (s.seq a).status = .run → (s.seq a).out = some o →
    ((s.seq a).bodyEnd ≤ (s.seq a).pos → ∃ t, agentStep a s = .next t ∧ SameOutside a s t ∧ t.bufs = s.bufs ∧
      t.errByte = s.errByte ∧ OutShows [] (t.port a) ∧
      t.seq a = { s.seq a with status := .done, inp := [], out := none }) ∧
    ∀ g : List Byte, (s.seq a).pos < (s.seq a).bodyEnd →
      g = ((s.seq a).inp.drop (s.seq a).pos).take (min 4 ((s.seq a).bodyEnd - (s.seq a).pos)) →
      (g.all valid = true → ∃ t, agentStep a s = .next t ∧ SameOutside a s t ∧ Appended a o (groupBytes g) s t ∧
        t.errByte = s.errByte ∧ t.seq a = { s.seq a with pos := (s.seq a).pos + 4 }) ∧
      ∀ b : Byte, (g.find? fun b => !valid b) = some b → ∃ t, agentStep a s = .next t ∧ SameOutside a s t ∧
        t.bufs = s.bufs ∧ OutShows [] (t.port a) ∧ (a = .sdec → t.errByte = b) ∧
        t.seq a = { s.seq a with status := .err, err := true, inp := [], out := none }) ∧
  ∀ s : State, GoodState s → s.inbox = [] → (∃ a, (s.seq a).status = .run) →
    ∃ t, step s = .next t ∧ t.vseq.work + t.sseq.work < s.vseq.work + s.sseq.work

/-- O47. If GoodState s and the step answers t then GoodState t: n, end and pos stay as R10, R11 and R47 say (n and end
after a call too, where their values are the model's choice, log 27), err is 1 iff the status is ERR, an agent holds
IN and OUT while it runs and at no other time (R9, R108; log 5), no two running calls share a buffer (R28), the
buffers keep their canonical form (log 4) and the loaded length stays at most 4. This covers every move of the caller
and every row. (10_state.md R9, R10, R11; 20_memory.md R28; 40_shared_preprocessing.md R47; 70_reset_and_hazards.md
R108) -/
def Obligations.EveryStepKeepsTheInvariant : Prop :=
  ∀ s t : State, GoodState s → step s = .next t → GoodState t

/-- O48. GoodState holds of State.reset. (70_reset_and_hazards.md R107) -/
def Obligations.ResetIsAGoodState : Prop :=
  GoodState State.reset

/-- O49. In every state that satisfies GoodState, and for every move of the caller and every row, the step does not stop
as a fault: no index outside 0 to n-1 of IN is ever read, and no call appends without an OUT. In states no call
reaches a decoder's step stops: as inputOutOfRange where the next group reaches beyond IN, and as noOutput where a
valid group is there but no OUT (log 18). (20_memory.md R20, R22; 60_exceptions.md R98) -/
def Obligations.NoGoodStateFaults : Prop :=
  (∀ s : State, GoodState s → SafeStep s) ∧
  ∀ (a : AgentId) (s : State), (s.seq a).pos < (s.seq a).bodyEnd →
    ((s.seq a).inp.length < (s.seq a).pos + min 4 ((s.seq a).bodyEnd - (s.seq a).pos) →
      agentStep a s = .fault .inputOutOfRange) ∧
    ((s.seq a).bodyEnd ≤ (s.seq a).inp.length → (s.seq a).out = none →
      (((s.seq a).inp.drop (s.seq a).pos).take (min 4 ((s.seq a).bodyEnd - (s.seq a).pos))).all valid = true →
      agentStep a s = .fault .noOutput)

/-- O50. In every state, exec answers a next state for an instruction iff the instruction is well formed and Admitted:
START and a call may be started, PART has pos < end, and an append goes to a buffer no call in flight uses. Every
other well-formed row runs in every state. The append clause is log 21. (40_shared_preprocessing.md R46, R49;
20_memory.md R28) -/
def Obligations.RowsRunExactlyWhenAdmitted : Prop :=
  ∀ (i : Instr) (s : State), (∃ t, exec i s = .next t) ↔ WellFormed i = true ∧ Admitted i s

/-- O51. When exec answers t: the caller's moves and the free value's counter are as before; only START and a whole call
change a sequencer, and only that of their agent; a port changes only for a row of its agent, VDEC's lanes only for a
row of VDEC, acc only for a row of SDEC, err_byte only for DECODE.S; the verdict changes only for CHECK.EQ; the
returned value changes only for rows that return one or raise; every buffer but the OUT a row names reads as before, a
buffer a call in flight uses reads as before, and the OUT of a row grows only after the bytes it held. Whatever the
caller's move, if it is not silence and not a reset of agent a, then a running call of a keeps its sequencer and its
buffer (R18, R99): the result of a call is that of IN and OUT alone. That rows standing alone belong to no call is log
10; the refusal of a buffer in use is log 21. (10_state.md R7, R10, R12, R13, R18; 20_memory.md R20, R24, R28;
60_exceptions.md R99, R104) -/
def Obligations.EveryRowsFrame : Prop :=
  (∀ (i : Instr) (s t : State), exec i s = .next t →
    t.inbox = s.inbox ∧ t.turns = s.turns ∧
    (∀ a, (∀ o inp, i ≠ .start a o inp) → (∀ o inp, i ≠ callInstr a o inp) → t.seq a = s.seq a) ∧
    (∀ a, agentOfInstr i ≠ some a → t.port a = s.port a) ∧
    (agentOfInstr i ≠ some .vdec → t.vdp = s.vdp) ∧
    (agentOfInstr i ≠ some .sdec → t.acc = s.acc) ∧
    ((∀ o inp, i ≠ .decodeS o inp) → t.errByte = s.errByte) ∧
    ((∀ x, i ≠ .checkEq x) → t.verdict = s.verdict) ∧
    (agentOfInstr i ≠ none → (∀ o g, i ≠ .groupS g o) → (∀ o g, i ≠ .groupV g o) → (∀ o, i ≠ .vappend o) →
      t.ret = s.ret) ∧
    (∀ k, (∀ o, outOfRow i = some o → k ≠ o.toNat) → t.bufs.read k = s.bufs.read k) ∧
    (∀ o : BufId, s.inUse o = true → t.bufs.read o.toNat = s.bufs.read o.toNat) ∧
    (s.bufs.wf = true → ∀ k, s.bufs.read k <+: t.bufs.read k)) ∧
  ∀ (a : AgentId) (e : Stimulus) (s t : State), step s = .next t → s.inbox.head? = some e → e ≠ .quiet → e ≠ .rst a →
    (s.seq a).status = .run →
    t.seq a = s.seq a ∧ ∀ o : BufId, (s.seq a).out = some o → t.bufs.read o.toNat = s.bufs.read o.toNat

/-- O52. In every state with buffers in canonical form, when the step answers t and the caller's move was not to hand over
a buffer, every buffer of s is a prefix of the same buffer of t. (10_state.md R9; 20_memory.md R24) -/
def Obligations.OutputOnlyGrows : Prop :=
  ∀ s t : State, s.bufs.wf = true → step s = .next t → (∀ o bs, s.inbox.head? ≠ some (.supply o bs)) →
    ∀ k, s.bufs.read k <+: t.bufs.read k

/-- O53. Take a machine whose buffers have their canonical form (log 4) and give it other buffer contents of that form.
Every row, and the step of either decoder, then answers the same kind of outcome, with the same refusal or fault; the
next states agree in everything but the buffers; and to each buffer the same bytes are appended in both. And no row
faults in any state. So no decoder reads OUT. (10_state.md R9; 20_memory.md R20, R24) -/
def Obligations.DecodersNeverReadTheOutput : Prop :=
  (∀ i : Instr, IgnoresBuffers (exec i)) ∧
  (∀ a : AgentId, IgnoresBuffers (agentStep a)) ∧
  ∀ (i : Instr) (s : State) (f : Fault), exec i s ≠ .fault f

/-- O54. From every state in which err of an agent is 1, whatever the step, err of that agent is 1 in the next state
unless the caller's move was a reset of the agent, a START or a whole call on it. (10_state.md R12; 60_exceptions.md
R102) -/
def Obligations.ErrorFlagIsSticky : Prop :=
  ∀ (a : AgentId) (s t : State), step s = .next t → (s.seq a).err = true → ¬ ClearsError a s → (t.seq a).err = true

/-- O55. GoodState gives, for both agents: pos is a multiple of 4, pos <= end + 3, n - 2 <= end <= n, and for every LEN_W
with n + 3 < 2^LEN_W all of n, end and pos fit (decision D14; log 19). Of an agent whose call is over, n and end are
the model's choice (log 27). (10_state.md R10, R11) -/
def Obligations.CursorStaysInBounds : Prop :=
  ∀ (a : AgentId) (s : State) (w : Nat), GoodState s →
    (s.seq a).pos % 4 = 0 ∧ (s.seq a).pos ≤ (s.seq a).bodyEnd + 3 ∧ (s.seq a).bodyEnd ≤ (s.seq a).n ∧
    (s.seq a).n ≤ (s.seq a).bodyEnd + 2 ∧
    (FitsLenW w (s.seq a).n → (s.seq a).n < 2 ^ w ∧ (s.seq a).bodyEnd < 2 ^ w ∧ (s.seq a).pos < 2 ^ w)

/-- O56. In every good state, for both agents: the result is Ok iff status reads 2, and then err reads 0; it is an error
iff status reads 3, and then err reads 1 and SDEC shows err_byte while VDEC shows none; with status 0 or 1 there is no
result yet (decision D15). pos reads the sequencer's pos; that it is among the signals is the model's choice between
R17 and R19 (log 25). (10_state.md R10, R17, R19; 30_encoding.md R45; 44_vector_message.md R86; 60_exceptions.md R105) -/
def Obligations.SignalsShowTheResult : Prop :=
  ∀ (a : AgentId) (s : State), GoodState s →
    (s.result a = some .ok ↔ (s.signals a).status = 2) ∧ ((s.signals a).status = 2 → (s.signals a).err = false) ∧
    (s.result a = some (.err (match a with | .vdec => none | .sdec => some s.errByte)) ↔ (s.signals a).status = 3) ∧
    ((s.signals a).status = 3 ↔ (s.signals a).err = true) ∧
    (s.result a = none ↔ (s.signals a).status = 0 ∨ (s.signals a).status = 1) ∧
    (s.signals a).pos = (s.seq a).pos

/-- O57. When the caller's next move presents a word that decodes to i, the step is exec of i at the state with that move
taken from the inbox; when a table word decodes to i, the step from withFetchWord is exec of i at the state itself;
with no move pending the step is the running decoders' own, and a state with none running is then left as it is (log
1, log 8). (30_encoding.md R41; 10_state.md R7) -/
def Obligations.AStepRunsTheDecodedRow : Prop :=
  (∀ (w : FetchWord) (i : Instr) (s : State) (rest : List Stimulus), s.inbox = .word w :: rest → decode w = .ok i →
    step s = exec i { s with inbox := rest }) ∧
  (∀ (nbits w : Nat) (i : Instr) (s : State), decodeTableWord nbits w = some i → step (s.withFetchWord nbits w) = exec i s) ∧
  (∀ s : State, s.inbox = [] → s.vseq.status = .run → s.sseq.status ≠ .run → step s = agentStep .vdec s) ∧
  (∀ s : State, s.inbox = [] → s.sseq.status = .run → s.vseq.status ≠ .run → step s = agentStep .sdec s) ∧
  (∀ s : State, s.inbox = [] → s.vseq.status = .run → s.sseq.status = .run →
    ∃ a, step s = agentStep a { s with turns := s.turns + 1 }) ∧
  ∀ s : State, s.inbox = [] → (∀ a, (s.seq a).status ≠ .run) → step s = .next s

/-- O58. For every well-formed instruction i of all 106 rows, with every operand at every value, decode (encode i) is i.
The operand layout is the model's (log 2). (30_encoding.md R32, R34, R35, R41) -/
def Obligations.DecodeOfEncodeIsTheRow : Prop :=
  ∀ i : Instr, WellFormed i = true → decode (encode i) = .ok i

/-- O59. When decode answers i, i is well formed, and either the word is encode i, or it is a group word that differs from
encode i only in characters at and above g_len. So no two words but such group words mean one row (log 2; decision
D12). (30_encoding.md R32, R41; 43_vector_group.md R83) -/
def Obligations.EveryDecodedWordIsARowsOwn : Prop :=
  ∀ (w : FetchWord) (i : Instr), decode w = .ok i → WellFormed i = true ∧
    (encode i = w ∨ ∃ chars len, w = .group chars len ∧
      encode i = .group (BitVec.ofNat 32 (chars.toNat % 2 ^ (8 * len.toNat))) len)

/-- O60. Keys 0, 4, 12, 25, 36 with their operand bytes, the bytes of a, / and the final =, and the group word 0x00626141
of "Aab" decode to their rows. The keys, the symbol bytes, g_chars and g_len are the spec's; the three ports, the
bytes of the operands (agent, buffer, lanes) and their order are the model's (log 2), and the byte after = that says
its place is log 12. Every key 37 to 63 is rejected as unnamedOpnum and a key byte of 64 or more as notAKey (log 2);
an invalid byte other than = at the text port is rejected as invalidByte and the machine answers it as S.MAP does (log
14). (30_encoding.md R32, R34, R35, R36, R41) -/
def Obligations.SampleWordsAndNamelessWords : Prop :=
  decode (.key [0x00, 0x01, 0x05, 0x54, 0x51]) = .ok (.start .sdec 5 [0x54, 0x51]) ∧
  decode (.key [0x04, 0x61]) = .ok (.sMap 0x61) ∧
  decode (.key [0x0C, 1, 2, 3, 4, 5, 6, 7, 8, 9, 10, 11, 12, 13, 14, 15, 16]) =
    .ok (.pAdd8 ⟨1, 2, 3, 4, 5, 6, 7, 8⟩ ⟨9, 10, 11, 12, 13, 14, 15, 16⟩) ∧
  decode (.key [0x19]) = .ok .vvalid ∧ decode (.key [0x24, 0x61, 0x21]) = .ok (.checkEq [0x61, 0x21]) ∧
  decode (.text [0x61]) = .ok .symLoA ∧ decode (.text [0x2F]) = .ok .symSlash ∧ decode (.text [0x3D, 0]) = .ok (.padEq .last) ∧
  decode (.group 0x00626141 3) = .ok (.g3 0x41 0x61 0x62) ∧
  (∀ (b : Byte) (rest : List Byte), 37 ≤ b.toNat → b.toNat < 64 → decode (.key (b :: rest)) = .error (.unnamedOpnum b.toNat)) ∧
  (∀ (b : Byte) (rest : List Byte), 64 ≤ b.toNat → decode (.key (b :: rest)) = .error (.notAKey b)) ∧
  ∀ (b : Byte) (s : State), valid b = false → b ≠ 0x3D →
    decode (.text [b]) = .error (.invalidByte b) ∧ runWord (.text [b]) s = exec (.sMap b) s

end Statements
end

