-- ==== Sys2Proof/Laws/State.lean ====
section
/-! SUPPORT. One lemma per field per update of the state, so that no proof unfolds a record update. -/

namespace Sys2Proof.Machine

variable (s : State) (a : AgentId) (q : Seq) (p : OutPort)

/-! ## The two agents -/

@[simp] theorem seq_vdec : s.seq .vdec = s.vseq := rfl
@[simp] theorem seq_sdec : s.seq .sdec = s.sseq := rfl
@[simp] theorem port_vdec : s.port .vdec = s.vport := rfl
@[simp] theorem port_sdec : s.port .sdec = s.sport := rfl
@[simp] theorem other_other : other (other a) = a := by cases a <;> rfl
@[simp] theorem other_vdec : other .vdec = .sdec := rfl
@[simp] theorem other_sdec : other .sdec = .vdec := rfl
theorem eq_or_other (c : AgentId) : c = a ∨ c = other a := by cases a <;> cases c <;> simp

/-! ## The returned value -/

@[simp] theorem answer_vseq (r : Ret) : (s.answer r).vseq = s.vseq := rfl
@[simp] theorem answer_sseq (r : Ret) : (s.answer r).sseq = s.sseq := rfl
@[simp] theorem answer_vport (r : Ret) : (s.answer r).vport = s.vport := rfl
@[simp] theorem answer_sport (r : Ret) : (s.answer r).sport = s.sport := rfl
@[simp] theorem answer_vdp (r : Ret) : (s.answer r).vdp = s.vdp := rfl
@[simp] theorem answer_acc (r : Ret) : (s.answer r).acc = s.acc := rfl
@[simp] theorem answer_errByte (r : Ret) : (s.answer r).errByte = s.errByte := rfl
@[simp] theorem answer_bufs (r : Ret) : (s.answer r).bufs = s.bufs := rfl
@[simp] theorem answer_verdict (r : Ret) : (s.answer r).verdict = s.verdict := rfl
@[simp] theorem answer_ret (r : Ret) : (s.answer r).ret = r := rfl
@[simp] theorem answer_inbox (r : Ret) : (s.answer r).inbox = s.inbox := rfl
@[simp] theorem answer_turns (r : Ret) : (s.answer r).turns = s.turns := rfl
@[simp] theorem answer_seq (r : Ret) : (s.answer r).seq a = s.seq a := by cases a <;> rfl
@[simp] theorem answer_port (r : Ret) : (s.answer r).port a = s.port a := by cases a <;> rfl

/-! ## A sequencer -/

@[simp] theorem setSeq_vport : (s.setSeq a q).vport = s.vport := by cases a <;> rfl
@[simp] theorem setSeq_sport : (s.setSeq a q).sport = s.sport := by cases a <;> rfl
@[simp] theorem setSeq_vdp : (s.setSeq a q).vdp = s.vdp := by cases a <;> rfl
@[simp] theorem setSeq_acc : (s.setSeq a q).acc = s.acc := by cases a <;> rfl
@[simp] theorem setSeq_errByte : (s.setSeq a q).errByte = s.errByte := by cases a <;> rfl
@[simp] theorem setSeq_bufs : (s.setSeq a q).bufs = s.bufs := by cases a <;> rfl
@[simp] theorem setSeq_verdict : (s.setSeq a q).verdict = s.verdict := by cases a <;> rfl
@[simp] theorem setSeq_ret : (s.setSeq a q).ret = s.ret := by cases a <;> rfl
@[simp] theorem setSeq_inbox : (s.setSeq a q).inbox = s.inbox := by cases a <;> rfl
@[simp] theorem setSeq_turns : (s.setSeq a q).turns = s.turns := by cases a <;> rfl
@[simp] theorem setSeq_seq : (s.setSeq a q).seq a = q := by cases a <;> rfl
@[simp] theorem setSeq_seq_other : (s.setSeq a q).seq (other a) = s.seq (other a) := by cases a <;> rfl
@[simp] theorem setSeq_port (c : AgentId) : (s.setSeq a q).port c = s.port c := by cases a <;> rfl
@[simp] theorem setSeq_vdec_vseq : (s.setSeq .vdec q).vseq = q := rfl
@[simp] theorem setSeq_vdec_sseq : (s.setSeq .vdec q).sseq = s.sseq := rfl
@[simp] theorem setSeq_sdec_vseq : (s.setSeq .sdec q).vseq = s.vseq := rfl
@[simp] theorem setSeq_sdec_sseq : (s.setSeq .sdec q).sseq = q := rfl

/-! ## An output port -/

@[simp] theorem setPort_vseq : (s.setPort a p).vseq = s.vseq := by cases a <;> rfl
@[simp] theorem setPort_sseq : (s.setPort a p).sseq = s.sseq := by cases a <;> rfl
@[simp] theorem setPort_vdp : (s.setPort a p).vdp = s.vdp := by cases a <;> rfl
@[simp] theorem setPort_acc : (s.setPort a p).acc = s.acc := by cases a <;> rfl
@[simp] theorem setPort_errByte : (s.setPort a p).errByte = s.errByte := by cases a <;> rfl
@[simp] theorem setPort_bufs : (s.setPort a p).bufs = s.bufs := by cases a <;> rfl
@[simp] theorem setPort_verdict : (s.setPort a p).verdict = s.verdict := by cases a <;> rfl
@[simp] theorem setPort_ret : (s.setPort a p).ret = s.ret := by cases a <;> rfl
@[simp] theorem setPort_inbox : (s.setPort a p).inbox = s.inbox := by cases a <;> rfl
@[simp] theorem setPort_turns : (s.setPort a p).turns = s.turns := by cases a <;> rfl
@[simp] theorem setPort_port : (s.setPort a p).port a = p := by cases a <;> rfl
@[simp] theorem setPort_port_other : (s.setPort a p).port (other a) = s.port (other a) := by cases a <;> rfl
@[simp] theorem setPort_seq (c : AgentId) : (s.setPort a p).seq c = s.seq c := by cases a <;> cases c <;> rfl

/-! ## Append -/

@[simp] theorem appended_vseq (o : BufId) (bs : List Byte) : (s.appended a o bs).vseq = s.vseq := by cases a <;> rfl
@[simp] theorem appended_sseq (o : BufId) (bs : List Byte) : (s.appended a o bs).sseq = s.sseq := by cases a <;> rfl
@[simp] theorem appended_vdp (o : BufId) (bs : List Byte) : (s.appended a o bs).vdp = s.vdp := by cases a <;> rfl
@[simp] theorem appended_acc (o : BufId) (bs : List Byte) : (s.appended a o bs).acc = s.acc := by cases a <;> rfl
@[simp] theorem appended_errByte (o : BufId) (bs : List Byte) : (s.appended a o bs).errByte = s.errByte := by cases a <;> rfl
@[simp] theorem appended_bufs (o : BufId) (bs : List Byte) : (s.appended a o bs).bufs = s.bufs.append o.toNat bs := by cases a <;> rfl
@[simp] theorem appended_verdict (o : BufId) (bs : List Byte) : (s.appended a o bs).verdict = s.verdict := by cases a <;> rfl
@[simp] theorem appended_ret (o : BufId) (bs : List Byte) : (s.appended a o bs).ret = s.ret := by cases a <;> rfl
@[simp] theorem appended_inbox (o : BufId) (bs : List Byte) : (s.appended a o bs).inbox = s.inbox := by cases a <;> rfl
@[simp] theorem appended_turns (o : BufId) (bs : List Byte) : (s.appended a o bs).turns = s.turns := by cases a <;> rfl
@[simp] theorem appended_seq (o : BufId) (bs : List Byte) (c : AgentId) : (s.appended a o bs).seq c = s.seq c := by cases a <;> cases c <;> rfl
@[simp] theorem appended_port (o : BufId) (bs : List Byte) : (s.appended a o bs).port a = .showing bs := by cases a <;> rfl
@[simp] theorem appended_port_other (o : BufId) (bs : List Byte) : (s.appended a o bs).port (other a) = s.port (other a) := by cases a <;> rfl

/-! ## The error of a call -/

@[simp] theorem raiseV_vseq : (raiseV s).vseq = s.vseq.fail := rfl
@[simp] theorem raiseV_sseq : (raiseV s).sseq = s.sseq := rfl
@[simp] theorem raiseV_vport : (raiseV s).vport = .quiet := rfl
@[simp] theorem raiseV_sport : (raiseV s).sport = s.sport := rfl
@[simp] theorem raiseV_vdp : (raiseV s).vdp = s.vdp := rfl
@[simp] theorem raiseV_acc : (raiseV s).acc = s.acc := rfl
@[simp] theorem raiseV_errByte : (raiseV s).errByte = s.errByte := rfl
@[simp] theorem raiseV_bufs : (raiseV s).bufs = s.bufs := rfl
@[simp] theorem raiseV_verdict : (raiseV s).verdict = s.verdict := rfl
@[simp] theorem raiseV_ret : (raiseV s).ret = s.ret := rfl
@[simp] theorem raiseV_inbox : (raiseV s).inbox = s.inbox := rfl
@[simp] theorem raiseV_turns : (raiseV s).turns = s.turns := rfl
/-! ## The error of a call that names its byte -/

@[simp] theorem raiseS_vseq (b : Byte) : (raiseS b s).vseq = s.vseq := rfl
@[simp] theorem raiseS_sseq (b : Byte) : (raiseS b s).sseq = s.sseq.fail := rfl
@[simp] theorem raiseS_vport (b : Byte) : (raiseS b s).vport = s.vport := rfl
@[simp] theorem raiseS_sport (b : Byte) : (raiseS b s).sport = .quiet := rfl
@[simp] theorem raiseS_vdp (b : Byte) : (raiseS b s).vdp = s.vdp := rfl
@[simp] theorem raiseS_acc (b : Byte) : (raiseS b s).acc = s.acc := rfl
@[simp] theorem raiseS_errByte (b : Byte) : (raiseS b s).errByte = b := rfl
@[simp] theorem raiseS_bufs (b : Byte) : (raiseS b s).bufs = s.bufs := rfl
@[simp] theorem raiseS_verdict (b : Byte) : (raiseS b s).verdict = s.verdict := rfl
@[simp] theorem raiseS_ret (b : Byte) : (raiseS b s).ret = s.ret := rfl
@[simp] theorem raiseS_inbox (b : Byte) : (raiseS b s).inbox = s.inbox := rfl
@[simp] theorem raiseS_turns (b : Byte) : (raiseS b s).turns = s.turns := rfl
/-! ## The error of a row -/

@[simp] theorem raiseRow_vseq (b : Option Byte) : (raiseRow a b s).vseq = s.vseq := by cases a <;> rfl
@[simp] theorem raiseRow_sseq (b : Option Byte) : (raiseRow a b s).sseq = s.sseq := by cases a <;> rfl
@[simp] theorem raiseRow_vdp (b : Option Byte) : (raiseRow a b s).vdp = s.vdp := by cases a <;> rfl
@[simp] theorem raiseRow_acc (b : Option Byte) : (raiseRow a b s).acc = s.acc := by cases a <;> rfl
@[simp] theorem raiseRow_errByte (b : Option Byte) : (raiseRow a b s).errByte = s.errByte := by cases a <;> rfl
@[simp] theorem raiseRow_bufs (b : Option Byte) : (raiseRow a b s).bufs = s.bufs := by cases a <;> rfl
@[simp] theorem raiseRow_verdict (b : Option Byte) : (raiseRow a b s).verdict = s.verdict := by cases a <;> rfl
@[simp] theorem raiseRow_ret (b : Option Byte) : (raiseRow a b s).ret = .invalidByte b := by cases a <;> rfl
@[simp] theorem raiseRow_inbox (b : Option Byte) : (raiseRow a b s).inbox = s.inbox := by cases a <;> rfl
@[simp] theorem raiseRow_turns (b : Option Byte) : (raiseRow a b s).turns = s.turns := by cases a <;> rfl
@[simp] theorem raiseRow_seq (b : Option Byte) (c : AgentId) : (raiseRow a b s).seq c = s.seq c := by cases a <;> cases c <;> rfl
@[simp] theorem raiseRow_port (b : Option Byte) : (raiseRow a b s).port a = .quiet := by cases a <;> rfl
@[simp] theorem raiseRow_port_other (b : Option Byte) : (raiseRow a b s).port (other a) = s.port (other a) := by cases a <;> rfl

/-! ## The end of a call -/

@[simp] theorem finished_vdp : (s.finished a).vdp = s.vdp := by cases a <;> rfl
@[simp] theorem finished_acc : (s.finished a).acc = s.acc := by cases a <;> rfl
@[simp] theorem finished_errByte : (s.finished a).errByte = s.errByte := by cases a <;> rfl
@[simp] theorem finished_bufs : (s.finished a).bufs = s.bufs := by cases a <;> rfl
@[simp] theorem finished_verdict : (s.finished a).verdict = s.verdict := by cases a <;> rfl
@[simp] theorem finished_ret : (s.finished a).ret = s.ret := by cases a <;> rfl
@[simp] theorem finished_inbox : (s.finished a).inbox = s.inbox := by cases a <;> rfl
@[simp] theorem finished_turns : (s.finished a).turns = s.turns := by cases a <;> rfl
@[simp] theorem finished_seq : (s.finished a).seq a = (s.seq a).finish := by cases a <;> rfl
@[simp] theorem finished_seq_other : (s.finished a).seq (other a) = s.seq (other a) := by cases a <;> rfl
@[simp] theorem finished_port : (s.finished a).port a = .quiet := by cases a <;> rfl
@[simp] theorem finished_port_other : (s.finished a).port (other a) = s.port (other a) := by cases a <;> rfl

/-! ## The beginning of a call -/

@[simp] theorem begun_vdp (o : BufId) (inp : List Byte) : (s.begun a o inp).vdp = s.vdp := by cases a <;> rfl
@[simp] theorem begun_acc (o : BufId) (inp : List Byte) : (s.begun a o inp).acc = s.acc := by cases a <;> rfl
@[simp] theorem begun_errByte (o : BufId) (inp : List Byte) : (s.begun a o inp).errByte = s.errByte := by cases a <;> rfl
@[simp] theorem begun_bufs (o : BufId) (inp : List Byte) : (s.begun a o inp).bufs = s.bufs := by cases a <;> rfl
@[simp] theorem begun_verdict (o : BufId) (inp : List Byte) : (s.begun a o inp).verdict = s.verdict := by cases a <;> rfl
@[simp] theorem begun_ret (o : BufId) (inp : List Byte) : (s.begun a o inp).ret = s.ret := by cases a <;> rfl
@[simp] theorem begun_inbox (o : BufId) (inp : List Byte) : (s.begun a o inp).inbox = s.inbox := by cases a <;> rfl
@[simp] theorem begun_turns (o : BufId) (inp : List Byte) : (s.begun a o inp).turns = s.turns := by cases a <;> rfl
@[simp] theorem begun_seq (o : BufId) (inp : List Byte) : (s.begun a o inp).seq a = Seq.begin o inp := by cases a <;> rfl
@[simp] theorem begun_seq_other (o : BufId) (inp : List Byte) : (s.begun a o inp).seq (other a) = s.seq (other a) := by cases a <;> rfl
@[simp] theorem begun_port (o : BufId) (inp : List Byte) : (s.begun a o inp).port a = .quiet := by cases a <;> rfl
@[simp] theorem begun_port_other (o : BufId) (inp : List Byte) : (s.begun a o inp).port (other a) = s.port (other a) := by cases a <;> rfl

/-! ## Sequencer updates -/

@[simp] theorem fail_inp : q.fail.inp = [] := rfl
@[simp] theorem fail_out : q.fail.out = none := rfl
@[simp] theorem fail_n : q.fail.n = q.n := rfl
@[simp] theorem fail_bodyEnd : q.fail.bodyEnd = q.bodyEnd := rfl
@[simp] theorem fail_pos : q.fail.pos = q.pos := rfl
@[simp] theorem fail_status : q.fail.status = .err := rfl
@[simp] theorem fail_err : q.fail.err = true := rfl
@[simp] theorem finish_inp : q.finish.inp = [] := rfl
@[simp] theorem finish_out : q.finish.out = none := rfl
@[simp] theorem finish_n : q.finish.n = q.n := rfl
@[simp] theorem finish_bodyEnd : q.finish.bodyEnd = q.bodyEnd := rfl
@[simp] theorem finish_pos : q.finish.pos = q.pos := rfl
@[simp] theorem finish_status : q.finish.status = .done := rfl
@[simp] theorem finish_err : q.finish.err = q.err := rfl
@[simp] theorem advance_inp : q.advance.inp = q.inp := rfl
@[simp] theorem advance_out : q.advance.out = q.out := rfl
@[simp] theorem advance_n : q.advance.n = q.n := rfl
@[simp] theorem advance_bodyEnd : q.advance.bodyEnd = q.bodyEnd := rfl
@[simp] theorem advance_pos : q.advance.pos = q.pos + 4 := rfl
@[simp] theorem advance_status : q.advance.status = q.status := rfl
@[simp] theorem advance_err : q.advance.err = q.err := rfl
@[simp] theorem begin_inp (o : BufId) (inp : List Byte) : (Seq.begin o inp).inp = inp := rfl
@[simp] theorem begin_out (o : BufId) (inp : List Byte) : (Seq.begin o inp).out = some o := rfl
@[simp] theorem begin_n (o : BufId) (inp : List Byte) : (Seq.begin o inp).n = inp.length := rfl
@[simp] theorem begin_bodyEnd (o : BufId) (inp : List Byte) : (Seq.begin o inp).bodyEnd = stripEnd inp inp.length := rfl
@[simp] theorem begin_pos (o : BufId) (inp : List Byte) : (Seq.begin o inp).pos = 0 := rfl
@[simp] theorem begin_status (o : BufId) (inp : List Byte) : (Seq.begin o inp).status = .run := rfl
@[simp] theorem begin_err (o : BufId) (inp : List Byte) : (Seq.begin o inp).err = false := rfl

/-! ## Reset of an agent -/

@[simp] theorem resetAgent_bufs : (s.resetAgent a).bufs = s.bufs := by cases a <;> rfl
@[simp] theorem resetAgent_verdict : (s.resetAgent a).verdict = s.verdict := by cases a <;> rfl
@[simp] theorem resetAgent_ret : (s.resetAgent a).ret = s.ret := by cases a <;> rfl
@[simp] theorem resetAgent_inbox : (s.resetAgent a).inbox = s.inbox := by cases a <;> rfl
@[simp] theorem resetAgent_turns : (s.resetAgent a).turns = s.turns := by cases a <;> rfl
@[simp] theorem resetAgent_seq : (s.resetAgent a).seq a = .reset := by cases a <;> rfl
@[simp] theorem resetAgent_seq_other : (s.resetAgent a).seq (other a) = s.seq (other a) := by cases a <;> rfl
@[simp] theorem resetAgent_port : (s.resetAgent a).port a = .quiet := by cases a <;> rfl
@[simp] theorem resetAgent_port_other : (s.resetAgent a).port (other a) = s.port (other a) := by cases a <;> rfl

/-! ## Calls in flight -/

/-- A call in flight on a buffer, as a proposition (20_memory.md R28). -/
theorem inFlight_iff (o : BufId) : s.inFlight a o = true ↔ (s.seq a).status = .run ∧ (s.seq a).out = some o := by
  simp [State.inFlight]

/-- No call in flight on a buffer. -/
theorem not_inFlight_iff (o : BufId) : s.inFlight a o = false ↔ ((s.seq a).status = .run → (s.seq a).out ≠ some o) := by
  simp [State.inFlight]

/-- A buffer no call uses: neither agent has a call in flight on it (R28). -/
theorem not_inUse_iff (o : BufId) : s.inUse o = false ↔ ∀ c, s.inFlight c o = false := by
  simp only [State.inUse, Bool.or_eq_false_iff]
  exact ⟨fun h c => by cases c; exacts [h.1, h.2], fun h => ⟨h .vdec, h .sdec⟩⟩

variable {s}

/-- Whether a call is in flight on a buffer depends on its agent's sequencer only. -/
theorem inFlight_congr {t : State} {o : BufId} (h : t.seq a = s.seq a) : t.inFlight a o = s.inFlight a o := by
  simp only [State.inFlight, h]

/-- Whether a buffer is in use depends on the two sequencers only. -/
theorem inUse_congr {t : State} {o : BufId} (h : ∀ c, t.seq c = s.seq c) : t.inUse o = s.inUse o := by
  simp only [State.inUse, inFlight_congr _ (h _)]

/-! ## Stops and next states -/

@[simp] theorem andThen_next (f : State → Out) : andThen (.next s) f = f s := rfl
@[simp] theorem andThen_fault (e : Fault) (f : State → Out) : andThen (.fault e) f = .fault e := rfl
@[simp] theorem andThen_refused (e : Refusal) (f : State → Out) : andThen (.refused e) f = .refused e := rfl

/-- Where a chain of two answers a next state, both parts did. -/
theorem andThen_eq_next {r : Out} {f : State → Out} {t : State} (h : andThen r f = .next t) :
    ∃ u, r = .next u ∧ f u = .next t := by
  cases r with
  | next u => exact ⟨u, rfl, h⟩
  | fault e => exact nomatch h
  | refused e => exact nomatch h

end Sys2Proof.Machine
end

