-- ==== Sys2Proof/Laws/Memory.lean ====
section
/-! SUPPORT. The laws of the caller's buffers: read after write, other buffers, and the canonical form. -/

namespace Sys2Proof.Machine

namespace Memory

variable (m : Memory) (k j : Nat) (bs : List Byte)

theorem read_entry_append (m : Memory) (h : ∀ j ∈ m.map Prod.fst, k < j) :
    read (entry k bs ++ m) k = bs := by
  unfold entry
  split
  · rename_i hb
    subst hb
    induction m with
    | nil => rfl
    | cons e m ih =>
      obtain ⟨i, old⟩ := e
      have hk : k < i := h i (by simp)
      have hr : read m k = unlisted := ih fun j hj => h j (by simp [hj])
      simp [read, show i ≠ k by omega, hr]
  · simp [read]

theorem read_entry_append_other (m : Memory) (h : j ≠ k) : read (entry k bs ++ m) j = read m j := by
  unfold entry
  split
  · rfl
  · simp [read, Ne.symm h]

/-- Every listed number is at least the bound of the canonical form. -/
theorem wfFrom_le {lo : Nat} {m : Memory} (h : wfFrom lo m = true) : ∀ j ∈ m.map Prod.fst, lo ≤ j := by
  induction m generalizing lo with
  | nil => simp
  | cons e m ih =>
    obtain ⟨i, old⟩ := e
    simp only [wfFrom, Bool.and_eq_true, decide_eq_true_eq] at h
    intro j hj
    simp only [List.map_cons, List.mem_cons] at hj
    rcases hj with rfl | hj
    · exact h.1.1
    · exact Nat.le_of_succ_le (Nat.le_trans (Nat.succ_le_succ h.1.1) (ih h.2 j hj))

theorem wfFrom_mono {lo lo' : Nat} {m : Memory} (hl : lo' ≤ lo) (h : wfFrom lo m = true) : wfFrom lo' m = true := by
  cases m with
  | nil => rfl
  | cons e m =>
    simp only [wfFrom, Bool.and_eq_true, decide_eq_true_eq] at h ⊢
    exact ⟨⟨Nat.le_trans hl h.1.1, h.1.2⟩, h.2⟩

theorem wfFrom_entry_append {lo : Nat} (hl : lo ≤ k) (h : wfFrom (k + 1) m = true) :
    wfFrom lo (entry k bs ++ m) = true := by
  unfold entry
  split
  · exact wfFrom_mono (by omega) h
  · rename_i hb
    simp [wfFrom, hl, hb, h]

/-- A write keeps the canonical form. -/
theorem wfFrom_write {lo : Nat} {m : Memory} (hl : lo ≤ k) (h : wfFrom lo m = true) :
    wfFrom lo (write m k bs) = true := by
  induction m generalizing lo with
  | nil => simpa [write] using wfFrom_entry_append [] k bs hl rfl
  | cons e m ih =>
    obtain ⟨i, old⟩ := e
    have h' := h
    simp only [wfFrom, Bool.and_eq_true, decide_eq_true_eq] at h'
    obtain ⟨⟨hi, hne⟩, hm⟩ := h'
    unfold write
    split
    · refine wfFrom_entry_append _ k bs hl ?_
      simp only [wfFrom, Bool.and_eq_true, decide_eq_true_eq]
      exact ⟨⟨by omega, hne⟩, hm⟩
    · split
      · rename_i he
        subst he
        exact wfFrom_entry_append _ k bs hl hm
      · simp only [wfFrom, Bool.and_eq_true, decide_eq_true_eq]
        exact ⟨⟨hi, hne⟩, ih (by omega) hm⟩

/-- Reading a buffer after writing it. -/
theorem read_write_from {lo : Nat} {m : Memory} (h : wfFrom lo m = true) : read (write m k bs) k = bs := by
  induction m generalizing lo with
  | nil => simpa [write] using read_entry_append k bs [] (by simp)
  | cons e m ih =>
    obtain ⟨i, old⟩ := e
    have h' := h
    simp only [wfFrom, Bool.and_eq_true, decide_eq_true_eq] at h'
    unfold write
    split
    · rename_i hk
      refine read_entry_append k bs _ fun j hj => ?_
      simp only [List.map_cons, List.mem_cons] at hj
      rcases hj with rfl | hj
      · exact hk
      · have := wfFrom_le h'.2 j hj
        omega
    · split
      · rename_i he
        subst he
        exact read_entry_append _ bs _ fun j hj => by have := wfFrom_le h'.2 j hj; omega
      · rename_i h1 h2
        simp [read, show i ≠ k by omega, ih h'.2]

/-- A write leaves every other buffer alone. -/
theorem read_write_other (h : j ≠ k) : read (write m k bs) j = read m j := by
  induction m with
  | nil => simpa [write] using read_entry_append_other k j bs [] h
  | cons e m ih =>
    obtain ⟨i, old⟩ := e
    unfold write
    split
    · exact read_entry_append_other k j bs _ h
    · split
      · rename_i he
        subst he
        rw [read_entry_append_other _ j bs _ h]
        simp [read, Ne.symm h]
      · simp [read, ih]

variable {m}

/-- Writing keeps the canonical form. -/
theorem wf_write (h : m.wf = true) : (m.write k bs).wf = true := wfFrom_write k bs (Nat.zero_le k) h

/-- Appending keeps the canonical form. -/
theorem wf_append (h : m.wf = true) : (m.append k bs).wf = true := wf_write k _ h

/-- Reading a buffer after writing it. -/
theorem read_write (h : m.wf = true) : (m.write k bs).read k = bs := read_write_from k bs h

/-- A buffer after an append: the bytes stand at its end (20_memory.md R24). -/
theorem read_append (h : m.wf = true) : (m.append k bs).read k = m.read k ++ bs := read_write k _ h

/-- An append leaves every other buffer alone. -/
theorem read_append_other (h : j ≠ k) : (m.append k bs).read j = m.read j := read_write_other m k j _ h

/-- Reading a buffer after writing bytes to it, in any form of the list. -/
theorem read_write_of_ne_nil (m : Memory) (k : Nat) {bs : List Byte} (h : bs ≠ []) :
    read (write m k bs) k = bs := by
  have he : entry k bs = [(k, bs)] := by simp [entry, unlisted, h]
  induction m with
  | nil => simp [write, he, read]
  | cons e m ih =>
    obtain ⟨i, old⟩ := e
    unfold write
    split
    · simp [he, read]
    · split
      · simp [he, read]
      · simp [read, show i ≠ k by omega, ih]

/-- A buffer after an append of at least one byte, in any form of the list. -/
theorem read_append_of_ne_nil (m : Memory) (k : Nat) {bs : List Byte} (h : bs ≠ []) :
    (m.append k bs).read k = m.read k ++ bs := read_write_of_ne_nil m k (by simp [h])

end Memory

end Sys2Proof.Machine
end

