-- ==== Sys2Proof/Laws/Operands.lean ====
section
/-! SUPPORT. The alphabet and the lane arithmetic: what each pure function of Machine/Operands.lean computes. -/

namespace Sys2Proof

namespace Lanes

variable {α β γ : Type}

@[simp] theorem get_map (f : α → β) (v : Lanes α) (i : Fin 8) : (v.map f).get i = f (v.get i) := by
  fin_cases i <;> rfl

@[simp] theorem get_zipWith (f : α → β → γ) (v : Lanes α) (w : Lanes β) (i : Fin 8) :
    (v.zipWith f w).get i = f (v.get i) (w.get i) := by
  fin_cases i <;> rfl

@[simp] theorem get_fill (a : α) (i : Fin 8) : (fill a).get i = a := by
  fin_cases i <;> rfl

@[simp] theorem get_ofFn (f : Fin 8 → α) (i : Fin 8) : (ofFn f).get i = f i := by
  fin_cases i <;> rfl

end Lanes

namespace Machine

/-- The sextet of a byte as a number (30_encoding.md R34). -/
theorem sextetOf_toNat {b : Byte} {x : Sextet} (h : sextetOf b = some x) : x.toNat = sextetNat b := by
  unfold sextetOf at h
  unfold sextetNat
  have := b.isLt
  split at h
  · cases h; rw [if_pos ‹_›, BitVec.toNat_ofNat]; omega
  rw [if_neg ‹_›]
  split at h
  · cases h; rw [if_pos ‹_›, BitVec.toNat_ofNat]; omega
  rw [if_neg ‹_›]
  split at h
  · cases h; rw [if_pos ‹_›, BitVec.toNat_ofNat]; omega
  rw [if_neg ‹_›]
  split at h
  · cases h; rw [if_pos ‹_›]; rfl
  rw [if_neg ‹_›]
  split at h
  · cases h; rw [if_pos ‹_›]; rfl
  · cases h

/-- A byte has no sextet exactly when it is invalid (30_encoding.md R34, R36). -/
theorem sextetOf_eq_none_iff (b : Byte) : sextetOf b = none ↔ valid b = false := by
  unfold sextetOf valid
  constructor
  · intro h
    repeat' split at h
    all_goals first | (cases h; done) | simp only [decide_eq_false_iff_not]; omega
  · intro h
    simp only [decide_eq_false_iff_not] at h
    repeat' rw [if_neg (by omega)]

set_option maxRecDepth 20000 in
/-- The offset added to a byte gives its sextet, for every valid byte (43_vector_group.md R75). -/
theorem lane_sextet : ∀ b : Byte, (sextetOf b).map (BitVec.setWidth 8) = if valid b then some (add8 b (offset b)) else none := by
  decide

/-- A valid byte has a sextet. -/
theorem sextetOf_of_valid {b : Byte} (h : valid b = true) : ∃ x, sextetOf b = some x := by
  cases hx : sextetOf b with
  | none => exact absurd ((sextetOf_eq_none_iff b).mp hx) (by simp [h])
  | some x => exact ⟨x, rfl⟩

/-- A byte with a sextet is valid. -/
theorem valid_of_sextetOf {b : Byte} {x : Sextet} (h : sextetOf b = some x) : valid b = true := by
  cases hv : valid b with
  | true => rfl
  | false => rw [(sextetOf_eq_none_iff b).mpr hv] at h; cases h

/-- The lane of a byte that has a sextet holds that sextet (43_vector_group.md R75). -/
theorem lane_of_sextetOf {b : Byte} {x : Sextet} (h : sextetOf b = some x) : add8 b (offset b) = x.setWidth 8 := by
  have hl := lane_sextet b
  rw [h, valid_of_sextetOf h] at hl
  simpa using hl.symm

/-- A pad lane holds sextet 0 (43_vector_group.md R75). -/
theorem sextetOf_pad : sextetOf PAD = some 0 := by decide

/-- A sextet is below 64. -/
theorem sextetNat_lt (b : Byte) : sextetNat b < 64 := by
  unfold sextetNat
  repeat' split
  all_goals omega

end Machine

end Sys2Proof
end

