-- ==== Sys2Proof/Laws/Group.lean ====
section
/-! SUPPORT. One group on each decoder: what the fold, the lanes and the whole group operation compute. -/

namespace Sys2Proof.Machine

/-- A fold that loses no bit adds one base-64 digit (41_scalar_reference.md R52). -/
theorem fold_toNat {acc : Acc} {x : Sextet} (h : acc.toNat < 2 ^ 26) : (fold acc x).toNat = acc.toNat * 64 + x.toNat := by
  have hx := x.isLt
  unfold fold
  rw [BitVec.toNat_or, BitVec.toNat_shiftLeft, BitVec.toNat_setWidth, Nat.mod_eq_of_lt (by omega : x.toNat < 2 ^ 32)]
  have h1 : acc.toNat <<< 6 = acc.toNat * 64 := by rw [Nat.shiftLeft_eq]
  rw [Nat.mod_eq_of_lt (by omega), ← Nat.shiftLeft_add_eq_or_of_lt (by omega), h1]

/-- The number a list of bytes folds to. -/
def foldNat (a : Nat) (g : List Byte) : Nat := g.foldl (fun n b => n * 64 + sextetNat b) a

/-- A group of valid bytes folds to its base-64 value (R52, R55). -/
theorem foldGroup_valid {acc : Acc} {g : List Byte} (hv : g.all valid = true) (h : (acc.toNat + 1) * 64 ^ g.length ≤ 2 ^ 32) :
    (foldGroup acc g).2 = none ∧ (foldGroup acc g).1.toNat = foldNat acc.toNat g := by
  induction g generalizing acc with
  | nil => exact ⟨rfl, rfl⟩
  | cons b g ih =>
    simp only [List.all_cons, Bool.and_eq_true] at hv
    obtain ⟨x, hx⟩ := sextetOf_of_valid hv.1
    have hn := sextetOf_toNat hx
    have hlt := sextetNat_lt b
    have h26 : acc.toNat < 2 ^ 26 := by
      have : 64 ≤ 64 ^ (b :: g).length := by
        rw [List.length_cons, pow_succ]; exact Nat.le_mul_of_pos_left _ (by positivity)
      have := Nat.mul_le_mul_left (acc.toNat + 1) this
      omega
    have hf := fold_toNat (x := x) h26
    have := ih (acc := fold acc x) hv.2 (by
      rw [hf]
      refine Nat.le_trans ?_ h
      rw [List.length_cons, pow_succ, Nat.mul_comm (64 ^ g.length) 64, ← Nat.mul_assoc]
      exact Nat.mul_le_mul_right _ (by omega))
    simp only [foldGroup, hx]
    rw [hf, hn] at this
    exact this

/-- The fold stops at the first invalid byte (R55, R100). -/
theorem foldGroup_invalid {acc : Acc} {g : List Byte} : (foldGroup acc g).2 = g.find? (fun b => !valid b) := by
  induction g generalizing acc with
  | nil => rfl
  | cons b g ih =>
    cases hx : sextetOf b with
    | none => simp [foldGroup, hx, (sextetOf_eq_none_iff b).mp hx]
    | some x => simp [foldGroup, hx, valid_of_sextetOf hx, ih]

/-- The left-alignment as a multiplication (R53). -/
theorem align_toNat {acc : Acc} {len : Nat} : (align acc len).toNat = acc.toNat * 2 ^ (32 - 6 * len) % 2 ^ 32 := by
  unfold align
  rw [BitVec.toNat_shiftLeft, Nat.shiftLeft_eq]

/-- Eight bits of a vector from bit `i` up. -/
theorem extract_byte {w : Nat} (a : BitVec w) (i : Nat) : a.extractLsb' i 8 = BitVec.ofNat 8 (a.toNat / 2 ^ i) := by
  apply BitVec.eq_of_toNat_eq
  simp [BitVec.extractLsb'_toNat, Nat.shiftRight_eq_div_pow]

/-- The four big-endian bytes by division (R54). -/
theorem bigEndian_eq (acc : Acc) : bigEndian acc = [BitVec.ofNat 8 (acc.toNat / 2 ^ 24), BitVec.ofNat 8 (acc.toNat / 2 ^ 16), BitVec.ofNat 8 (acc.toNat / 2 ^ 8), BitVec.ofNat 8 acc.toNat] := by
  simp [bigEndian, extract_byte]

/-- What SDEC emits for a valid group is its 24-bit value, cut to `N(L)` bytes (30_encoding.md R33). -/
theorem scalar_bytes {g : List Byte} (hl : lengthOk g.length = true) (hv : g.all valid = true) :
    (bigEndian (align (foldGroup 0 g).1 g.length)).take (nBytes g.length) = groupBytes g := by
  have hlen : 1 ≤ g.length ∧ g.length ≤ 4 := by simpa [lengthOk] using hl
  have hpow : ((0 : Acc).toNat + 1) * 64 ^ g.length ≤ 2 ^ 32 := by
    have : 64 ^ g.length ≤ 64 ^ 4 := Nat.pow_le_pow_right (by omega) hlen.2
    simp; omega
  have hf := (foldGroup_valid hv hpow).2
  rw [bigEndian_eq, align_toNat, hf]
  unfold groupBytes
  have key : foldNat 0 g * 2 ^ (32 - 6 * g.length) % 2 ^ 32 = groupValue g * 2 ^ 8 := by
    match g, hlen with
    | [a], _ => 
      have := sextetNat_lt a
      simp [foldNat, groupValue]; omega
    | [a, b], _ =>
      have := sextetNat_lt a; have := sextetNat_lt b
      simp [foldNat, groupValue]; omega
    | [a, b, c], _ =>
      have := sextetNat_lt a; have := sextetNat_lt b; have := sextetNat_lt c
      simp [foldNat, groupValue]; omega
    | [a, b, c, d], _ =>
      have := sextetNat_lt a; have := sextetNat_lt b; have := sextetNat_lt c; have := sextetNat_lt d
      simp [foldNat, groupValue]; omega
  have h0 : (0 : Acc).toNat = 0 := rfl
  rw [h0, key]
  have e1 : groupValue g * 2 ^ 8 / 2 ^ 24 = groupValue g / 2 ^ 16 := by omega
  have e2 : groupValue g * 2 ^ 8 / 2 ^ 16 = groupValue g / 2 ^ 8 := by omega
  have e3 : groupValue g * 2 ^ 8 / 2 ^ 8 = groupValue g := by omega
  rw [e1, e2, e3]
  have hn : nBytes g.length ≤ 3 := by unfold nBytes; omega
  generalize nBytes g.length = k at hn ⊢
  interval_cases k <;> rfl
/-- The hash stage is the hash of each byte. -/
theorem hashLanes_eq (v : Lanes Byte) : addLanes (srl8 v 4) (cmpeq8 v slash) = v.map hash := rfl

/-- The sextet lane of a byte (43_vector_group.md R75). -/
def laneSextet (b : Byte) : Byte := add8 b (offset b)

/-- The sextet stage is the sextet of each lane. -/
theorem sext_eq (v : Lanes Byte) : addLanes v (shuffle8 LUT (v.map hash)) = v.map laneSextet := rfl

/-- One packed byte: the low half of a lane's widened sextet with the high half of the next lane's. -/
def packByte (x y : Byte) (k l : Nat) : Byte :=
  (x.setWidth 16 <<< k).extractLsb' 0 8 ||| (y.setWidth 16 <<< l).extractLsb' 8 8

/-- The three lanes that can be appended, after the ten stages (43_vector_group.md R82). -/
theorem datapath_comp (g : List Byte) (r : VRegs) :
    (datapath g r).vComp.l0 = packByte (laneSextet (g.getD 0 PAD)) (laneSextet (g.getD 1 PAD)) 2 4 ∧
    (datapath g r).vComp.l1 = packByte (laneSextet (g.getD 1 PAD)) (laneSextet (g.getD 2 PAD)) 4 6 ∧
    (datapath g r).vComp.l2 = packByte (laneSextet (g.getD 2 PAD)) (laneSextet (g.getD 3 PAD)) 6 8 :=
  ⟨rfl, rfl, rfl⟩

/-- The stages keep the loaded length. -/
theorem datapath_gLen (g : List Byte) (r : VRegs) : (datapath g r).gLen = g.length := rfl
/-- The stages keep the flag VVALID writes. -/
theorem datapath_isOk (g : List Byte) (r : VRegs) : (datapath g r).isOk = isOkOf (loadLanes g) := rfl

/-- Pad lanes are valid, so the flag says that every character of the group is (R73). -/
theorem isOkOf_loadLanes {g : List Byte} (h : g.length ≤ 4) : isOkOf (loadLanes g) = g.all valid := by
  have hp : valid PAD = true := by decide
  match g, h with
  | [], _ => simp [isOkOf, andr, inrange8, loadLanes, Lanes.map, hp]
  | [a], _ => simp [isOkOf, andr, inrange8, loadLanes, Lanes.map, hp]
  | [a, b], _ => simp [isOkOf, andr, inrange8, loadLanes, Lanes.map, hp]
  | [a, b, c], _ => simp [isOkOf, andr, inrange8, loadLanes, Lanes.map, hp, Bool.and_assoc]
  | [a, b, c, d], _ => simp [isOkOf, andr, inrange8, loadLanes, Lanes.map, hp, Bool.and_assoc]

/-- An OR of numbers with no bit in common is their sum (42_lane_primitives.md R64). -/
theorem or_eq_add {a b k : Nat} (hd : a % 2 ^ k = 0) (hb : b < 2 ^ k) : a ||| b = a + b := by
  obtain ⟨c, rfl⟩ := Nat.dvd_of_mod_eq_zero hd
  rw [Nat.mul_comm, ← Nat.shiftLeft_eq, Nat.shiftLeft_add_eq_or_of_lt hb]

/-- A packed byte as a sum (43_vector_group.md R79). -/
theorem packByte_toNat {x y : Byte} {k l : Nat} (hx : x.toNat < 64) (hy : y.toNat < 64)
    (hkl : (k = 2 ∧ l = 4) ∨ (k = 4 ∧ l = 6) ∨ (k = 6 ∧ l = 8)) :
    (packByte x y k l).toNat = x.toNat * 2 ^ k % 256 + y.toNat * 2 ^ l / 256 := by
  unfold packByte
  rw [BitVec.toNat_or, extract_byte, extract_byte]
  simp only [BitVec.toNat_ofNat, BitVec.toNat_shiftLeft, BitVec.toNat_setWidth, Nat.shiftLeft_eq]
  have h1 : x.toNat % 2 ^ 16 = x.toNat := Nat.mod_eq_of_lt (by omega)
  have h2 : y.toNat % 2 ^ 16 = y.toNat := Nat.mod_eq_of_lt (by omega)
  rw [h1, h2]
  obtain ⟨rfl, rfl⟩ | ⟨rfl, rfl⟩ | ⟨rfl, rfl⟩ := hkl
  · rw [or_eq_add (k := 2) (by omega) (by omega)]; omega
  · rw [or_eq_add (k := 4) (by omega) (by omega)]; omega
  · rw [or_eq_add (k := 6) (by omega) (by omega)]; omega

/-- The lane of a valid byte holds its sextet (R75). -/
theorem laneSextet_toNat {b : Byte} (h : valid b = true) : (laneSextet b).toNat = sextetNat b := by
  obtain ⟨x, hx⟩ := sextetOf_of_valid h
  have := x.isLt
  rw [laneSextet, lane_of_sextetOf hx, ← sextetOf_toNat hx, BitVec.toNat_setWidth, Nat.mod_eq_of_lt (by omega)]

/-- What VDEC appends for a valid group is its 24-bit value, cut to `N(L)` bytes (30_encoding.md R33). -/
theorem vector_bytes {g : List Byte} (r : VRegs) (hl : lengthOk g.length = true) (hv : g.all valid = true) :
    (datapath g r).outBytes = groupBytes g := by
  have hlen : 1 ≤ g.length ∧ g.length ≤ 4 := by simpa [lengthOk] using hl
  have hd : ∀ i, valid (g.getD i PAD) = true := by
    intro i
    rw [List.getD_eq_getElem?_getD]
    cases hi : g[i]? with
    | none => decide
    | some b => exact List.all_eq_true.mp hv b (List.mem_of_getElem? hi)
  have hs : ∀ i, sextetNat (g.getD i PAD) = (g.map sextetNat).getD i 0 := by
    intro i
    rw [List.getD_eq_getElem?_getD, List.getD_eq_getElem?_getD, List.getElem?_map]
    cases g[i]? with
    | none => decide
    | some b => rfl
  have h64 : ∀ i, (laneSextet (g.getD i PAD)).toNat < 64 := fun i => by
    rw [laneSextet_toNat (hd i)]; exact sextetNat_lt _
  have c := datapath_comp g r
  have p0 := packByte_toNat (h64 0) (h64 1) (.inl ⟨rfl, rfl⟩)
  have p1 := packByte_toNat (h64 1) (h64 2) (.inr (.inl ⟨rfl, rfl⟩))
  have p2 := packByte_toNat (h64 2) (h64 3) (.inr (.inr ⟨rfl, rfl⟩))
  rw [laneSextet_toNat (hd _), laneSextet_toNat (hd _), hs, hs] at p0 p1 p2
  have l0 := h64 0; have l1 := h64 1; have l2 := h64 2; have l3 := h64 3
  rw [laneSextet_toNat (hd _), hs] at l0 l1 l2 l3
  have b0 : (datapath g r).vComp.l0 = BitVec.ofNat 8 (groupValue g / 2 ^ 16) := by
    apply BitVec.eq_of_toNat_eq
    rw [c.1, p0, BitVec.toNat_ofNat, groupValue]; omega
  have b1 : (datapath g r).vComp.l1 = BitVec.ofNat 8 (groupValue g / 2 ^ 8) := by
    apply BitVec.eq_of_toNat_eq
    rw [c.2.1, p1, BitVec.toNat_ofNat, groupValue]; omega
  have b2 : (datapath g r).vComp.l2 = BitVec.ofNat 8 (groupValue g) := by
    apply BitVec.eq_of_toNat_eq
    rw [c.2.2, p2, BitVec.toNat_ofNat, groupValue]; omega
  unfold VRegs.outBytes groupBytes
  rw [datapath_gLen, Lanes.toList, b0, b1, b2]
  have hn : nBytes g.length ≤ 3 := by unfold nBytes; omega
  generalize nBytes g.length = k at hn ⊢
  interval_cases k <;> rfl

/-! ## The group operations -/

/-- A row's append to a buffer in no call's use. -/
theorem appendRow_free {a : AgentId} {o : BufId} {s : State} (h : s.inUse o = false) (bs : List Byte) :
    appendRow a o bs s = .next (s.appended a o bs) := by
  simp [appendRow, h]

/-- Everything a row's append can do. -/
theorem appendRow_next {a : AgentId} {o : BufId} {s t : State} {bs : List Byte} (h : appendRow a o bs s = .next t) :
    s.inUse o = false ∧ t = s.appended a o bs := by
  unfold appendRow at h
  split at h
  · cases h
  · exact ⟨by simpa using ‹¬ s.inUse o = true›, by cases h; rfl⟩

/-- A call's append to its own buffer, and the advance of `pos` with it. -/
theorem appendStep_free {a : AgentId} {o : BufId} {s : State} (ho : (s.seq a).out = some o)
    (h : s.inFlight (other a) o = false) (bs : List Byte) :
    appendStep a bs s = .next ((s.appended a o bs).setSeq a (s.seq a).advance) := by
  simp [appendStep, ho, h]

/-- Everything a call's append can do. -/
theorem appendStep_next {a : AgentId} {s t : State} {bs : List Byte} (h : appendStep a bs s = .next t) :
    ∃ o, (s.seq a).out = some o ∧ s.inFlight (other a) o = false ∧
      t = (s.appended a o bs).setSeq a (s.seq a).advance := by
  unfold appendStep at h
  split at h
  · cases h
  · rename_i o ho
    split at h
    · cases h
    · exact ⟨o, ho, by simpa using ‹¬ s.inFlight _ _ = true›, by cases h; rfl⟩

section

variable {g : List Byte} {s : State}

/-- A scalar group of valid bytes: its bytes go to the append (41_scalar_reference.md R55). -/
theorem groupScalar_valid {k : List Byte → State → Out} {raise : Byte → State → State} (hl : lengthOk g.length = true)
    (hv : g.all valid = true) :
    groupScalar k raise g s = k (groupBytes g) { s with acc := align (foldGroup 0 g).1 g.length } := by
  have h2 : (foldGroup 0 g).2 = none := by
    rw [foldGroup_invalid, List.find?_eq_none]
    intro b hb
    simp [List.all_eq_true.mp hv b hb]
  rw [← scalar_bytes hl hv]
  unfold groupScalar
  split
  · rename_i acc hg
    rw [hg]
    rfl
  · rename_i acc b hg
    rw [hg] at h2
    cases h2

/-- A scalar group with an invalid byte: the first one is raised and nothing is appended (R55). -/
theorem groupScalar_invalid {k : List Byte → State → Out} {raise : Byte → State → State} {b : Byte}
    (hb : g.find? (fun b => !valid b) = some b) :
    groupScalar k raise g s = .next (raise b { s with acc := (foldGroup 0 g).1 }) := by
  have h2 : (foldGroup 0 g).2 = some b := by rw [foldGroup_invalid, hb]
  unfold groupScalar
  split
  · rename_i acc hg
    rw [hg] at h2
    cases h2
  · rename_i acc b' hg
    rw [hg] at h2
    cases h2
    rw [hg]

/-- A vector group of valid bytes: its bytes go to the append (43_vector_group.md R82). -/
theorem groupVector_valid {k : List Byte → State → Out} {raise : State → State} (hl : lengthOk g.length = true)
    (hv : g.all valid = true) : groupVector k raise g s = k (groupBytes g) { s with vdp := datapath g s.vdp } := by
  have hlen : g.length ≤ 4 := by simp [lengthOk] at hl; omega
  simp [groupVector, appendGroup, datapath_isOk, isOkOf_loadLanes hlen, hv, vector_bytes s.vdp hl hv]

/-- A vector group with an invalid byte: the error, and nothing is appended (R82). -/
theorem groupVector_invalid {k : List Byte → State → Out} {raise : State → State} (hl : g.length ≤ 4)
    (hv : g.all valid = false) : groupVector k raise g s = .next (raise { s with vdp := datapath g s.vdp }) := by
  simp [groupVector, appendGroup, datapath_isOk, isOkOf_loadLanes hl, hv]

end

end Sys2Proof.Machine
end

