-- ==== Sys2Proof/Laws/Call.lean ====
section
/-! SUPPORT. A call step by step: padding, groups, one step of an agent, and everything a whole run of a call does. -/

namespace Sys2Proof.Machine

/-- STRIP never lengthens (40_shared_preprocessing.md R47). -/
theorem stripEnd_le (inp : List Byte) (n : Nat) : stripEnd inp n ≤ n := by
  unfold stripEnd; split
  · omega
  · split <;> omega

/-- "At most two bytes are dropped" (R47). -/
theorem stripEnd_ge (inp : List Byte) (n : Nat) : n ≤ stripEnd inp n + 2 := by
  unfold stripEnd; split
  · omega
  · split <;> omega

/-- An empty input has an empty body (R47). -/
theorem stripEnd_zero (inp : List Byte) : stripEnd inp 0 = 0 := by simp [stripEnd]

/-- The body is the first `end` bytes of the input (R47). -/
theorem bodyOf_eq_take (inp : List Byte) : bodyOf inp = inp.take (stripEnd inp inp.length) := by
  obtain ⟨r, rfl⟩ : ∃ r, inp = r.reverse := ⟨inp.reverse, by simp⟩
  match r with
  | [] => simp [bodyOf, stripEnd]
  | [a] => 
    by_cases ha : a = padChar <;> simp [bodyOf, stripEnd, ha]
  | a :: b :: r =>
    by_cases ha : a = padChar
    · by_cases hb : b = padChar
      · subst ha; subst hb
        have : stripEnd (padChar :: padChar :: r).reverse (padChar :: padChar :: r).reverse.length = r.length := by
          unfold stripEnd
          rw [if_pos]
          · simp
          · simp
        rw [this]
        simp [bodyOf]
      · subst ha
        have : stripEnd (padChar :: b :: r).reverse (padChar :: b :: r).reverse.length = r.length + 1 := by
          unfold stripEnd
          rw [if_neg, if_pos]
          · simp
          · simp
          · simp [hb]
        rw [this]
        simp [bodyOf, hb, List.take_append]
    · have : stripEnd (a :: b :: r).reverse (a :: b :: r).reverse.length = r.length + 2 := by
        unfold stripEnd
        rw [if_neg, if_neg]
        · simp
        · simp [ha]
        · simp [ha]
      rw [this]
      simp [bodyOf, ha]

/-- The first group is the first four bytes, or what there is (R49). -/
theorem groupsOf_ne_nil {xs : List Byte} (h : xs ≠ []) : groupsOf xs = xs.take 4 :: groupsOf (xs.drop 4) := by
  match xs with
  | [a] => rfl
  | [a, b] => rfl
  | [a, b, c] => rfl
  | a :: b :: c :: d :: rest => rfl

/-- Every group has 1 to 4 bytes (30_encoding.md R31). -/
theorem groupsOf_lengthOk {xs : List Byte} : ∀ g ∈ groupsOf xs, lengthOk g.length = true := by
  induction xs using groupsOf.induct with
  | case1 a b c d rest ih => 
    intro g hg
    simp only [groupsOf, List.mem_cons] at hg
    rcases hg with rfl | hg
    · rfl
    · exact ih g hg
  | case2 => simp [groupsOf]
  | case3 short h1 h2 => 
    intro g hg
    match short, h1, h2 with
    | [a], _, _ => simp [groupsOf] at hg; subst hg; rfl
    | [a, b], _, _ => simp [groupsOf] at hg; subst hg; rfl
    | [a, b, c], _, _ => simp [groupsOf] at hg; subst hg; rfl
    | a :: b :: c :: d :: rest, h1, _ => exact absurd rfl (h1 a b c d rest)
    | [], _, h2 => exact absurd rfl h2

/-- There are `⌈end / 4⌉` groups (R49). -/
theorem groupsOf_length (xs : List Byte) : (groupsOf xs).length = (xs.length + 3) / 4 := by
  induction xs using groupsOf.induct with
  | case1 a b c d rest ih => simp [groupsOf, ih]; omega
  | case2 => rfl
  | case3 short h1 h2 => 
    match short, h1, h2 with
    | [a], _, _ => simp [groupsOf]
    | [a, b], _, _ => simp [groupsOf]
    | [a, b, c], _, _ => simp [groupsOf]
    | a :: b :: c :: d :: rest, h1, _ => exact absurd rfl (h1 a b c d rest)
    | [], _, h2 => exact absurd rfl h2

/-- What is left of the body at the cursor. -/
def Seq.rest (q : Seq) : List Byte := (q.inp.take q.bodyEnd).drop q.pos

/-- The fetched group is the first of what is left, and the cursor then passes it (R23, R49). -/
theorem nextGroup_eq {q : Seq} (hb : q.bodyEnd ≤ q.inp.length) (hp : q.pos < q.bodyEnd) :
    q.nextGroup = some (q.rest.take 4) ∧ q.rest ≠ [] ∧ q.advance.rest = q.rest.drop 4 := by
  have hr : q.rest = (q.inp.drop q.pos).take (q.bodyEnd - q.pos) := by simp [Seq.rest, List.drop_take]
  refine ⟨?_, ?_, ?_⟩
  · unfold Seq.nextGroup fetchGroup groupLen
    rw [if_pos (by omega), hr, List.take_take]
    rfl
  · intro h
    have := congrArg List.length h
    simp [Seq.rest] at this
    omega
  · simp [Seq.rest, List.drop_drop]

/-- Past the end nothing is left. -/
theorem rest_nil {q : Seq} (hp : q.bodyEnd ≤ q.pos) : q.rest = [] := by
  simp [Seq.rest]; omega

/-- The end test of a call (44_vector_message.md R85). -/
theorem agentStep_end {a : AgentId} {s : State} (h : (s.seq a).bodyEnd ≤ (s.seq a).pos) :
    agentStep a s = .next (s.finished a) := by
  cases a
  · exact if_pos h
  · exact if_pos h

/-- A group produces at least one byte (R50). -/
theorem groupBytes_ne_nil {g : List Byte} (h : lengthOk g.length = true) : groupBytes g ≠ [] := by
  have hlen : 1 ≤ g.length ∧ g.length ≤ 4 := by simpa [lengthOk] using h
  have : nBytes g.length ≠ 0 := by unfold nBytes; omega
  simp [groupBytes, this]

/-- A group produces `N(L)` bytes (R50). -/
theorem groupBytes_length {g : List Byte} (h : lengthOk g.length = true) : (groupBytes g).length = nBytes g.length := by
  have hlen : 1 ≤ g.length ∧ g.length ≤ 4 := by simpa [lengthOk] using h
  have : nBytes g.length ≤ 3 := by unfold nBytes; omega
  simp [groupBytes]; omega

section

variable {a : AgentId} {s t u : State}

/-! ## What an agent does leaves the rest alone -/

/-- Two steps of one agent leave the rest as before. -/
theorem SameOutside.trans (h : SameOutside a s t) (k : SameOutside a t u) : SameOutside a s u :=
  ⟨k.sequencer.trans h.sequencer, k.port.trans h.port, fun e => (k.lanes e).trans (h.lanes e),
   fun e => ⟨(k.accumulator e).1.trans (h.accumulator e).1, (k.accumulator e).2.trans (h.accumulator e).2⟩,
   k.verdict.trans h.verdict, k.ret.trans h.ret, k.inbox.trans h.inbox, k.turns.trans h.turns⟩

/-- Only the working registers of agent `a` changed (10_state.md R13): VDEC's lane vectors, SDEC's `acc`. -/
def Worked (a : AgentId) (s u : State) : Prop :=
  match a with
  | .vdec => ∃ r : VRegs, (r.gLen ≤ 4 ∨ r.gLen = s.vdp.gLen) ∧ u = { s with vdp := r }
  | .sdec => ∃ x : Acc, u = { s with acc := x }

/-- The state after agent `a`'s call takes `InvalidByte(b)`; VDEC records no byte (60_exceptions.md R98). -/
def raised (a : AgentId) (b : Byte) (s : State) : State :=
  match a with
  | .vdec => raiseV s
  | .sdec => raiseS b s

/-- The state after a running call appends and advances `pos` with it (20_memory.md R24). -/
def stepped (a : AgentId) (o : BufId) (bs : List Byte) (s : State) : State :=
  (s.appended a o bs).setSeq a (s.seq a).advance

theorem Worked.refl (a : AgentId) (s : State) : Worked a s s := by
  cases a
  · exact ⟨s.vdp, .inr rfl, rfl⟩
  · exact ⟨s.acc, rfl⟩

/-- A stage of the datapath works on VDEC's lane vectors. -/
theorem Worked.stage {s : State} (f : VRegs → VRegs) (hf : (f s.vdp).gLen = s.vdp.gLen) :
    Worked .vdec s { s with vdp := f s.vdp } := ⟨_, .inr hf, rfl⟩

theorem Worked.seq (h : Worked a s u) (c : AgentId) : u.seq c = s.seq c := by
  cases a
  · obtain ⟨r, -, rfl⟩ := h; cases c <;> rfl
  · obtain ⟨x, rfl⟩ := h; cases c <;> rfl

theorem Worked.port (h : Worked a s u) (c : AgentId) : u.port c = s.port c := by
  cases a
  · obtain ⟨r, -, rfl⟩ := h; cases c <;> rfl
  · obtain ⟨x, rfl⟩ := h; cases c <;> rfl

theorem Worked.bufs (h : Worked a s u) : u.bufs = s.bufs := by
  cases a
  · obtain ⟨r, -, rfl⟩ := h; rfl
  · obtain ⟨x, rfl⟩ := h; rfl

theorem Worked.errByte (h : Worked a s u) : u.errByte = s.errByte := by
  cases a
  · obtain ⟨r, -, rfl⟩ := h; rfl
  · obtain ⟨x, rfl⟩ := h; rfl

theorem Worked.gLen (h : Worked a s u) : u.vdp.gLen ≤ 4 ∨ u.vdp.gLen = s.vdp.gLen := by
  cases a
  · obtain ⟨r, h, rfl⟩ := h; exact h
  · obtain ⟨x, rfl⟩ := h; exact .inr rfl

theorem Worked.sameOutside (h : Worked a s u) : SameOutside a s u := by
  cases a
  · obtain ⟨r, -, rfl⟩ := h; constructor <;> simp
  · obtain ⟨x, rfl⟩ := h; constructor <;> simp

theorem Worked.rowFrame (h : Worked a s u) : RowFrame a s u := by
  cases a
  · obtain ⟨r, -, rfl⟩ := h
    exact ⟨fun c => by cases c <;> rfl, rfl, rfl, nofun, fun _ => rfl, rfl, rfl, rfl⟩
  · obtain ⟨x, rfl⟩ := h
    exact ⟨fun c => by cases c <;> rfl, rfl, rfl, fun _ => rfl, nofun, rfl, rfl, rfl⟩

@[simp] theorem raised_bufs (b : Byte) : (raised a b s).bufs = s.bufs := by cases a <;> rfl
@[simp] theorem raised_vdp (b : Byte) : (raised a b s).vdp = s.vdp := by cases a <;> rfl
@[simp] theorem raised_seq (b : Byte) : (raised a b s).seq a = (s.seq a).fail := by cases a <;> rfl
@[simp] theorem raised_seq_other (b : Byte) : (raised a b s).seq (other a) = s.seq (other a) := by cases a <;> rfl
@[simp] theorem raised_port (b : Byte) : (raised a b s).port a = .quiet := by cases a <;> rfl
@[simp] theorem stepped_bufs (o : BufId) (bs : List Byte) : (stepped a o bs s).bufs = s.bufs.append o.toNat bs := by cases a <;> rfl
@[simp] theorem stepped_vdp (o : BufId) (bs : List Byte) : (stepped a o bs s).vdp = s.vdp := by cases a <;> rfl
@[simp] theorem stepped_errByte (o : BufId) (bs : List Byte) : (stepped a o bs s).errByte = s.errByte := by cases a <;> rfl
@[simp] theorem stepped_seq (o : BufId) (bs : List Byte) : (stepped a o bs s).seq a = (s.seq a).advance := by cases a <;> rfl
@[simp] theorem stepped_seq_other (o : BufId) (bs : List Byte) : (stepped a o bs s).seq (other a) = s.seq (other a) := by cases a <;> rfl
@[simp] theorem stepped_port (o : BufId) (bs : List Byte) : (stepped a o bs s).port a = .showing bs := by cases a <;> rfl

theorem raised_sameOutside (b : Byte) : SameOutside a s (raised a b s) := by
  cases a <;> exact ⟨rfl, rfl, by simp [raised], by simp [raised], rfl, rfl, rfl, rfl⟩

theorem stepped_sameOutside (o : BufId) (bs : List Byte) : SameOutside a s (stepped a o bs s) := by
  cases a <;> exact ⟨rfl, rfl, by simp, by simp [stepped], rfl, rfl, rfl, rfl⟩

theorem finished_sameOutside : SameOutside a s (s.finished a) := by
  cases a <;> exact ⟨rfl, rfl, by simp, by simp, rfl, rfl, rfl, rfl⟩

theorem begun_sameOutside (o : BufId) (inp : List Byte) : SameOutside a s (s.begun a o inp) := by
  cases a <;> exact ⟨rfl, rfl, by simp, by simp, rfl, rfl, rfl, rfl⟩

/-- What an agent does on its own leaves the other agent's calls in flight as they were. -/
theorem SameOutside.inFlight (h : SameOutside a s t) (o : BufId) : t.inFlight (other a) o = s.inFlight (other a) o :=
  inFlight_congr _ h.sequencer

/-! ## One step of a running call -/

/-- A step on a valid group: its bytes are appended and `pos` advances (R56, R85). -/
theorem agentStep_valid {o : BufId} (hb : (s.seq a).bodyEnd ≤ (s.seq a).inp.length)
    (hp : (s.seq a).pos < (s.seq a).bodyEnd) (ho : (s.seq a).out = some o) (hf : s.inFlight (other a) o = false)
    (hv : ((s.seq a).rest.take 4).all valid = true) :
    ∃ u, agentStep a s = .next (stepped a o (groupBytes ((s.seq a).rest.take 4)) u) ∧ Worked a s u := by
  obtain ⟨hg, hne, -⟩ := nextGroup_eq hb hp
  have hl : lengthOk ((s.seq a).rest.take 4).length = true :=
    groupsOf_lengthOk _ (by rw [groupsOf_ne_nil hne]; exact List.mem_cons_self)
  cases a with
  | vdec =>
    have hw : Worked .vdec s { s with vdp := datapath (s.vseq.rest.take 4) s.vdp } := ⟨_, .inl (by simp [datapath_gLen]), rfl⟩
    refine ⟨_, ?_, hw⟩
    simp only [seq_vdec] at *
    simp only [agentStep, vdecStep, if_neg (Nat.not_le.mpr hp), hg, groupVector_valid hl hv]
    exact appendStep_free (a := .vdec) (s := { s with vdp := datapath (s.vseq.rest.take 4) s.vdp }) ho hf _
  | sdec =>
    have hw : Worked .sdec s { s with acc := align (foldGroup 0 (s.sseq.rest.take 4)).1 (s.sseq.rest.take 4).length } :=
      ⟨_, rfl⟩
    refine ⟨_, ?_, hw⟩
    simp only [seq_sdec] at *
    simp only [agentStep, sdecStep, if_neg (Nat.not_le.mpr hp), hg, groupScalar_valid hl hv]
    exact appendStep_free (a := .sdec)
      (s := { s with acc := align (foldGroup 0 (s.sseq.rest.take 4)).1 (s.sseq.rest.take 4).length }) ho hf _

/-- A step on a group with an invalid byte: the error, nothing appended, `pos` kept (R101). -/
theorem agentStep_invalid {b : Byte} (hb : (s.seq a).bodyEnd ≤ (s.seq a).inp.length)
    (hp : (s.seq a).pos < (s.seq a).bodyEnd) (hv : ((s.seq a).rest.take 4).find? (fun b => !valid b) = some b) :
    ∃ u, agentStep a s = .next (raised a b u) ∧ Worked a s u := by
  obtain ⟨hg, hne, -⟩ := nextGroup_eq hb hp
  have hlt : ((s.seq a).rest.take 4).length ≤ 4 := by simp
  have hall : ((s.seq a).rest.take 4).all valid = false := by
    rw [List.all_eq_false]
    exact ⟨b, List.mem_of_find?_eq_some hv, by simpa using List.find?_some hv⟩
  cases a with
  | vdec =>
    have hw : Worked .vdec s { s with vdp := datapath (s.vseq.rest.take 4) s.vdp } := ⟨_, .inl (by simp [datapath_gLen]), rfl⟩
    refine ⟨_, ?_, hw⟩
    simp only [seq_vdec] at *
    simp only [agentStep, vdecStep, if_neg (Nat.not_le.mpr hp), hg, groupVector_invalid hlt hall]
    rfl
  | sdec =>
    have hw : Worked .sdec s { s with acc := (foldGroup 0 (s.sseq.rest.take 4)).1 } := ⟨_, rfl⟩
    refine ⟨_, ?_, hw⟩
    simp only [seq_sdec] at *
    simp only [agentStep, sdecStep, if_neg (Nat.not_le.mpr hp), hg, groupScalar_invalid hv]
    rfl

/-- A call that runs no further. -/
theorem runCall_over (k : Nat) (h : (s.seq a).status ≠ .run) : runCall a k s = .next s := by
  cases k with
  | zero => rfl
  | succ k => exact if_neg h

/-- Everything a whole run of a call does. -/
theorem runCall_spec (a : AgentId) (o : BufId) (k : Nat) (s : State) (hrun : (s.seq a).status = .run)
    (hb : (s.seq a).bodyEnd ≤ (s.seq a).inp.length) (ho : (s.seq a).out = some o) (hf : s.inFlight (other a) o = false)
    (hk : (groupsOf (s.seq a).rest).length + 1 ≤ k) :
    ∃ t, runCall a k s = .next t ∧ SameOutside a s t ∧ OnlyBuffer o.toNat s t ∧
      t.bufs.read o.toNat = s.bufs.read o.toNat ++ (goodGroups (groupsOf (s.seq a).rest)).flatMap groupBytes ∧
      t.seq a = { s.seq a with
        inp := []
        out := none
        pos := (s.seq a).pos + 4 * (goodGroups (groupsOf (s.seq a).rest)).length
        status := if (s.seq a).rest.all valid then .done else .err
        err := if (s.seq a).rest.all valid then (s.seq a).err else true } ∧
      t.port a = .quiet ∧
      (a = .sdec → t.errByte = ((s.seq a).rest.find? fun b => !valid b).getD s.errByte) := by
  induction k generalizing s with
  | zero => omega
  | succ k ih =>
    have e : runCall a (k + 1) s = andThen (agentStep a s) (runCall a k) := by simp [runCall, hrun]
    rw [e]
    by_cases hp : (s.seq a).bodyEnd ≤ (s.seq a).pos
    · rw [agentStep_end hp, rest_nil hp, andThen_next]
      refine ⟨_, runCall_over k (by simp), finished_sameOutside, ?_, ?_, ?_, ?_, ?_⟩
      · intro j _; simp
      · simp [groupsOf, goodGroups]
      · simp [Seq.finish, groupsOf, goodGroups]
      · simp
      · simp
    · have hp : (s.seq a).pos < (s.seq a).bodyEnd := by omega
      obtain ⟨-, hne, hadv⟩ := nextGroup_eq hb hp
      have hgs := groupsOf_ne_nil hne
      have hl : lengthOk ((s.seq a).rest.take 4).length = true :=
        groupsOf_lengthOk _ (by rw [hgs]; exact List.mem_cons_self)
      have hsplit : (s.seq a).rest = (s.seq a).rest.take 4 ++ (s.seq a).rest.drop 4 := (List.take_append_drop 4 _).symm
      cases hv : ((s.seq a).rest.take 4).all valid with
      | true =>
        obtain ⟨v, ht, hw⟩ := agentStep_valid hb hp ho hf hv
        rw [ht, andThen_next]
        have hseq : (stepped a o (groupBytes ((s.seq a).rest.take 4)) v).seq a = (s.seq a).advance := by
          rw [stepped_seq, hw.seq]
        have hso : SameOutside a s (stepped a o (groupBytes ((s.seq a).rest.take 4)) v) :=
          hw.sameOutside.trans (stepped_sameOutside _ _)
        have hbufs : (stepped a o (groupBytes ((s.seq a).rest.take 4)) v).bufs =
            s.bufs.append o.toNat (groupBytes ((s.seq a).rest.take 4)) := by rw [stepped_bufs, hw.bufs]
        have herr : (stepped a o (groupBytes ((s.seq a).rest.take 4)) v).errByte = s.errByte := by
          rw [stepped_errByte, hw.errByte]
        revert hseq hso hbufs herr
        generalize stepped a o (groupBytes ((s.seq a).rest.take 4)) v = t
        intro hseq hso hbufs herr
        have hrest : (t.seq a).rest = (s.seq a).rest.drop 4 := by rw [hseq, hadv]
        obtain ⟨u, hu, huo, hub, huout, huseq, huport, huerr⟩ := ih t (by rw [hseq]; exact hrun)
          (by rw [hseq]; exact hb) (by rw [hseq]; exact ho) (by rw [hso.inFlight]; exact hf)
          (by rw [hrest]; rw [hgs] at hk; simpa using hk)
        have hallv : (s.seq a).rest.all valid = ((s.seq a).rest.drop 4).all valid := by
          conv_lhs => rw [hsplit, List.all_append, hv, Bool.true_and]
        have hgood : goodGroups (groupsOf (s.seq a).rest) =
            (s.seq a).rest.take 4 :: goodGroups (groupsOf ((s.seq a).rest.drop 4)) := by
          rw [hgs, goodGroups, List.takeWhile_cons, if_pos hv]; rfl
        rw [hrest] at huout huseq huerr
        refine ⟨u, hu, hso.trans huo, ?_, ?_, ?_, huport, ?_⟩
        · intro j hj
          rw [hub j hj, hbufs, Memory.read_append_other _ _ _ hj]
        · rw [huout, hgood, hbufs, Memory.read_append_of_ne_nil _ _ (groupBytes_ne_nil hl)]
          simp
        · rw [huseq, hallv, hgood, hseq]
          simp [Seq.advance]
          omega
        · intro ha
          rw [huerr ha, herr]
          conv_rhs => rw [hsplit, List.find?_append]
          have : ((s.seq a).rest.take 4).find? (fun b => !valid b) = none := by
            rw [List.find?_eq_none]; intro b hb; simp [List.all_eq_true.mp hv b hb]
          rw [this]; rfl
      | false =>
        obtain ⟨b, hb'⟩ : ∃ b, ((s.seq a).rest.take 4).find? (fun b => !valid b) = some b := by
          rw [← Option.isSome_iff_exists, List.find?_isSome]
          rw [List.all_eq_false] at hv
          obtain ⟨x, hx, hx'⟩ := hv
          exact ⟨x, hx, by simpa using hx'⟩
        obtain ⟨v, ht, hw⟩ := agentStep_invalid hb hp hb'
        rw [ht, andThen_next]
        have hallv : (s.seq a).rest.all valid = false := by
          conv_lhs => rw [hsplit, List.all_append, hv, Bool.false_and]
        have hgood : goodGroups (groupsOf (s.seq a).rest) = [] := by
          rw [hgs, goodGroups, List.takeWhile_cons, if_neg (by simp [hv])]
        refine ⟨_, runCall_over k (by simp), hw.sameOutside.trans (raised_sameOutside b), ?_, ?_, ?_, ?_, ?_⟩
        · intro j _; rw [raised_bufs, hw.bufs]
        · rw [hgood]; simp [hw.bufs]
        · rw [raised_seq, hw.seq, hallv, hgood]; simp [Seq.fail]
        · simp
        · intro ha
          subst ha
          conv_rhs => rw [hsplit, List.find?_append, hb']
          rfl

end

end Sys2Proof.Machine
end

