-- ==== Sys2Proof/Laws/Effects.lean ====
section
/-! SUPPORT. Said once: everything a group operation, a step of an agent, a row of the table and a step of the machine can
do when it answers a next state. -/

namespace Sys2Proof.Machine

section

variable {a : AgentId} {s u t : State}

/-! ## What a row that stands alone does -/

/-- A port word as a number (44_vector_message.md R88). -/
theorem portWord_toNat (bs : List Byte) :
    (portWord bs).toNat = (bs.getD 2 0).toNat * 65536 + (bs.getD 1 0).toNat * 256 + (bs.getD 0 0).toNat := by
  unfold portWord
  have h0 := (bs.getD 0 0).isLt; have h1 := (bs.getD 1 0).isLt; have h2 := (bs.getD 2 0).isLt
  simp only [BitVec.toNat_append]
  rw [← Nat.shiftLeft_add_eq_or_of_lt (by omega), ← Nat.shiftLeft_add_eq_or_of_lt (by omega)]
  simp only [Nat.shiftLeft_eq]
  omega

/-- The port shows the append it is written with (R88; log 20). -/
theorem OutShows.showing {bs : List Byte} (h : bs.length ≤ 3) : OutShows bs (.showing bs) := by
  have hp := portWord_toNat bs
  refine ⟨?_, ?_, ?_⟩
  · simp [OutPort.showing]; omega
  · intro k hk
    have h0 := (bs.getD 0 0).isLt; have h1 := (bs.getD 1 0).isLt; have h2 := (bs.getD 2 0).isLt
    rw [List.getElem?_eq_getElem hk]
    congr 1
    show _ = BitVec.extractLsb' (8 * k) 8 (portWord bs)
    rw [extract_byte, hp]
    apply BitVec.eq_of_toNat_eq
    rw [BitVec.toNat_ofNat]
    have e : bs[k] = bs.getD k 0 := by simp [List.getD, hk]
    rw [e]
    have : k = 0 ∨ k = 1 ∨ k = 2 := by omega
    rcases this with rfl | rfl | rfl <;> omega
  · show (portWord bs).toNat < _
    rw [hp]
    match bs, h with
    | [], _ => simp
    | [a], _ => have := a.isLt; simp; omega
    | [a, b], _ => have := a.isLt; have := b.isLt; simp; omega
    | [a, b, c], _ => have := a.isLt; have := b.isLt; have := c.isLt; simp; omega

/-- A quiet port shows no append (log 20). -/
theorem OutShows.quiet : OutShows [] .quiet := .showing (bs := []) (by decide)

/-- Everything an append does to the buffers and the port (20_memory.md R24; R88). -/
theorem Appended.of {o : BufId} {bs : List Byte} (hw : Worked a s u) (hl : bs.length ≤ 3)
    (h : bs ≠ [] ∨ s.bufs.wf = true) : Appended a o bs s (u.appended a o bs) := by
  refine ⟨?_, ?_, ?_⟩
  · rw [appended_bufs, hw.bufs]
    rcases h with h | h
    · exact Memory.read_append_of_ne_nil _ _ h
    · exact Memory.read_append _ _ h
  · intro j hj
    rw [appended_bufs, hw.bufs]
    exact Memory.read_append_other _ _ _ hj
  · rw [appended_port]
    exact .showing hl

/-- What an appending row leaves alone. -/
theorem RowFrame.appended {o : BufId} {bs : List Byte} (h : Worked a s u) : RowFrame a s (u.appended a o bs) := by
  have f := h.rowFrame
  exact ⟨fun c => by rw [appended_seq, f.sequencers], by rw [appended_errByte, f.errByte],
    by rw [appended_port_other, f.port], fun e => by rw [appended_vdp, f.lanes e],
    fun e => by rw [appended_acc, f.accumulator e], by rw [appended_verdict, f.verdict],
    by rw [appended_inbox, f.inbox], by rw [appended_turns, f.turns]⟩

/-- What a row that raises leaves alone. -/
theorem RowFrame.raised {b : Option Byte} (h : Worked a s u) : RowFrame a s (raiseRow a b u) := by
  have f := h.rowFrame
  exact ⟨fun c => by rw [raiseRow_seq, f.sequencers], by rw [raiseRow_errByte, f.errByte],
    by rw [raiseRow_port_other, f.port], fun e => by rw [raiseRow_vdp, f.lanes e],
    fun e => by rw [raiseRow_acc, f.accumulator e], by rw [raiseRow_verdict, f.verdict],
    by rw [raiseRow_inbox, f.inbox], by rw [raiseRow_turns, f.turns]⟩

/-- What a row that raises does (60_exceptions.md R98; log 10). -/
theorem RowRaised.of {b : Option Byte} (h : Worked a s u) : RowRaised a b s (raiseRow a b u) :=
  ⟨by rw [raiseRow_bufs, h.bufs], by simp, by rw [raiseRow_port]; exact .quiet⟩

/-! ## Everything a group, a step, a row can do -/

/-- Everything a vector group can do (43_vector_group.md R82). -/
theorem groupVector_cases {k : List Byte → State → Out} {raise : State → State} {g : List Byte}
    (h : groupVector k raise g s = .next t) :
    (isOkOf (loadLanes g) = true ∧ k (datapath g s.vdp).outBytes { s with vdp := datapath g s.vdp } = .next t) ∨
    (isOkOf (loadLanes g) = false ∧ t = raise { s with vdp := datapath g s.vdp }) := by
  unfold groupVector appendGroup at h
  split at h
  · exact .inl ⟨‹_›, h⟩
  · rename_i hok
    cases h; exact .inr ⟨Bool.eq_false_iff.mpr hok, rfl⟩

/-- Everything a scalar group can do (41_scalar_reference.md R55). -/
theorem groupScalar_cases {k : List Byte → State → Out} {raise : Byte → State → State} {g : List Byte}
    (h : groupScalar k raise g s = .next t) :
    ((foldGroup 0 g).2 = none ∧ ∃ x bs, k bs { s with acc := x } = .next t) ∨
    (∃ b, (foldGroup 0 g).2 = some b ∧ t = raise b { s with acc := (foldGroup 0 g).1 }) := by
  unfold groupScalar at h
  split at h
  · rename_i acc hg
    exact .inl ⟨by rw [hg], _, _, h⟩
  · rename_i acc b hg
    cases h
    exact .inr ⟨b, by rw [hg], by rw [hg]⟩

/-- The group a running call loads is short enough for the lanes (20_memory.md R23). -/
theorem nextGroup_length {q : Seq} {g : List Byte} (h : q.nextGroup = some g) : g.length ≤ 4 := by
  unfold Seq.nextGroup fetchGroup groupLen at h
  split at h
  · cases h; rw [groupAt, List.length_take]; omega
  · cases h

/-- Everything one step of a running agent can do (R56, R85): the end test, a group appended with the cursor's advance,
or the error. -/
theorem agentStep_cases (h : agentStep a s = .next t) :
    ((s.seq a).bodyEnd ≤ (s.seq a).pos ∧ t = s.finished a) ∨
    ((s.seq a).pos < (s.seq a).bodyEnd ∧ ∃ o, (s.seq a).out = some o ∧ s.inFlight (other a) o = false ∧
      ∃ u bs, Worked a s u ∧ t = stepped a o bs u) ∨
    ((s.seq a).pos < (s.seq a).bodyEnd ∧ ∃ u b, Worked a s u ∧ t = raised a b u) := by
  by_cases hp : (s.seq a).bodyEnd ≤ (s.seq a).pos
  · rw [agentStep_end hp] at h
    cases h
    exact .inl ⟨hp, rfl⟩
  · have hp' : (s.seq a).pos < (s.seq a).bodyEnd := by omega
    refine .inr ?_
    cases a with
    | vdec =>
      simp only [agentStep, vdecStep] at h
      rw [seq_vdec] at hp
      rw [if_neg hp] at h
      split at h
      · cases h
      · rename_i g hg
        have hw : Worked .vdec s { s with vdp := datapath g s.vdp } := ⟨_, .inl (nextGroup_length hg), rfl⟩
        rcases groupVector_cases h with ⟨-, h⟩ | ⟨-, rfl⟩
        · obtain ⟨o, ho, hf, rfl⟩ := appendStep_next h
          exact .inl ⟨hp', o, ho, hf, _, _, hw, rfl⟩
        · exact .inr ⟨hp', _, 0, hw, rfl⟩
    | sdec =>
      simp only [agentStep, sdecStep] at h
      rw [seq_sdec] at hp
      rw [if_neg hp] at h
      split at h
      · cases h
      · rcases groupScalar_cases h with ⟨-, x, bs, h⟩ | ⟨b, -, rfl⟩
        · have hw : Worked .sdec s { s with acc := x } := ⟨x, rfl⟩
          obtain ⟨o, ho, hf, rfl⟩ := appendStep_next h
          exact .inl ⟨hp', o, ho, hf, _, bs, hw, rfl⟩
        · exact .inr ⟨hp', _, b, ⟨_, rfl⟩, rfl⟩

/-- Everything START can do (40_shared_preprocessing.md R46). -/
theorem startCall_cases {o : BufId} {inp : List Byte} (h : startCall a o inp s = .next t) :
    MayStart a o s ∧ t = s.begun a o inp := by
  unfold startCall at h
  split at h
  · cases h
  · split at h
    · cases h
    · cases h; exact ⟨⟨‹_›, by simpa using ‹¬ s.inFlight _ _ = true›⟩, rfl⟩

/-- START on an agent that may be started. -/
theorem startCall_ok {o : BufId} {inp : List Byte} (h : MayStart a o s) :
    startCall a o inp s = .next (s.begun a o inp) := by
  simp [startCall, h.1, h.2]

/-- What every step of an agent keeps, a whole run of it keeps. -/
theorem runCall_induct {P : State → Prop} (hstep : ∀ s t, P s → (s.seq a).status = .run → agentStep a s = .next t → P t)
    {k : Nat} (hs : P s) (h : runCall a k s = .next t) : P t := by
  induction k generalizing s with
  | zero => cases h; exact hs
  | succ k ih =>
    unfold runCall at h
    split at h
    · obtain ⟨u, hu, hn⟩ := andThen_eq_next h
      exact ih (hstep s u hs ‹_› hu) hn
    · cases h; exact hs

/-- What a whole call can do. -/
theorem decodeCall_cases {o : BufId} {inp : List Byte} (h : decodeCall a o inp s = .next t) :
    MayStart a o s ∧ ∃ k, runCall a k (s.begun a o inp) = .next t := by
  obtain ⟨u, hu, hn⟩ := andThen_eq_next h
  obtain ⟨hm, rfl⟩ := startCall_cases hu
  exact ⟨hm, _, hn⟩

/-- A whole call, where the agent may be started: it ends with all of it said (R56, R85). -/
theorem decodeCall_spec {o : BufId} {inp : List Byte} (h : MayStart a o s) :
    ∃ t, decodeCall a o inp s = .next t ∧ SameOutside a s t ∧ OnlyBuffer o.toNat s t ∧
      t.bufs.read o.toNat = s.bufs.read o.toNat ++ callBytes inp ∧
      t.seq a = ⟨[], none, inp.length, stripEnd inp inp.length, 4 * (goodGroups (groupsOf (bodyOf inp))).length,
        if (bodyOf inp).all valid then .done else .err, !(bodyOf inp).all valid⟩ ∧
      t.port a = .quiet ∧
      (a = .sdec → t.errByte = ((bodyOf inp).find? fun b => !valid b).getD s.errByte) := by
  have hle := stripEnd_le inp inp.length
  have hrest : (Seq.begin o inp).rest = bodyOf inp := by simp [Seq.rest, bodyOf_eq_take]
  have hlen : (bodyOf inp).length = stripEnd inp inp.length := by rw [bodyOf_eq_take]; simp [hle]
  obtain ⟨t, ht, hso, hb, hout, hseq, hport, herr⟩ := runCall_spec a o (stripEnd inp inp.length / 4 + 2) (s.begun a o inp)
    (by simp) (by simpa using hle) (by simp) (by rw [(begun_sameOutside o inp).inFlight]; exact h.2)
    (by rw [begun_seq, hrest, groupsOf_length, hlen]; omega)
  rw [begun_seq, hrest] at hout hseq herr
  refine ⟨t, ?_, (begun_sameOutside o inp).trans hso, ?_, ?_, ?_, hport, ?_⟩
  · simp only [decodeCall, startCall_ok h, andThen_next, begun_seq, Seq.callSteps, begin_bodyEnd]
    exact ht
  · intro j hj; simpa using hb j hj
  · simpa [callBytes] using hout
  · rw [hseq]
    cases (bodyOf inp).all valid <;> simp
  · intro ha
    rw [herr ha]
    subst ha
    rfl

/-- What a row can do to the state: it answers a value or a verdict, starts a call, works on its agent's registers and then
perhaps appends or raises, or is a whole call. -/
inductive RowEffect (i : Instr) (s t : State) : Prop where
  | value (r : Ret) (hi : agentOfInstr i = none) (ht : t = s.answer r)
  | verdict (x : List Byte) (v : Option Verdict) (hi : i = .checkEq x) (ht : t = { s with verdict := v })
  | start (a : AgentId) (o : BufId) (inp : List Byte) (hi : i = .start a o inp) (hm : MayStart a o s)
      (ht : t = s.begun a o inp)
  | work (a : AgentId) (hi : agentOfInstr i = some a) (hw : Worked a s t)
  | append (a : AgentId) (o : BufId) (u : State) (bs : List Byte) (hi : agentOfInstr i = some a)
      (ho : outOfRow i = some o) (hf : s.inUse o = false) (hw : Worked a s u) (ht : t = u.appended a o bs)
  | error (a : AgentId) (u : State) (b : Option Byte) (hi : agentOfInstr i = some a)
      (hr : (∃ o g, i = .groupS g o) ∨ (∃ o g, i = .groupV g o) ∨ ∃ o, i = .vappend o) (hw : Worked a s u)
      (ht : t = raiseRow a b u)
  | call (a : AgentId) (o : BufId) (inp : List Byte) (k : Nat) (hi : i = callInstr a o inp) (hm : MayStart a o s)
      (ht : runCall a k (s.begun a o inp) = .next t)

/-- What mapping a byte can do (R51). -/
theorem mapByte_cases {b : Byte} (h : mapByte b s = .next t) : ∃ r, t = s.answer r := by
  unfold mapByte at h
  split at h <;> (cases h; exact ⟨_, rfl⟩)

/-- Where a guarded row answers a next state, its guard held. -/
theorem ite_next {c : Bool} {e : Refusal} {r : Out} (h : (if c = true then r else .refused e) = .next t) :
    c = true ∧ r = .next t := by
  split at h
  · exact ⟨‹_›, h⟩
  · cases h

end

/-- Everything a row of the table can do when it answers a next state. -/
theorem exec_cases {i : Instr} {s t : State} (h : exec i s = .next t) : RowEffect i s t := by
  cases i with
  | start a o inp =>
    obtain ⟨hm, rfl⟩ := startCall_cases h
    exact .start a o inp rfl hm rfl
  | part inp pos bodyEnd =>
    simp only [exec, execPart] at h
    split at h
    · split at h
      · cases h; exact .value _ rfl rfl
      · cases h
    · cases h
  | nbytes len =>
    obtain ⟨-, h⟩ := ite_next h
    cases h; exact .value _ rfl rfl
  | sMap b =>
    obtain ⟨r, rfl⟩ := mapByte_cases h
    exact .value r rfl rfl
  | sFold x => cases h; exact .work .sdec rfl ⟨_, rfl⟩
  | sAlign len =>
    obtain ⟨-, h⟩ := ite_next h
    cases h; exact .work .sdec rfl ⟨_, rfl⟩
  | sEmit len o =>
    obtain ⟨-, h⟩ := ite_next h
    obtain ⟨hf, rfl⟩ := appendRow_next h
    exact .append .sdec o s _ rfl rfl hf (.refl _ _) rfl
  | groupS g o =>
    obtain ⟨-, h⟩ := ite_next h
    rcases groupScalar_cases h with ⟨-, x, bs, h⟩ | ⟨b, -, rfl⟩
    · have hw : Worked .sdec s { s with acc := x } := ⟨x, rfl⟩
      obtain ⟨hf, rfl⟩ := appendRow_next h
      exact .append .sdec o _ bs rfl rfl ((inUse_congr hw.seq).symm.trans hf) hw rfl
    · exact .error .sdec _ (some b) rfl (.inl ⟨o, g, rfl⟩) ⟨_, rfl⟩ rfl
  | decodeS o inp =>
    obtain ⟨hm, k, hk⟩ := decodeCall_cases h
    exact .call .sdec o inp k rfl hm hk
  | vload g =>
    obtain ⟨hl, h⟩ := ite_next h
    cases h
    exact .work .vdec rfl ⟨_, .inl (by simp [lengthOk] at hl; exact hl.2), rfl⟩
  | vappend o =>
    simp only [exec, execVappend, appendGroup] at h
    split at h
    · obtain ⟨hf, rfl⟩ := appendRow_next h
      exact .append .vdec o s _ rfl rfl hf (.refl _ _) rfl
    · cases h; exact .error .vdec s none rfl (.inr (.inr ⟨o, rfl⟩)) (.refl _ _) rfl
  | groupV g o =>
    obtain ⟨hl, h⟩ := ite_next h
    have hw : Worked .vdec s { s with vdp := datapath g s.vdp } :=
      ⟨_, .inl (by simp [lengthOk] at hl; exact hl.2), rfl⟩
    rcases groupVector_cases h with ⟨-, h⟩ | ⟨-, rfl⟩
    · obtain ⟨hf, rfl⟩ := appendRow_next h
      exact .append .vdec o _ _ rfl rfl ((inUse_congr hw.seq).symm.trans hf) hw rfl
    · exact .error .vdec _ none rfl (.inr (.inl ⟨o, g, rfl⟩)) hw rfl
  | decodeV o inp =>
    obtain ⟨hm, k, hk⟩ := decodeCall_cases h
    exact .call .vdec o inp k rfl hm hk
  | checkEq x => cases h; exact .verdict x _ rfl rfl
  | padEq p =>
    cases p with
    | last => cases h; exact .value _ rfl rfl
    | secondLast => cases h; exact .value _ rfl rfl
    | body =>
      obtain ⟨r, rfl⟩ := mapByte_cases (b := padChar) h
      exact .value r rfl rfl
  | vhash => cases h; exact .work .vdec rfl (.stage stageHash rfl)
  | vvalid => cases h; exact .work .vdec rfl (.stage stageValid rfl)
  | vlookup => cases h; exact .work .vdec rfl (.stage stageLookup rfl)
  | vsext => cases h; exact .work .vdec rfl (.stage stageSext rfl)
  | vwiden => cases h; exact .work .vdec rfl (.stage stageWiden rfl)
  | vsplit => cases h; exact .work .vdec rfl (.stage stageSplit rfl)
  | vrot => cases h; exact .work .vdec rfl (.stage stageRot rfl)
  | vmerge => cases h; exact .work .vdec rfl (.stage stageMerge rfl)
  | vcompact => cases h; exact .work .vdec rfl (.stage stageCompact rfl)
  | _ => cases h; exact .value _ rfl rfl

/-- Everything a step of the machine can do: the decoders' own step, a reset, a buffer handed over, a row, or a rejected
word's answer (log 1, log 8). -/
inductive StepEffect (s t : State) : Prop where
  | rest (hi : s.inbox = []) (hq : ∀ a, (s.seq a).status ≠ .run) (ht : t = s)
  | auto (a : AgentId) (u : State) (hu : u.bufs = s.bufs ∧ u.vdp = s.vdp ∧ ∀ c, u.seq c = s.seq c)
      (hr : (s.seq a).status = .run) (hq : s.inbox = [] ∨ s.inbox.head? = some .quiet) (ht : agentStep a u = .next t)
  | still (rest : List Stimulus) (hi : s.inbox = .quiet :: rest) (ht : t = { s with inbox := rest })
  | reset (a : AgentId) (rest : List Stimulus) (hi : s.inbox = .rst a :: rest)
      (ht : t = State.resetAgent { s with inbox := rest } a)
  | supply (o : BufId) (bs : List Byte) (rest : List Stimulus) (hi : s.inbox = .supply o bs :: rest)
      (hf : s.inUse o = false) (ht : t = { s with inbox := rest, bufs := s.bufs.write o.toNat bs })
  | row (w : FetchWord) (i : Instr) (rest : List Stimulus) (hi : s.inbox = .word w :: rest) (hd : decode w = .ok i)
      (ht : RowEffect i { s with inbox := rest } t)
  | answer (w : FetchWord) (r : Ret) (rest : List Stimulus) (hi : s.inbox = .word w :: rest)
      (ht : t = State.answer { s with inbox := rest } r)

/-- What the decoders do on their own. -/
theorem autoStep_cases {s t : State} (h : autoStep s = .next t) :
    ((∀ a, (s.seq a).status ≠ .run) ∧ t = s) ∨
    ∃ a u, (u.bufs = s.bufs ∧ u.vdp = s.vdp ∧ ∀ c, u.seq c = s.seq c) ∧ (s.seq a).status = .run ∧ agentStep a u = .next t := by
  unfold autoStep at h
  split at h
  · rename_i hr
    refine .inr ⟨Config.freeTurn s.turns, { s with turns := s.turns + 1 }, ⟨rfl, rfl, ?_⟩, ?_, h⟩
    · intro c; cases c <;> rfl
    · cases Config.freeTurn s.turns
      · exact hr.1
      · exact hr.2
  · split at h
    · exact .inr ⟨.vdec, s, ⟨rfl, rfl, fun _ => rfl⟩, ‹_›, h⟩
    · split at h
      · exact .inr ⟨.sdec, s, ⟨rfl, rfl, fun _ => rfl⟩, ‹_›, h⟩
      · cases h
        refine .inl ⟨?_, rfl⟩
        intro a; cases a <;> assumption

/-- Everything a step of the machine can do when it answers a next state. -/
theorem step_cases {s t : State} (h : step s = .next t) : StepEffect s t := by
  unfold step nextMove at h
  split at h
  · rcases autoStep_cases h with ⟨hq, rfl⟩ | ⟨a, u, hu, hr, ht⟩
    · exact .rest ‹_› hq rfl
    · exact .auto a u hu hr (.inl ‹_›) ht
  · rename_i e rest hi
    cases e with
    | quiet =>
      rcases autoStep_cases h with ⟨-, rfl⟩ | ⟨a, u, hu, hr, ht⟩
      · exact .still rest hi rfl
      · refine .auto a u ⟨hu.1, hu.2.1, fun c => (hu.2.2 c).trans (by cases c <;> rfl)⟩ ?_ (.inr (by rw [hi]; rfl)) ht
        cases a <;> exact hr
    | rst a => cases h; exact .reset a rest hi rfl
    | supply o bs =>
      simp only [serve, supplyBuffer] at h
      split at h
      · cases h
      · rename_i hf
        cases h
        exact .supply o bs rest hi (Bool.eq_false_iff.mpr hf) rfl
    | word w =>
      simp only [serve, runWord] at h
      split at h
      · exact .row w _ rest hi ‹_› (exec_cases h)
      · rename_i e he
        cases e <;> simp only [rejectWord] at h
        case emptyGroup => cases h; exact .answer w _ rest hi rfl
        case invalidByte b =>
          obtain ⟨r, rfl⟩ := mapByte_cases h
          exact .answer w r rest hi rfl
        all_goals cases h

end Sys2Proof.Machine
end

