-- ==== Sys2Proof/Laws/PerInstr.lean ====
section
/-! SUPPORT. The family EncodesItsRow: the word `encode` writes for an instruction is a word of the instruction's own row
of spec/opcode_table.json (30_encoding.md R41, R34, R35, R32). -/

namespace Sys2Proof.Laws.EncodesItsRow

/-- One row of the table: the port its words stand at, and the bits that are fixed. -/
inductive TableRow where
  /-- An operation row: `match` over the 6-bit catalogue key, `mask` 0x3F. -/
  | operation (key : Nat)
  /-- A symbol row: the byte, `mask` 0xFF. -/
  | symbol (byte : Nat)
  /-- A group format: its length; `mask` 0. -/
  | group (len : Nat)
  deriving DecidableEq, Repr

/-- The word is one of the row's. -/
def TableRow.holds : TableRow → FetchWord → Prop
  | .operation k, .key (b :: _) => b.toNat &&& 0x3F = k ∧ b.toNat < 64
  | .symbol c, .text (b :: _) => b.toNat &&& 0xFF = c
  | .group n, .group _ len => len.toNat = n
  | .operation _, .key [] => False
  | .operation _, .text _ => False
  | .operation _, .group _ _ => False
  | .symbol _, .text [] => False
  | .symbol _, .key _ => False
  | .symbol _, .group _ _ => False
  | .group _, .key _ => False
  | .group _, .text _ => False

/-- The row of an instruction, as the table has it. -/
def rowOf : Instr → TableRow
  | .start _ _ _ => .operation 0x00
  | .strip _ => .operation 0x01
  | .part _ _ _ => .operation 0x02
  | .nbytes _ => .operation 0x03
  | .sMap _ => .operation 0x04
  | .sFold _ => .operation 0x05
  | .sAlign _ => .operation 0x06
  | .sEmit _ _ => .operation 0x07
  | .groupS _ _ => .operation 0x08
  | .decodeS _ _ => .operation 0x09
  | .pSrl8 _ _ => .operation 0x0A
  | .pCmpeq8 _ _ => .operation 0x0B
  | .pAdd8 _ _ => .operation 0x0C
  | .pShuffle8 _ _ => .operation 0x0D
  | .pInrange8 _ => .operation 0x0E
  | .pAndr _ => .operation 0x0F
  | .pZext16 _ => .operation 0x10
  | .pSllv16 _ _ => .operation 0x11
  | .pLo8 _ => .operation 0x12
  | .pHi8 _ => .operation 0x13
  | .pRotl1 _ => .operation 0x14
  | .pOr8 _ _ => .operation 0x15
  | .pGather8 _ _ => .operation 0x16
  | .vload _ => .operation 0x17
  | .vhash => .operation 0x18
  | .vvalid => .operation 0x19
  | .vlookup => .operation 0x1A
  | .vsext => .operation 0x1B
  | .vwiden => .operation 0x1C
  | .vsplit => .operation 0x1D
  | .vrot => .operation 0x1E
  | .vmerge => .operation 0x1F
  | .vcompact => .operation 0x20
  | .vappend _ => .operation 0x21
  | .groupV _ _ => .operation 0x22
  | .decodeV _ _ => .operation 0x23
  | .checkEq _ => .operation 0x24
  | .symPlus => .symbol 0x2B
  | .symSlash => .symbol 0x2F
  | .sym0 => .symbol 0x30
  | .sym1 => .symbol 0x31
  | .sym2 => .symbol 0x32
  | .sym3 => .symbol 0x33
  | .sym4 => .symbol 0x34
  | .sym5 => .symbol 0x35
  | .sym6 => .symbol 0x36
  | .sym7 => .symbol 0x37
  | .sym8 => .symbol 0x38
  | .sym9 => .symbol 0x39
  | .symUpA => .symbol 0x41
  | .symUpB => .symbol 0x42
  | .symUpC => .symbol 0x43
  | .symUpD => .symbol 0x44
  | .symUpE => .symbol 0x45
  | .symUpF => .symbol 0x46
  | .symUpG => .symbol 0x47
  | .symUpH => .symbol 0x48
  | .symUpI => .symbol 0x49
  | .symUpJ => .symbol 0x4A
  | .symUpK => .symbol 0x4B
  | .symUpL => .symbol 0x4C
  | .symUpM => .symbol 0x4D
  | .symUpN => .symbol 0x4E
  | .symUpO => .symbol 0x4F
  | .symUpP => .symbol 0x50
  | .symUpQ => .symbol 0x51
  | .symUpR => .symbol 0x52
  | .symUpS => .symbol 0x53
  | .symUpT => .symbol 0x54
  | .symUpU => .symbol 0x55
  | .symUpV => .symbol 0x56
  | .symUpW => .symbol 0x57
  | .symUpX => .symbol 0x58
  | .symUpY => .symbol 0x59
  | .symUpZ => .symbol 0x5A
  | .symLoA => .symbol 0x61
  | .symLoB => .symbol 0x62
  | .symLoC => .symbol 0x63
  | .symLoD => .symbol 0x64
  | .symLoE => .symbol 0x65
  | .symLoF => .symbol 0x66
  | .symLoG => .symbol 0x67
  | .symLoH => .symbol 0x68
  | .symLoI => .symbol 0x69
  | .symLoJ => .symbol 0x6A
  | .symLoK => .symbol 0x6B
  | .symLoL => .symbol 0x6C
  | .symLoM => .symbol 0x6D
  | .symLoN => .symbol 0x6E
  | .symLoO => .symbol 0x6F
  | .symLoP => .symbol 0x70
  | .symLoQ => .symbol 0x71
  | .symLoR => .symbol 0x72
  | .symLoS => .symbol 0x73
  | .symLoT => .symbol 0x74
  | .symLoU => .symbol 0x75
  | .symLoV => .symbol 0x76
  | .symLoW => .symbol 0x77
  | .symLoX => .symbol 0x78
  | .symLoY => .symbol 0x79
  | .symLoZ => .symbol 0x7A
  | .padEq _ => .symbol 0x3D
  | .g4 _ _ _ _ => .group 4
  | .g3 _ _ _ => .group 3
  | .g2 _ _ => .group 2
  | .g1 _ => .group 1

/-- The instruction's word is a word of its row. -/
def Statement (i : Instr) : Prop := (rowOf i).holds (encode i)

theorem start (a : AgentId) (o : BufId) (inp : List Byte) : Statement (.start a o inp) := ⟨rfl, by decide⟩
theorem strip (inp : List Byte) : Statement (.strip inp) := ⟨rfl, by decide⟩
theorem part (inp : List Byte) (pos : Nat) (bodyEnd : Nat) : Statement (.part inp pos bodyEnd) := ⟨rfl, by decide⟩
theorem nbytes (len : Nat) : Statement (.nbytes len) := ⟨rfl, by decide⟩
theorem sMap (b : Byte) : Statement (.sMap b) := ⟨rfl, by decide⟩
theorem sFold (x : Sextet) : Statement (.sFold x) := ⟨rfl, by decide⟩
theorem sAlign (len : Nat) : Statement (.sAlign len) := ⟨rfl, by decide⟩
theorem sEmit (len : Nat) (o : BufId) : Statement (.sEmit len o) := ⟨rfl, by decide⟩
theorem groupS (g : List Byte) (o : BufId) : Statement (.groupS g o) := ⟨rfl, by decide⟩
theorem decodeS (o : BufId) (inp : List Byte) : Statement (.decodeS o inp) := ⟨rfl, by decide⟩
theorem pSrl8 (v : Lanes Byte) (k : BitVec 3) : Statement (.pSrl8 v k) := ⟨rfl, by decide⟩
theorem pCmpeq8 (v : Lanes Byte) (c : Byte) : Statement (.pCmpeq8 v c) := ⟨rfl, by decide⟩
theorem pAdd8 (v : Lanes Byte) (w : Lanes Byte) : Statement (.pAdd8 v w) := ⟨rfl, by decide⟩
theorem pShuffle8 (t : Lanes Byte) (ix : Lanes Byte) : Statement (.pShuffle8 t ix) := ⟨rfl, by decide⟩
theorem pInrange8 (v : Lanes Byte) : Statement (.pInrange8 v) := ⟨rfl, by decide⟩
theorem pAndr (m : Lanes Bool) : Statement (.pAndr m) := ⟨rfl, by decide⟩
theorem pZext16 (v : Lanes Byte) : Statement (.pZext16 v) := ⟨rfl, by decide⟩
theorem pSllv16 (w : Lanes Half) (k : Lanes Byte) : Statement (.pSllv16 w k) := ⟨rfl, by decide⟩
theorem pLo8 (w : Lanes Half) : Statement (.pLo8 w) := ⟨rfl, by decide⟩
theorem pHi8 (w : Lanes Half) : Statement (.pHi8 w) := ⟨rfl, by decide⟩
theorem pRotl1 (v : Lanes Byte) : Statement (.pRotl1 v) := ⟨rfl, by decide⟩
theorem pOr8 (v : Lanes Byte) (w : Lanes Byte) : Statement (.pOr8 v w) := ⟨rfl, by decide⟩
theorem pGather8 (v : Lanes Byte) (ix : Lanes (BitVec 3)) : Statement (.pGather8 v ix) := ⟨rfl, by decide⟩
theorem vload (g : List Byte) : Statement (.vload g) := ⟨rfl, by decide⟩
theorem vhash : Statement (.vhash) := ⟨rfl, by decide⟩
theorem vvalid : Statement (.vvalid) := ⟨rfl, by decide⟩
theorem vlookup : Statement (.vlookup) := ⟨rfl, by decide⟩
theorem vsext : Statement (.vsext) := ⟨rfl, by decide⟩
theorem vwiden : Statement (.vwiden) := ⟨rfl, by decide⟩
theorem vsplit : Statement (.vsplit) := ⟨rfl, by decide⟩
theorem vrot : Statement (.vrot) := ⟨rfl, by decide⟩
theorem vmerge : Statement (.vmerge) := ⟨rfl, by decide⟩
theorem vcompact : Statement (.vcompact) := ⟨rfl, by decide⟩
theorem vappend (o : BufId) : Statement (.vappend o) := ⟨rfl, by decide⟩
theorem groupV (g : List Byte) (o : BufId) : Statement (.groupV g o) := ⟨rfl, by decide⟩
theorem decodeV (o : BufId) (inp : List Byte) : Statement (.decodeV o inp) := ⟨rfl, by decide⟩
theorem checkEq (x : List Byte) : Statement (.checkEq x) := ⟨rfl, by decide⟩
theorem symPlus : Statement (.symPlus) := rfl
theorem symSlash : Statement (.symSlash) := rfl
theorem sym0 : Statement (.sym0) := rfl
theorem sym1 : Statement (.sym1) := rfl
theorem sym2 : Statement (.sym2) := rfl
theorem sym3 : Statement (.sym3) := rfl
theorem sym4 : Statement (.sym4) := rfl
theorem sym5 : Statement (.sym5) := rfl
theorem sym6 : Statement (.sym6) := rfl
theorem sym7 : Statement (.sym7) := rfl
theorem sym8 : Statement (.sym8) := rfl
theorem sym9 : Statement (.sym9) := rfl
theorem symUpA : Statement (.symUpA) := rfl
theorem symUpB : Statement (.symUpB) := rfl
theorem symUpC : Statement (.symUpC) := rfl
theorem symUpD : Statement (.symUpD) := rfl
theorem symUpE : Statement (.symUpE) := rfl
theorem symUpF : Statement (.symUpF) := rfl
theorem symUpG : Statement (.symUpG) := rfl
theorem symUpH : Statement (.symUpH) := rfl
theorem symUpI : Statement (.symUpI) := rfl
theorem symUpJ : Statement (.symUpJ) := rfl
theorem symUpK : Statement (.symUpK) := rfl
theorem symUpL : Statement (.symUpL) := rfl
theorem symUpM : Statement (.symUpM) := rfl
theorem symUpN : Statement (.symUpN) := rfl
theorem symUpO : Statement (.symUpO) := rfl
theorem symUpP : Statement (.symUpP) := rfl
theorem symUpQ : Statement (.symUpQ) := rfl
theorem symUpR : Statement (.symUpR) := rfl
theorem symUpS : Statement (.symUpS) := rfl
theorem symUpT : Statement (.symUpT) := rfl
theorem symUpU : Statement (.symUpU) := rfl
theorem symUpV : Statement (.symUpV) := rfl
theorem symUpW : Statement (.symUpW) := rfl
theorem symUpX : Statement (.symUpX) := rfl
theorem symUpY : Statement (.symUpY) := rfl
theorem symUpZ : Statement (.symUpZ) := rfl
theorem symLoA : Statement (.symLoA) := rfl
theorem symLoB : Statement (.symLoB) := rfl
theorem symLoC : Statement (.symLoC) := rfl
theorem symLoD : Statement (.symLoD) := rfl
theorem symLoE : Statement (.symLoE) := rfl
theorem symLoF : Statement (.symLoF) := rfl
theorem symLoG : Statement (.symLoG) := rfl
theorem symLoH : Statement (.symLoH) := rfl
theorem symLoI : Statement (.symLoI) := rfl
theorem symLoJ : Statement (.symLoJ) := rfl
theorem symLoK : Statement (.symLoK) := rfl
theorem symLoL : Statement (.symLoL) := rfl
theorem symLoM : Statement (.symLoM) := rfl
theorem symLoN : Statement (.symLoN) := rfl
theorem symLoO : Statement (.symLoO) := rfl
theorem symLoP : Statement (.symLoP) := rfl
theorem symLoQ : Statement (.symLoQ) := rfl
theorem symLoR : Statement (.symLoR) := rfl
theorem symLoS : Statement (.symLoS) := rfl
theorem symLoT : Statement (.symLoT) := rfl
theorem symLoU : Statement (.symLoU) := rfl
theorem symLoV : Statement (.symLoV) := rfl
theorem symLoW : Statement (.symLoW) := rfl
theorem symLoX : Statement (.symLoX) := rfl
theorem symLoY : Statement (.symLoY) := rfl
theorem symLoZ : Statement (.symLoZ) := rfl
theorem padEq (p : PadPlace) : Statement (.padEq p) := rfl
theorem g4 (c0 : Byte) (c1 : Byte) (c2 : Byte) (c3 : Byte) : Statement (.g4 c0 c1 c2 c3) := rfl
theorem g3 (c0 : Byte) (c1 : Byte) (c2 : Byte) : Statement (.g3 c0 c1 c2) := rfl
theorem g2 (c0 : Byte) (c1 : Byte) : Statement (.g2 c0 c1) := rfl
theorem g1 (c0 : Byte) : Statement (.g1 c0) := rfl

end Sys2Proof.Laws.EncodesItsRow
end

