-- ==== Sys2Proof/Tests/Slice0.lean ====
section
/-! SUPPORT. Tests. The expected values are those of 95_test_vectors.md (the vector's name stands in the comment) and of
the encoding tables of 30_encoding.md, never the model's own answers; the second half gives every obligation that has
hypotheses a concrete state and operands that meet them. -/

namespace Sys2Proof.Tests

open Sys2Proof.Machine

/-- A check of the next state; false where the machine stops. -/
def after (r : Out) (p : State → Bool) : Bool :=
  match r with
  | .next t => p t
  | .fault _ => false
  | .refused _ => false

/-- The value returned, if the machine goes on. -/
def returned (r : Out) : Option Ret :=
  match r with
  | .next t => some t.ret
  | .fault _ => none
  | .refused _ => none

/-- Reset, but VDEC runs a call on these bytes, with buffer 0. -/
def vRun (inp : List Byte) : State := { State.reset with vseq := Seq.begin 0 inp }

/-- Reset, but SDEC runs a call on these bytes, with buffer 0. -/
def sRun (inp : List Byte) : State := { State.reset with sseq := Seq.begin 0 inp }

/-- Reset, but both decoders run, on buffers 1 and 2. -/
def bothRun (inp : List Byte) : State := { State.reset with vseq := Seq.begin 1 inp, sseq := Seq.begin 2 inp }

/-- Reset, but these lane registers. -/
def lanes (r : VRegs) : State := { State.reset with vdp := r }

/-- `TWFu` -/
def twfu : List Byte := [0x54, 0x57, 0x46, 0x75]

/-! ## WellFormed refuses -/

theorem test_lengths_0_and_5_and_an_end_beyond_the_input_are_ill_formed :
    WellFormed (.nbytes 0) = false ∧ WellFormed (.nbytes 5) = false ∧ WellFormed (.sAlign 0) = false ∧
    WellFormed (.sAlign 5) = false ∧ WellFormed (.sEmit 0 3) = false ∧ WellFormed (.sEmit 5 3) = false ∧
    WellFormed (.part [0x61] 0 2) = false := by decide

theorem test_groups_of_0_and_5_bytes_are_ill_formed :
    WellFormed (.groupS [] 0) = false ∧ WellFormed (.groupS [1, 2, 3, 4, 5] 0) = false ∧ WellFormed (.vload []) = false ∧
    WellFormed (.vload [1, 2, 3, 4, 5]) = false ∧ WellFormed (.groupV [] 0) = false ∧
    WellFormed (.groupV [1, 2, 3, 4, 5] 0) = false := by decide

/-! ## Decoding: every row by a word written from 30_encoding.md R41, R34, R35, R32 -/

theorem test_decode_shared :
    decode (.key [0b000000, 1, 5, 0x54, 0x51]) = .ok (.start .sdec 5 [0x54, 0x51]) ∧
    decode (.key [0b000001, 0x61, 0x3D]) = .ok (.strip [0x61, 0x3D]) ∧
    decode (.key [0b000010, 1, 1, 0, 1, 0, 0x61, 0x62, 0x63, 0x3D]) = .ok (.part [0x61, 0x62, 0x63, 0x3D] 2 3) ∧
    decode (.key [0b000011, 3]) = .ok (.nbytes 4) := by decide

theorem test_decode_scalar :
    decode (.key [0b000100, 0x61]) = .ok (.sMap 0x61) ∧ decode (.key [0b000101, 63]) = .ok (.sFold 63) ∧
    decode (.key [0b000110, 0]) = .ok (.sAlign 1) ∧ decode (.key [0b000111, 2, 9]) = .ok (.sEmit 3 9) ∧
    decode (.key [0b001000, 9, 0x54, 0x51]) = .ok (.groupS [0x54, 0x51] 9) ∧
    decode (.key [0b001001, 7, 0x54]) = .ok (.decodeS 7 [0x54]) := by decide

theorem test_decode_narrow :
    decode (.key [0b001010, 1, 2, 3, 4, 5, 6, 7, 8, 4]) = .ok (.pSrl8 ⟨1, 2, 3, 4, 5, 6, 7, 8⟩ 4) ∧
    decode (.key [0b001011, 1, 2, 3, 4, 5, 6, 7, 8, 0x2F]) = .ok (.pCmpeq8 ⟨1, 2, 3, 4, 5, 6, 7, 8⟩ 0x2F) ∧
    decode (.key [0b001100, 1, 2, 3, 4, 5, 6, 7, 8, 9, 10, 11, 12, 13, 14, 15, 16]) =
      .ok (.pAdd8 ⟨1, 2, 3, 4, 5, 6, 7, 8⟩ ⟨9, 10, 11, 12, 13, 14, 15, 16⟩) ∧
    decode (.key [0b001101, 1, 2, 3, 4, 5, 6, 7, 8, 9, 10, 11, 12, 13, 14, 15, 16]) =
      .ok (.pShuffle8 ⟨1, 2, 3, 4, 5, 6, 7, 8⟩ ⟨9, 10, 11, 12, 13, 14, 15, 16⟩) ∧
    decode (.key [0b001110, 1, 2, 3, 4, 5, 6, 7, 8]) = .ok (.pInrange8 ⟨1, 2, 3, 4, 5, 6, 7, 8⟩) ∧
    decode (.key [0b001111, 0b00000110]) = .ok (.pAndr ⟨false, true, true, false, false, false, false, false⟩) := by decide

theorem test_decode_wide :
    decode (.key [0b010000, 1, 2, 3, 4, 5, 6, 7, 8]) = .ok (.pZext16 ⟨1, 2, 3, 4, 5, 6, 7, 8⟩) ∧
    decode (.key [0b010001, 1, 2, 0, 0, 0, 0, 0, 0, 0, 0, 0, 0, 0, 0, 3, 4, 2, 4, 6, 8, 2, 4, 6, 8]) =
      .ok (.pSllv16 ⟨0x0201, 0, 0, 0, 0, 0, 0, 0x0403⟩ ⟨2, 4, 6, 8, 2, 4, 6, 8⟩) ∧
    decode (.key [0b010010, 1, 2, 0, 0, 0, 0, 0, 0, 0, 0, 0, 0, 0, 0, 3, 4]) =
      .ok (.pLo8 ⟨0x0201, 0, 0, 0, 0, 0, 0, 0x0403⟩) ∧
    decode (.key [0b010011, 1, 2, 0, 0, 0, 0, 0, 0, 0, 0, 0, 0, 0, 0, 3, 4]) =
      .ok (.pHi8 ⟨0x0201, 0, 0, 0, 0, 0, 0, 0x0403⟩) := by decide

theorem test_decode_moves :
    decode (.key [0b010100, 1, 2, 3, 4, 5, 6, 7, 8]) = .ok (.pRotl1 ⟨1, 2, 3, 4, 5, 6, 7, 8⟩) ∧
    decode (.key [0b010101, 1, 2, 3, 4, 5, 6, 7, 8, 9, 10, 11, 12, 13, 14, 15, 16]) =
      .ok (.pOr8 ⟨1, 2, 3, 4, 5, 6, 7, 8⟩ ⟨9, 10, 11, 12, 13, 14, 15, 16⟩) ∧
    decode (.key [0b010110, 1, 2, 3, 4, 5, 6, 7, 8, 0, 1, 2, 4, 5, 6, 3, 7]) =
      .ok (.pGather8 ⟨1, 2, 3, 4, 5, 6, 7, 8⟩ ⟨0, 1, 2, 4, 5, 6, 3, 7⟩) := by decide

theorem test_decode_vector :
    decode (.key [0b010111, 0x61]) = .ok (.vload [0x61]) ∧ decode (.key [0b011000]) = .ok .vhash ∧
    decode (.key [0b011001]) = .ok .vvalid ∧ decode (.key [0b011010]) = .ok .vlookup ∧
    decode (.key [0b011011]) = .ok .vsext ∧ decode (.key [0b011100]) = .ok .vwiden ∧
    decode (.key [0b011101]) = .ok .vsplit ∧ decode (.key [0b011110]) = .ok .vrot ∧
    decode (.key [0b011111]) = .ok .vmerge ∧ decode (.key [0b100000]) = .ok .vcompact ∧
    decode (.key [0b100001, 9]) = .ok (.vappend 9) ∧ decode (.key [0b100010, 9, 0x61]) = .ok (.groupV [0x61] 9) ∧
    decode (.key [0b100011, 7]) = .ok (.decodeV 7 []) ∧ decode (.key [0b100100, 0x21]) = .ok (.checkEq [0x21]) := by decide

theorem test_decode_symbols_0 :
    [0b00101011, 0b00101111, 0b00110000, 0b00110001, 0b00110010, 0b00110011, 0b00110100, 0b00110101,
     0b00110110, 0b00110111, 0b00111000, 0b00111001, 0b01000001, 0b01000010, 0b01000011, 0b01000100].map (fun (b : Byte) => decode (.text [b])) =
    [.ok .symPlus, .ok .symSlash, .ok .sym0, .ok .sym1, .ok .sym2, .ok .sym3,
     .ok .sym4, .ok .sym5, .ok .sym6, .ok .sym7, .ok .sym8, .ok .sym9,
     .ok .symUpA, .ok .symUpB, .ok .symUpC, .ok .symUpD] := by decide

theorem test_decode_symbols_1 :
    [0b01000101, 0b01000110, 0b01000111, 0b01001000, 0b01001001, 0b01001010, 0b01001011, 0b01001100,
     0b01001101, 0b01001110, 0b01001111, 0b01010000, 0b01010001, 0b01010010, 0b01010011, 0b01010100].map (fun (b : Byte) => decode (.text [b])) =
    [.ok .symUpE, .ok .symUpF, .ok .symUpG, .ok .symUpH, .ok .symUpI, .ok .symUpJ,
     .ok .symUpK, .ok .symUpL, .ok .symUpM, .ok .symUpN, .ok .symUpO, .ok .symUpP,
     .ok .symUpQ, .ok .symUpR, .ok .symUpS, .ok .symUpT] := by decide

theorem test_decode_symbols_2 :
    [0b01010101, 0b01010110, 0b01010111, 0b01011000, 0b01011001, 0b01011010, 0b01100001, 0b01100010,
     0b01100011, 0b01100100, 0b01100101, 0b01100110, 0b01100111, 0b01101000, 0b01101001, 0b01101010].map (fun (b : Byte) => decode (.text [b])) =
    [.ok .symUpU, .ok .symUpV, .ok .symUpW, .ok .symUpX, .ok .symUpY, .ok .symUpZ,
     .ok .symLoA, .ok .symLoB, .ok .symLoC, .ok .symLoD, .ok .symLoE, .ok .symLoF,
     .ok .symLoG, .ok .symLoH, .ok .symLoI, .ok .symLoJ] := by decide

theorem test_decode_symbols_3 :
    [0b01101011, 0b01101100, 0b01101101, 0b01101110, 0b01101111, 0b01110000, 0b01110001, 0b01110010,
     0b01110011, 0b01110100, 0b01110101, 0b01110110, 0b01110111, 0b01111000, 0b01111001, 0b01111010].map (fun (b : Byte) => decode (.text [b])) =
    [.ok .symLoK, .ok .symLoL, .ok .symLoM, .ok .symLoN, .ok .symLoO, .ok .symLoP,
     .ok .symLoQ, .ok .symLoR, .ok .symLoS, .ok .symLoT, .ok .symLoU, .ok .symLoV,
     .ok .symLoW, .ok .symLoX, .ok .symLoY, .ok .symLoZ] := by decide

theorem test_decode_padding_and_groups :
    decode (.text [0b00111101, 0]) = .ok (.padEq .last) ∧ decode (.text [0b00111101, 1]) = .ok (.padEq .secondLast) ∧
    decode (.text [0b00111101, 2]) = .ok (.padEq .body) ∧ decode (.group 0x75465754 4) = .ok (.g4 0x54 0x57 0x46 0x75) ∧
    decode (.group 0x21455754 3) = .ok (.g3 0x54 0x57 0x45) ∧ decode (.group 0xFFFF5154 2) = .ok (.g2 0x54 0x51) ∧
    decode (.group 0x00000061 1) = .ok (.g1 0x61) := by decide

theorem test_decode_rejects_by_name :
    decode (.key []) = .error .emptyWord ∧ decode (.key [37]) = .error (.unnamedOpnum 37) ∧
    decode (.key [63, 1]) = .error (.unnamedOpnum 63) ∧ decode (.key [64]) = .error (.notAKey 64) ∧
    decode (.key [2, 1]) = .error .missingOperand ∧ decode (.key [24, 0]) = .error .extraOperand ∧
    decode (.key [0, 2, 0]) = .error .reservedOperand ∧ decode (.key [5, 64]) = .error .reservedOperand ∧
    decode (.text [0x21]) = .error (.invalidByte 0x21) ∧ decode (.group 0 0) = .error .emptyGroup ∧
    decode (.group 0 5) = .error (.reservedGroupLength 5) := by decide

theorem test_decode_table_words :
    decodeTableWord 8 0x24 = some (.checkEq []) ∧ decodeTableWord 8 0x61 = some .symLoA ∧
    decodeTableWord 8 0x3D = some (.padEq .last) ∧ decodeTableWord 8 0xE1 = some (.g1 0xE1) ∧
    decodeTableWord 16 0x5154 = some (.g2 0x54 0x51) ∧ decodeTableWord 32 0x75465754 = some (.g4 0x54 0x57 0x46 0x75) := by
  decide

/-! ## The machine's own moves -/

-- Z-1
theorem test_reset_values :
    (State.reset.signals .sdec).status = 0 ∧ State.reset.vseq.err = false ∧ State.reset.sseq.pos = 0 := by decide

-- Z-2: the output stays, no error is reported
theorem test_reset_keeps_the_output :
    after (step { vRun twfu with bufs := [(0, [142, 24])], inbox := [.rst .vdec] }) fun t =>
      decide (t.vseq.status = .idle ∧ t.vseq.err = false ∧ t.vseq.pos = 0 ∧ t.bufs = [(0, [142, 24])] ∧ t.vseq.inp = [] ∧ t.vseq.out = none) := by
  decide

theorem test_supply_replaces_a_buffer :
    after (step { State.reset with bufs := [(3, [9])], inbox := [.supply 3 [1, 2]] }) fun t => decide (t.bufs = [(3, [1, 2])]) := by
  decide

-- the first step after reset with a word placed runs that word
theorem test_step_runs_the_placed_word :
    after (step (State.reset.withFetchWord 8 0x61)) fun t => decide (t.ret = .symbol ⟨0x61, some 26, 6, 0xB9⟩ ∧ t.inbox = []) := by
  decide

-- P-1 step 1 on VDEC, on its own
theorem test_a_step_of_vdec_appends_and_advances :
    after (step (vRun twfu)) fun t =>
      decide (t.bufs = [(0, [77, 97, 110])] ∧ t.vseq.pos = 4 ∧ t.vseq.status = .run ∧ t.vport = ⟨0x6E614D, 3⟩) := by decide

-- P-5 step 2 on SDEC: nothing appended, pos names the failing group
theorem test_a_step_of_sdec_raises :
    after (step (sRun [0x21, 0x61, 0x61, 0x61])) fun t =>
      decide (t.bufs = [] ∧ t.sseq.pos = 0 ∧ t.sseq.status = .err ∧ t.errByte = 0x21 ∧ t.sseq.out = none) := by decide

-- T-PORT-9, T-PORT-10
theorem test_group_port_lengths_0_and_5 :
    returned (runWord (.group 0x21212121 0) State.reset) = some (.port ⟨0, 0, true⟩) ∧
    runWord (.group 0 5) State.reset = .refused .reservedGroupLength := ⟨by decide, rfl⟩

-- 30_encoding.md R36
theorem test_text_port_takes_an_invalid_byte :
    returned (runWord (.text [0x21]) State.reset) = some (.invalidByte (some 0x21)) := by decide

-- 60_exceptions.md R99: a row that raises beside a running call leaves the call as it was
theorem test_a_row_does_not_reach_into_a_call :
    after (exec (.groupS [0x21] 7) (sRun twfu)) fun t =>
      decide (t.sseq = (sRun twfu).sseq ∧ t.bufs = [] ∧ t.ret = .invalidByte (some 0x21)) := by decide

/-! ## Shared operations -/

-- Z-3, Z-4
theorem test_start :
    after (exec (.start .sdec 5 twfu) { State.reset with sseq := { Seq.reset with err := true, status := .err, pos := 4 } })
      fun t => decide (t.sseq.n = 4 ∧ t.sseq.bodyEnd = 4 ∧ t.sseq.pos = 0 ∧ t.sseq.err = false ∧ t.sseq.status = .run ∧
        t.sseq.out = some 5) := by decide

-- Z-5
theorem test_start_while_running : exec (.start .vdec 5 twfu) (vRun []) = .refused .startWhileRunning := rfl

-- T-STRIP-1 to T-STRIP-12
theorem test_strip :
    [[], [0x3D], [0x3D, 0x3D], [0x3D, 0x3D, 0x3D], [0x3D, 0x3D, 0x3D, 0x3D], [0x54, 0x51, 0x3D, 0x3D],
     [0x54, 0x57, 0x45, 0x3D], twfu, [0x61, 0x3D], [0x3D, 0x61], [0x61, 0x3D, 0x61],
     [0x41, 0x41, 0x41, 0x41, 0x3D]].map (fun x => returned (exec (.strip x) State.reset)) =
    [0, 0, 0, 1, 2, 2, 3, 4, 1, 2, 3, 4].map fun e => some (.bodyEnd e) := by decide

-- T-PART-10, the last group of P-4
theorem test_part :
    returned (exec (.part [0x6A, 0x68, 0x67, 0x73, 0x64, 0x66, 0x3D] 4 6) State.reset) = some (.group [0x64, 0x66] 2) := by decide

theorem test_part_at_the_end :
    exec (.part twfu 4 4) State.reset = .refused .partAtEnd := rfl

-- S-7
theorem test_nbytes :
    [1, 2, 3, 4].map (fun k => returned (exec (.nbytes k) State.reset)) = [1, 1, 2, 3].map fun k => some (.count k) := by decide

/-! ## Scalar operations -/

-- T-BYTE-7, 11, 12, 14, 19, 22, 26, 29
theorem test_s_map :
    [0x2B, 0x2F, 0x30, 0x39, 0x41, 0x5A, 0x61, 0x7A].map (fun b => returned (exec (.sMap b) State.reset)) =
    [62, 63, 52, 61, 0, 25, 26, 51].map fun x => some (.sextet x) := by decide

-- T-BYTE-1, 6, 8, 10, 15, 16, 18, 23, 25, 30, 32, 37
theorem test_s_map_raises :
    [0x00, 0x2A, 0x2C, 0x2E, 0x3A, 0x3D, 0x40, 0x5B, 0x60, 0x7B, 0x80, 0xFF].all (fun b =>
      returned (exec (.sMap b) State.reset) = some (.invalidByte (some b))) := by decide

-- GROUP.S("Zz9+") of section 3.4
theorem test_s_fold :
    after (exec (.sFold 0x3E) { State.reset with acc := 0x00019CFD }) fun t => decide (t.acc = 0x00673F7E) := by decide

-- section 3.4, L = 1 to 4
theorem test_s_align :
    [(1, 0x0000003F), (2, 0x00000673), (3, 0x00013584), (4, 0x00673F7E)].map (fun (p : Nat × Acc) =>
      after (exec (.sAlign p.1) { State.reset with acc := p.2 }) fun t =>
        decide (some t.acc = [0, 0xFC000000, 0x67300000, 0x4D610000, 0x673F7E00][p.1]?)) = [true, true, true, true] := by decide

-- section 3.4, "TWE"
theorem test_s_emit :
    after (exec (.sEmit 3 6) { State.reset with acc := 0x4D610000, bufs := [(6, [9])] }) fun t =>
      decide (t.bufs = [(6, [9, 77, 97])] ∧ t.sport = ⟨0x00614D, 2⟩) := by decide

-- section 3.4, "Zz"
theorem test_group_s :
    after (exec (.groupS [0x5A, 0x7A] 0) State.reset) fun t => decide (t.bufs = [(0, [103])] ∧ t.acc = 0x67300000) := by decide

-- section 3.4, "a!@a": the first invalid byte, the fold stopped at it
theorem test_group_s_raises :
    after (exec (.groupS [0x61, 0x21, 0x40, 0x61] 0) State.reset) fun t =>
      decide (t.bufs = [] ∧ t.ret = .invalidByte (some 0x21)) := by decide

-- M-7 "SGVsbG8="
theorem test_decode_s :
    after (exec (.decodeS 4 [0x53, 0x47, 0x56, 0x73, 0x62, 0x47, 0x38, 0x3D]) State.reset) fun t =>
      decide (t.bufs = [(4, [72, 101, 108, 108, 111])] ∧ t.sseq.pos = 8 ∧ t.sseq.status = .done ∧ t.result .sdec = some .ok) := by
  decide

-- M-11 "aaaa!aaa"
theorem test_decode_s_raises :
    after (exec (.decodeS 4 [0x61, 0x61, 0x61, 0x61, 0x21, 0x61, 0x61, 0x61]) State.reset) fun t =>
      decide (t.bufs = [(4, [105, 166, 154])] ∧ t.sseq.pos = 4 ∧ t.result .sdec = some (.err (some 0x21))) := by decide

/-! ## Lane primitives (T-PRIM-1 to T-PRIM-19) -/

-- T-PRIM-1
theorem test_p_srl8 :
    returned (exec (.pSrl8 ⟨0x5A, 0x7A, 0x39, 0x2B, 0x2F, 0x41, 0x80, 0xFF⟩ 4) State.reset) =
      some (.lanes8 ⟨0x05, 0x07, 0x03, 0x02, 0x02, 0x04, 0x08, 0x0F⟩) := by decide

-- T-PRIM-4
theorem test_p_cmpeq8 :
    returned (exec (.pCmpeq8 ⟨0x2F, 0x2F, 0x2E, 0x30, 0xAF, 0x2F, 0x00, 0xFF⟩ 0x2F) State.reset) =
      some (.lanes8 ⟨0xFF, 0xFF, 0x00, 0x00, 0x00, 0xFF, 0x00, 0x00⟩) := by decide

-- T-PRIM-5
theorem test_p_add8 :
    returned (exec (.pAdd8 ⟨0x02, 0x05, 0x61, 0x41, 0x40, 0x2F, 0xFF, 0x80⟩ ⟨0xFF, 0x00, 0xB9, 0xBF, 0xBF, 0x10, 0x01, 0x80⟩) State.reset) =
      some (.lanes8 ⟨0x01, 0x05, 0x1A, 0x00, 0xFF, 0x3F, 0x00, 0x00⟩) := by decide

-- T-PRIM-6
theorem test_p_shuffle8 :
    returned (exec (.pShuffle8 ⟨0x00, 0x10, 0x13, 0x04, 0xBF, 0xBF, 0xB9, 0xB9⟩ ⟨0x05, 0x07, 0x03, 0x02, 0x01, 0x04, 0x08, 0x0F⟩) State.reset) =
      some (.lanes8 ⟨0xBF, 0xB9, 0x04, 0x13, 0x10, 0xBF, 0x00, 0xB9⟩) := by decide

-- T-PRIM-8
theorem test_p_inrange8 :
    returned (exec (.pInrange8 ⟨0x40, 0x5B, 0x60, 0x7B, 0x2F, 0x3A, 0x2A, 0x30⟩) State.reset) =
      some (.mask ⟨false, false, false, false, true, false, false, true⟩) := by decide

-- T-PRIM-10
theorem test_p_andr :
    returned (exec (.pAndr ⟨true, true, true, true, true, true, true, false⟩) State.reset) =
      some (.bit false) := by decide

-- T-PRIM-11
theorem test_p_zext16 :
    returned (exec (.pZext16 ⟨0x19, 0x33, 0x3D, 0x3E, 0x3F, 0x00, 0x01, 0x20⟩) State.reset) =
      some (.lanes16 ⟨0x0019, 0x0033, 0x003D, 0x003E, 0x003F, 0x0000, 0x0001, 0x0020⟩) := by decide

-- T-PRIM-13
theorem test_p_sllv16 :
    returned (exec (.pSllv16 ⟨0x00FF, 0x0FFF, 0xFFFF, 0x0001, 0x8000, 0x4000, 0x0400, 0x0100⟩ ⟨0x02, 0x04, 0x06, 0x08, 0x02, 0x04, 0x06, 0x08⟩) State.reset) =
      some (.lanes16 ⟨0x03FC, 0xFFF0, 0xFFC0, 0x0100, 0x0000, 0x0000, 0x0000, 0x0000⟩) := by decide

-- T-PRIM-14
theorem test_p_lo8 :
    returned (exec (.pLo8 ⟨0x0064, 0x0330, 0x0F40, 0x3E00, 0x00FC, 0x0000, 0x0040, 0x2000⟩) State.reset) =
      some (.lanes8 ⟨0x64, 0x30, 0x40, 0x00, 0xFC, 0x00, 0x40, 0x00⟩) := by decide

-- T-PRIM-15
theorem test_p_hi8 :
    returned (exec (.pHi8 ⟨0x0064, 0x0330, 0x0F40, 0x3E00, 0x00FC, 0x0000, 0x0040, 0x2000⟩) State.reset) =
      some (.lanes8 ⟨0x00, 0x03, 0x0F, 0x3E, 0x00, 0x00, 0x00, 0x20⟩) := by decide

-- T-PRIM-17
theorem test_p_rotl1 :
    returned (exec (.pRotl1 ⟨0x01, 0x02, 0x03, 0x04, 0x05, 0x06, 0x07, 0x08⟩) State.reset) =
      some (.lanes8 ⟨0x02, 0x03, 0x04, 0x05, 0x06, 0x07, 0x08, 0x01⟩) := by decide

-- T-PRIM-18
theorem test_p_or8 :
    returned (exec (.pOr8 ⟨0x64, 0x30, 0x40, 0x00, 0xFC, 0x00, 0x40, 0x00⟩ ⟨0x03, 0x0F, 0x3E, 0x00, 0x00, 0x00, 0x20, 0x00⟩) State.reset) =
      some (.lanes8 ⟨0x67, 0x3F, 0x7E, 0x00, 0xFC, 0x00, 0x60, 0x00⟩) := by decide

-- T-PRIM-19
theorem test_p_gather8 :
    returned (exec (.pGather8 ⟨0xA0, 0xA1, 0xA2, 0xA3, 0xA4, 0xA5, 0xA6, 0xA7⟩ ⟨0, 1, 2, 4, 5, 6, 3, 7⟩) State.reset) =
      some (.lanes8 ⟨0xA0, 0xA1, 0xA2, 0xA4, 0xA5, 0xA6, 0xA3, 0xA7⟩) := by decide

/-! ## Vector stages (T-VEC-1 "Zz9+" where no other is named) -/

-- TWE, T-VEC-4
theorem test_vload :
    after (exec (.vload [0x54, 0x57, 0x45]) (lanes VRegs.reset)) fun t =>
      decide (t.vdp.vIn = ⟨0x54, 0x57, 0x45, 0x41, 0x41, 0x41, 0x41, 0x41⟩ ∧ t.vdp.gLen = 3) := by decide

-- T-VEC-3
theorem test_vhash :
    after (exec (.vhash) (lanes { VRegs.reset with vIn := ⟨0x2B, 0x2F, 0x41, 0x41, 0x41, 0x41, 0x41, 0x41⟩ })) fun t =>
      decide (t.vdp.vHash = ⟨0x02, 0x01, 0x04, 0x04, 0x04, 0x04, 0x04, 0x04⟩ ∧ t.vdp.vEq = ⟨0x00, 0xFF, 0x00, 0x00, 0x00, 0x00, 0x00, 0x00⟩) := by decide

-- T-VEC-7
theorem test_vvalid :
    after (exec (.vvalid) (lanes { VRegs.reset with isOk := true, vIn := ⟨0x61, 0x61, 0x21, 0x61, 0x41, 0x41, 0x41, 0x41⟩ })) fun t =>
      decide (t.vdp.vOk = ⟨true, true, false, true, true, true, true, true⟩ ∧ t.vdp.isOk = false) := by decide

-- T-VEC-8
theorem test_vlookup :
    after (exec (.vlookup) (lanes { VRegs.reset with vHash := ⟨0x06, 0x06, 0x06, 0x08, 0x04, 0x04, 0x04, 0x04⟩ })) fun t =>
      decide (t.vdp.vOff = ⟨0xB9, 0xB9, 0xB9, 0x00, 0xBF, 0xBF, 0xBF, 0xBF⟩) := by decide

-- T-VEC-1
theorem test_vsext :
    after (exec (.vsext) (lanes { VRegs.reset with vIn := ⟨0x5A, 0x7A, 0x39, 0x2B, 0x41, 0x41, 0x41, 0x41⟩, vOff := ⟨0xBF, 0xB9, 0x04, 0x13, 0xBF, 0xBF, 0xBF, 0xBF⟩ })) fun t =>
      decide (t.vdp.vSext = ⟨0x19, 0x33, 0x3D, 0x3E, 0x00, 0x00, 0x00, 0x00⟩) := by decide

-- T-VEC-8
theorem test_vwiden :
    after (exec (.vwiden) (lanes { VRegs.reset with vSext := ⟨0x1A, 0x1A, 0x1A, 0x80, 0x00, 0x00, 0x00, 0x00⟩ })) fun t =>
      decide (t.vdp.vWide = ⟨0x0068, 0x01A0, 0x0680, 0x8000, 0x0000, 0x0000, 0x0000, 0x0000⟩) := by decide

-- T-VEC-1
theorem test_vsplit :
    after (exec (.vsplit) (lanes { VRegs.reset with vWide := ⟨0x0064, 0x0330, 0x0F40, 0x3E00, 0x0000, 0x0000, 0x0000, 0x0000⟩ })) fun t =>
      decide (t.vdp.vLo = ⟨0x64, 0x30, 0x40, 0x00, 0x00, 0x00, 0x00, 0x00⟩ ∧ t.vdp.vHi = ⟨0x00, 0x03, 0x0F, 0x3E, 0x00, 0x00, 0x00, 0x00⟩) := by decide

-- T-VEC-1; V-C2
theorem test_vrot :
    after (exec (.vrot) (lanes { VRegs.reset with vHi := ⟨0x00, 0x03, 0x0F, 0x3E, 0x00, 0x00, 0x00, 0x00⟩ })) fun t =>
      decide (t.vdp.vRot = ⟨0x03, 0x0F, 0x3E, 0x00, 0x00, 0x00, 0x00, 0x00⟩) := by decide

-- T-VEC-1
theorem test_vmerge :
    after (exec (.vmerge) (lanes { VRegs.reset with vLo := ⟨0x64, 0x30, 0x40, 0x00, 0x00, 0x00, 0x00, 0x00⟩, vRot := ⟨0x03, 0x0F, 0x3E, 0x00, 0x00, 0x00, 0x00, 0x00⟩ })) fun t =>
      decide (t.vdp.vPack = ⟨0x67, 0x3F, 0x7E, 0x00, 0x00, 0x00, 0x00, 0x00⟩) := by decide

-- T-PRIM-19
theorem test_vcompact :
    after (exec (.vcompact) (lanes { VRegs.reset with vPack := ⟨0xA0, 0xA1, 0xA2, 0xA3, 0xA4, 0xA5, 0xA6, 0xA7⟩ })) fun t =>
      decide (t.vdp.vComp = ⟨0xA0, 0xA1, 0xA2, 0xA4, 0xA5, 0xA6, 0xA3, 0xA7⟩) := by decide

-- T-VEC-3
theorem test_vappend :
    after (exec (.vappend 0) (lanes { VRegs.reset with isOk := true, gLen := 2, vComp := ⟨0xFB, 0xF0, 0x00, 0x00, 0x00, 0x00, 0x00, 0x00⟩ })) fun t =>
      decide (t.bufs = [(0, [251])]) := by decide

-- T-VEC-7
theorem test_vappend_raises :
    after (exec (.vappend 0) (lanes { VRegs.reset with gLen := 4, vComp := ⟨0x69, 0xAD, 0x1A, 0x00, 0x00, 0x00, 0x00, 0x00⟩ })) fun t =>
      decide (t.bufs = [] ∧ t.ret = .invalidByte none) := by decide

-- S-1 "aaaa", V-C2
theorem test_group_v :
    after (exec (.groupV [0x61, 0x61, 0x61, 0x61] 0) State.reset) fun t => decide (t.bufs = [(0, [105, 166, 154])]) := by decide

-- T-VEC-9 "AA,A": its sum is a legal sextet, only the range test rejects it
theorem test_group_v_raises :
    after (exec (.groupV [0x41, 0x41, 0x2C, 0x41] 0) State.reset) fun t =>
      decide (t.bufs = [] ∧ t.ret = .invalidByte none ∧ t.vdp.vPack = ⟨0x00, 0x0F, 0xC0, 0, 0, 0, 0, 0⟩) := by decide

-- M-8 "aaaaa"
theorem test_decode_v :
    after (exec (.decodeV 4 [0x61, 0x61, 0x61, 0x61, 0x61]) State.reset) fun t =>
      decide (t.bufs = [(4, [105, 166, 154, 104])] ∧ t.vseq.pos = 8 ∧ t.vseq.status = .done) := by decide

-- M-17 "a==="
theorem test_decode_v_raises :
    after (exec (.decodeV 4 [0x61, 0x3D, 0x3D, 0x3D]) State.reset) fun t =>
      decide (t.bufs = [] ∧ t.vseq.pos = 0 ∧ t.vseq.bodyEnd = 2 ∧ t.result .vdec = some (.err none)) := by decide

/-! ## The harness, the symbols, the group port -/

-- Q-5 "aaaa!aaa"
theorem test_check_eq :
    after (exec (.checkEq [0x61, 0x61, 0x61, 0x61, 0x21, 0x61, 0x61, 0x61]) State.reset) fun t =>
      decide (t.verdict = some .pass ∧ t.bufs = []) := by decide

-- section 5: the three broken variants
theorem test_judge_fails_on_the_broken_variants :
    judge (some (true, [255, 255, 255])) (some (true, [207, 60, 243])) = .fail ∧
    judge (some (true, [105, 166, 154])) (some (true, [104, 160, 129])) = .fail ∧
    judge (some (false, [])) (some (true, [0, 15, 192])) = .fail := by decide

-- T-BYTE-7, 11, 14, 22, 29
theorem test_symbols :
    [Instr.symPlus, .symSlash, .sym9, .symUpZ, .symLoZ].map (fun i => returned (exec i State.reset)) =
    [⟨0x2B, some 62, 2, 0x13⟩, ⟨0x2F, some 63, 1, 0x10⟩, ⟨0x39, some 61, 3, 0x04⟩, ⟨0x5A, some 25, 5, 0xBF⟩,
     ⟨0x7A, some 51, 7, 0xB9⟩].map fun x => some (.symbol x) := by decide

-- M-14 "a=aa", M-19 "="
theorem test_padding :
    returned (exec (.padEq .last) State.reset) = some .padding ∧
    returned (exec (.padEq .body) State.reset) = some (.invalidByte (some 0x3D)) := by decide

-- T-PORT-2, 3, 5, 6
theorem test_group_port :
    returned (exec (.g4 0x54 0x57 0x46 0x75) State.reset) = some (.port ⟨0x6E614D, 3, true⟩) ∧
    returned (exec (.g3 0x54 0x57 0x45) State.reset) = some (.port ⟨0x00614D, 2, true⟩) ∧
    returned (exec (.g2 0x54 0x51) State.reset) = some (.port ⟨0x00004D, 1, true⟩) ∧
    returned (exec (.g1 0x61) State.reset) = some (.port ⟨0x000068, 1, true⟩) := by decide

-- T-PORT-7
theorem test_group_port_invalid :
    returned (exec (.g4 0x61 0x61 0x21 0x61) State.reset) = some (.port ⟨0, 0, false⟩) := by decide

/-! ## Witnesses: for every obligation with hypotheses, states and operands that meet them, clause by clause -/

-- O3
theorem witness_AgentResetAbandonsTheCall :
    ({ vRun twfu with inbox := [.rst .vdec] } : State).inbox = .rst .vdec :: [] ∧
    ({ State.reset with inbox := [.rst .sdec, .quiet] } : State).inbox = .rst .sdec :: [.quiet] := ⟨rfl, rfl⟩

-- O4: no call on the buffer (VDEC runs on another one); VDEC's call on it; SDEC's call on it
theorem witness_SupplyHandsOverOneBuffer :
    (∃ s : State, s.inbox = .supply 5 [1] :: [] ∧ s.bufs.wf = true ∧ ∀ a, s.inFlight a 5 = false) ∧
    (∃ s : State, s.inbox = .supply 0 [] :: [] ∧ s.bufs.wf = true ∧ ∃ a, s.inFlight a 0 = true) ∧
    ∃ s : State, s.inbox = .supply 0 [] :: [] ∧ s.bufs.wf = true ∧ s.inFlight .sdec 0 = true :=
  ⟨⟨{ vRun twfu with inbox := [.supply 5 [1]], bufs := [(0, [7]), (255, [8])] }, rfl, by decide,
      fun a => by cases a <;> decide⟩,
    ⟨{ vRun twfu with inbox := [.supply 0 []] }, rfl, by decide, .vdec, by decide⟩,
    ⟨{ sRun twfu with inbox := [.supply 0 []] }, rfl, by decide, by decide⟩⟩

-- O5, O38, O41: from reset, after an error, and beside a running call on another buffer
theorem witness_StartBeginsACall :
    MayStart .vdec 7 State.reset ∧ MayStart .sdec 0 { State.reset with sseq := Seq.reset.fail } ∧
    MayStart .sdec 255 (vRun twfu) ∧ MayStart .vdec 1 (sRun twfu) :=
  ⟨⟨by decide, by decide⟩, ⟨by decide, by decide⟩, ⟨by decide, by decide⟩, ⟨by decide, by decide⟩⟩

-- O6
theorem witness_RunningAgentsAndSharedBuffersAreRefused :
    ((vRun twfu).seq .vdec).status = .run ∧
    (((vRun twfu).seq .sdec).status ≠ .run ∧ (vRun twfu).inFlight (other .sdec) 0 = true) ∧
    ((vRun twfu).inUse 0 = true ∧ (sRun twfu).inUse 0 = true) ∧
    (({ vRun twfu with vdp := { VRegs.reset with isOk := true } } : State).inUse 0 = true ∧
      ({ vRun twfu with vdp := { VRegs.reset with isOk := true } } : State).vdp.isOk = true) ∧
    (1 ≤ [(0x61 : Byte)].length ∧ [(0x61 : Byte)].length ≤ 4 ∧ [(0x61 : Byte)].all valid = true) ∧
    (twfu.length ≤ 4 ∧ twfu.all valid = true) := by decide

-- O7: the three endings, and an agent that may be started
theorem witness_StripDropsTrailingPadding :
    [0x54, 0x51, 0x3D, 0x3D] = [0x54, 0x51] ++ [(0x3D : Byte), 0x3D] ∧
    ([(0x3D : Byte), 0x3D, 0x3D] = [0x3D] ++ [0x3D, 0x3D]) ∧
    ([(0x3D : Byte)] = [] ++ [0x3D] ∧ ([] : List Byte).getLast? ≠ some 0x3D) ∧
    ([(0x61 : Byte), 0x3D] = [0x61] ++ [0x3D] ∧ [(0x61 : Byte)].getLast? ≠ some 0x3D) ∧
    twfu.getLast? ≠ some 0x3D ∧ ([] : List Byte).getLast? ≠ some 0x3D ∧ MayStart .sdec 0 State.reset :=
  ⟨by decide, by decide, by decide, by decide, by decide, by decide, by decide, by decide⟩

-- O8: a full group, a last short one, the end, and an end beyond IN
theorem witness_PartTakesTheNextGroup :
    (0 < 4 ∧ 4 ≤ twfu.length) ∧ (2 < 3 ∧ 3 ≤ twfu.length) ∧ (4 ≤ 4 ∧ 4 ≤ twfu.length) ∧ (0 ≤ 0 ∧ 0 ≤ ([] : List Byte).length) ∧
    twfu.length < 5 := by decide

-- O9, O15, O16: the ends of the range of L, and the accumulator at its bound
theorem witness_NbytesIsOneOneTwoThree :
    (1 ≤ 1 ∧ 1 ≤ 4) ∧ (1 ≤ 4 ∧ 4 ≤ 4) ∧ (0x3F#32).toNat < 2 ^ (6 * 1) ∧ (0xFFFFFF#32).toNat < 2 ^ (6 * 4) := by decide

-- O10
theorem witness_IllFormedRowsAreRefused :
    WellFormed (.nbytes 0) = false ∧ WellFormed (.sAlign 5) = false ∧ WellFormed (.groupV [1, 2, 3, 4, 5] 0) = false ∧
    WellFormed (.part [] 0 1) = false := by decide

-- O11, O12, O60
theorem witness_MapGivesSextetOrRaises :
    valid 0x2B = true ∧ valid 0x7A = true ∧ (valid 0x2C = false ∧ (0x2C : Byte) ≠ 0x3D) ∧ valid 0x00 = false ∧
    valid 0xFF = false ∧ (valid 0x3D = false ∧ MayStart .vdec 0 State.reset) ∧ ⟨.symLoZ, 0x7A, 51, 7, 0xB9⟩ ∈ symbolTable :=
  ⟨by decide, by decide, by decide, by decide, by decide, ⟨by decide, by decide, by decide⟩, by decide⟩

-- O13: the body is one invalid byte, an invalid byte before valid ones, and a padding character that STRIP leaves
theorem witness_EveryInvalidByteHasOneEffect :
    (valid 0x21 = false ∧ (bodyOf [0x21]).head? = some 0x21 ∧ (bodyOf [0x21, 0x41, 0x41, 0x41, 0x41]).head? = some 0x21) ∧
    (valid 0x3D = false ∧ (bodyOf [0x3D, 0x3D, 0x3D]).head? = some 0x3D) ∧ MayStart .sdec 255 State.reset :=
  ⟨by decide, by decide, ⟨by decide, by decide⟩⟩

-- O14
theorem witness_FoldShiftsInASextet : [(63 : Sextet), 63, 63, 63].length ≤ 4 ∧ ([] : List Sextet).length ≤ 4 := by decide

-- O16, O17, O32, O33, O34, O40: buffers in no call's use and in use
theorem witness_EmitAppendsTheTopBytes :
    State.reset.inUse 0 = false ∧ (sRun twfu).inUse 1 = false ∧ (vRun twfu).inUse 0 = true ∧ (sRun twfu).inUse 0 = true := by
  decide

-- O17: groups of 1 and 4 valid bytes; an invalid byte first, last and alone
theorem witness_ScalarGroupAppendsOrRaises :
    ([(0x2F : Byte)].all valid = true ∧ twfu.all valid = true ∧ State.reset.inUse 255 = false) ∧
    (([(0x61 : Byte), 0x61, 0x61] ++ 0x80 :: []).length ≤ 4 ∧ [(0x61 : Byte), 0x61, 0x61].all valid = true ∧ valid 0x80 = false) ∧
    (([] ++ (0x3D : Byte) :: [0x21, 0x61, 0x61]).length ≤ 4 ∧ ([] : List Byte).all valid = true ∧ valid 0x3D = false) := by
  decide

-- O22
theorem witness_VloadPlacesTheGroup :
    (1 ≤ [(0x2F : Byte)].length ∧ [(0x2F : Byte)].length ≤ 4) ∧ (1 ≤ twfu.length ∧ twfu.length ≤ 4) := by decide

-- O26: a valid lane with its class's offset, and a pad lane
theorem witness_VsextAddsTheOffset :
    ∃ s : State, (∀ i, s.vdp.vOff.get i = LUT.get (Fin.ofNat 8 ((Machine.hash (s.vdp.vIn.get i)).toNat % 8))) ∧
      valid (s.vdp.vIn.get 0) = true ∧ s.vdp.vIn.get 7 = 0x41 :=
  ⟨lanes { VRegs.reset with vIn := ⟨0x2F, 0x7A, 0x80, 0x2C, 0x41, 0x41, 0x41, 0x41⟩, vOff := ⟨0x10, 0xB9, 0x00, 0x13, 0xBF, 0xBF, 0xBF, 0xBF⟩ },
    by decide, by decide, by decide⟩

-- O30: the largest and the smallest sextets
theorem witness_VmergeFormsThePackedBytes :
    63 < 64 ∧ 0 < 64 ∧ (lanes { VRegs.reset with vSext := ⟨63, 63, 0, 63, 0, 0, 0, 0⟩ }).vdp.vSext =
      ⟨BitVec.ofNat 8 63, BitVec.ofNat 8 63, BitVec.ofNat 8 0, BitVec.ofNat 8 63, 0, 0, 0, 0⟩ := by decide

-- O32: append, shared buffer, error
theorem witness_VappendAppendsOrRaises :
    (∃ s : State, s.vdp.isOk = true ∧ s.bufs.wf = true ∧ s.vdp.gLen ≤ 4 ∧ s.inUse 0 = false) ∧
    (∃ s : State, s.vdp.isOk = true ∧ s.inUse 0 = true) ∧ State.reset.vdp.isOk = false :=
  ⟨⟨{ lanes { VRegs.reset with isOk := true, gLen := 4 } with bufs := [(0, [1])] }, by decide⟩,
    ⟨{ vRun twfu with vdp := { VRegs.reset with isOk := true } }, by decide⟩, rfl⟩

-- O33: characters valid, pad lanes included; one not valid
theorem witness_VectorGroupIsTheClosedFormula :
    (1 ≤ [(0x61 : Byte)].length ∧ [(0x61 : Byte)].length ≤ 4) ∧
    (valid ([(0x61 : Byte)].getD 0 0x41) && valid ([(0x61 : Byte)].getD 1 0x41) && valid ([(0x61 : Byte)].getD 2 0x41) &&
      valid ([(0x61 : Byte)].getD 3 0x41)) = true ∧ State.reset.inUse 0 = false ∧
    (valid ([(0x21 : Byte)].getD 0 0x41) && valid ([(0x21 : Byte)].getD 1 0x41) && valid ([(0x21 : Byte)].getD 2 0x41) &&
      valid ([(0x21 : Byte)].getD 3 0x41)) = false := by
  decide

-- O34: buffers in no call's use, from reset and beside two calls; a valid and an invalid group
theorem witness_GroupOperationsAgree :
    (1 ≤ twfu.length ∧ twfu.length ≤ 4 ∧ twfu.all valid = true) ∧ [(0x61 : Byte), 0xFF].all valid = false ∧
    State.reset.inUse 0 = false ∧ (bothRun twfu).inUse 3 = false := by
  decide

-- O35
theorem witness_GroupFormatsShowTheirBytes :
    (groupRow twfu = some (.g4 0x54 0x57 0x46 0x75) ∧ twfu.all valid = true) ∧
    (groupRow [0x21] = some (.g1 0x21) ∧ [(0x21 : Byte)].all valid = false) := by decide

-- O36: `g_len` 0, 5 and 7; 1 and 4 with characters that differ above `g_len` only
theorem witness_GroupPortEdges :
    (0 : BitVec 3).toNat = 0 ∧ 5 ≤ (5 : BitVec 3).toNat ∧ 5 ≤ (7 : BitVec 3).toNat ∧
    (1 ≤ (1 : BitVec 3).toNat ∧ (1 : BitVec 3).toNat ≤ 4 ∧
      (0xFFFFFF61#32).toNat % 2 ^ (8 * (1 : BitVec 3).toNat) = (0x00000061#32).toNat % 2 ^ (8 * (1 : BitVec 3).toNat)) ∧
    (4 : BitVec 3).toNat ≤ 4 := by decide

-- O38, O41: bodies with and without an invalid byte
theorem witness_DecodeCallAppendsGroupByGroup :
    MayStart .sdec 3 State.reset ∧ (bodyOf [0x54, 0x51, 0x3D, 0x3D]).all valid = true ∧
    (bodyOf [0x3D, 0x3D, 0x3D]).all valid = false :=
  ⟨⟨by decide, by decide⟩, by decide, by decide⟩

-- O39, O42: two different states, equal buffer contents under different numbers
theorem witness_DecodersAgreeOnEveryInput :
    ∃ s s' : State, MayStart .sdec 1 s ∧ MayStart .vdec 2 s' ∧ s.bufs.read (1 : BufId).toNat = s'.bufs.read (2 : BufId).toNat ∧ s ≠ s' :=
  ⟨{ vRun twfu with bufs := [(1, [9])] }, { sRun twfu with bufs := [(2, [9])] }, ⟨by decide, by decide⟩, ⟨by decide, by decide⟩,
    by decide, by decide⟩

-- O40
theorem witness_GroupLengthLaw :
    (State.reset.inUse 0 = false ∧ ([(0x61 : Byte)].length, 1) ∈ [(1, 1), (2, 1), (3, 2), (4, 3)] ∧ [(0x61 : Byte)].all valid = true) ∧
    ((twfu.length, 3) ∈ [(1, 1), (2, 1), (3, 2), (4, 3)] ∧ twfu.all valid = true) ∧
    (MayStart .vdec 0 State.reset ∧ (bodyOf (twfu ++ [0x61])).all valid = true) :=
  ⟨by decide, by decide, ⟨by decide, by decide⟩, by decide⟩

-- O42
theorem witness_CallsAreFunctionsOfInputAndBuffer :
    MayStart .vdec 0 State.reset ∧ MayStart .vdec 9 { sRun twfu with vseq := Seq.reset.fail } ∧
    State.reset.bufs.read (0 : BufId).toNat = ({ sRun twfu with vseq := Seq.reset.fail } : State).bufs.read (9 : BufId).toNat :=
  ⟨⟨by decide, by decide⟩, ⟨by decide, by decide⟩, by decide⟩

-- O43: what stands before the first invalid byte, nothing or a group and more
theorem witness_SourceScenariosAndPermissivePadding :
    ([] : List Byte).all valid = true ∧ (twfu ++ [0x61]).all valid = true ∧ MayStart .vdec 0 State.reset ∧ MayStart .sdec 0 State.reset :=
  ⟨by decide, by decide, ⟨by decide, by decide⟩, ⟨by decide, by decide⟩⟩

-- O45
theorem witness_StepwiseCallEndsAsTheWholeCall :
    (State.reset.inbox = [] ∧ (State.reset.seq (other .vdec)).status ≠ .run ∧
      exec (.start .vdec 0 twfu) State.reset = .next (vRun twfu)) ∧
    exec (.start .sdec 0 []) State.reset = .next (sRun []) ∧ ((bodyOf twfu).length + 3) / 4 + 1 ≤ 2 :=
  ⟨⟨rfl, by decide, rfl⟩, rfl, by decide⟩

/-- The sequencer at the start of a call is good. -/
theorem begin_good (o : BufId) (inp : List Byte) : SeqInv (Seq.begin o inp) where
  running := fun _ => ⟨rfl, rfl, o, rfl⟩
  released := fun h => absurd rfl h
  stripped := by
    have h : stripEnd inp inp.length ≤ inp.length ∧ inp.length ≤ stripEnd inp inp.length + 2 := ⟨stripEnd_le _ _, stripEnd_ge _ _⟩
    exact h
  aligned := rfl
  bounded := Nat.zero_le _
  sticky := by simp [Seq.begin]
  ended := by simp [Seq.begin]

/-- Both decoders running on buffers 1 and 2 is a good state. -/
theorem bothRun_good (inp : List Byte) : GoodState (bothRun inp) where
  vector := begin_good 1 inp
  scalar := begin_good 2 inp
  distinct := fun _ _ => by simp [bothRun, Seq.begin]
  canonical := rfl
  loaded := Nat.zero_le _

-- O46: a running decoder at the end, before a valid group, before an invalid one; and no move pending
theorem witness_RunningDecodersAlwaysProgress :
    (GoodState (bothRun []) ∧ ((bothRun []).seq .vdec).status = .run ∧ ((bothRun []).seq .vdec).out = some 1 ∧
      ((bothRun []).seq .vdec).bodyEnd ≤ ((bothRun []).seq .vdec).pos) ∧
    (GoodState (bothRun twfu) ∧ ((bothRun twfu).seq .sdec).status = .run ∧ ((bothRun twfu).seq .sdec).out = some 2 ∧
      ((bothRun twfu).seq .sdec).pos < ((bothRun twfu).seq .sdec).bodyEnd ∧
      twfu = (((bothRun twfu).seq .sdec).inp.drop 0).take (min 4 (((bothRun twfu).seq .sdec).bodyEnd - 0)) ∧
      twfu.all valid = true) ∧
    (GoodState (bothRun [0x61, 0x21]) ∧ ((bothRun [0x61, 0x21]).seq .sdec).pos < ((bothRun [0x61, 0x21]).seq .sdec).bodyEnd ∧
      [0x61, 0x21].find? (fun b => !valid b) = some 0x21) ∧
    (bothRun twfu).inbox = [] ∧ ∃ a, ((bothRun twfu).seq a).status = .run :=
  ⟨⟨bothRun_good [], rfl, rfl, by decide⟩, ⟨bothRun_good twfu, rfl, rfl, by decide, by decide, by decide⟩,
    ⟨bothRun_good [0x61, 0x21], by decide, by decide⟩, rfl, .sdec, rfl⟩

-- O47: a good state whose step answers
theorem witness_EveryStepKeepsTheInvariant :
    GoodState { bothRun twfu with inbox := [.rst .vdec] } ∧ ∃ t, step { bothRun twfu with inbox := [.rst .vdec] } = .next t :=
  have h := bothRun_good twfu
  ⟨⟨h.vector, h.scalar, h.distinct, rfl, h.loaded⟩, _, rfl⟩

-- O49: a good state, and two states no call reaches
theorem witness_NoGoodStateFaults :
    GoodState (bothRun twfu) ∧
    (∃ s : State, (s.seq .vdec).pos < (s.seq .vdec).bodyEnd ∧
      (s.seq .vdec).inp.length < (s.seq .vdec).pos + min 4 ((s.seq .vdec).bodyEnd - (s.seq .vdec).pos)) ∧
    ∃ s : State, (s.seq .sdec).pos < (s.seq .sdec).bodyEnd ∧ (s.seq .sdec).bodyEnd ≤ (s.seq .sdec).inp.length ∧
      (s.seq .sdec).out = none ∧
      (((s.seq .sdec).inp.drop (s.seq .sdec).pos).take (min 4 ((s.seq .sdec).bodyEnd - (s.seq .sdec).pos))).all valid = true :=
  ⟨bothRun_good twfu, ⟨{ State.reset with vseq := { Seq.reset with bodyEnd := 1 } }, by decide⟩,
    ⟨{ State.reset with sseq := { Seq.begin 0 twfu with out := none } }, by decide⟩⟩

-- O50: both sides hold, and neither
theorem witness_RowsRunExactlyWhenAdmitted :
    (∃ t, exec (.part twfu 3 4) State.reset = .next t) ∧ WellFormed (.part twfu 3 4) = true ∧
    ∀ t, exec (.part twfu 4 4) State.reset ≠ .next t :=
  ⟨⟨_, rfl⟩, by decide, fun _ h => nomatch h⟩

-- O55, O56: good states, a running one and one after an error
theorem witness_CursorStaysInBounds :
    GoodState (bothRun twfu) ∧ FitsLenW 3 ((bothRun twfu).seq .vdec).n ∧
    GoodState { bothRun twfu with vseq := (Seq.begin 1 twfu).fail } := by
  have h := bothRun_good twfu
  refine ⟨h, by unfold FitsLenW; decide, ⟨⟨?_, ?_, ?_, rfl, Nat.zero_le _, ?_, ?_⟩, h.scalar, ?_, rfl, h.loaded⟩⟩ <;>
    simp [Seq.fail, Seq.begin, twfu, stripEnd, padChar]

-- O51: a row that appends nothing, one of an agent, a call, a lone error; and a move beside a running call
theorem witness_EveryRowsFrame :
    (∃ t, exec .symLoA State.reset = .next t) ∧ (∃ t, exec (.sEmit 4 0) State.reset = .next t) ∧
    (∃ t, exec (callInstr .vdec 3 twfu) State.reset = .next t) ∧ agentOfInstr .symLoA ≠ some .vdec ∧
    agentOfInstr (.sEmit 4 0) ≠ some .vdec ∧ agentOfInstr .vhash ≠ some .sdec ∧ agentOfInstr .vhash ≠ none ∧
    outOfRow (.sEmit 4 0) = some 0 ∧ State.reset.bufs.wf = true ∧ (vRun twfu).inUse 0 = true ∧
    ∃ t, step { vRun twfu with inbox := [.word (.key [8, 7, 0x21])] } = .next t ∧ (vRun twfu).vseq.status = .run ∧
      (vRun twfu).vseq.out = some 0 ∧ Stimulus.word (.key [8, 7, 0x21]) ≠ .quiet ∧
      Stimulus.word (.key [8, 7, 0x21]) ≠ .rst .vdec :=
  ⟨⟨_, rfl⟩, ⟨_, rfl⟩, ⟨_, rfl⟩, by decide, by decide, by decide, by decide, rfl, rfl, by decide, _, rfl, rfl, rfl,
    by decide, by decide⟩

-- O52
theorem witness_OutputOnlyGrows :
    ∃ s t : State, s.bufs.wf = true ∧ step s = .next t ∧ (∀ o bs, s.inbox.head? ≠ some (.supply o bs)) ∧ s.bufs ≠ [] :=
  ⟨{ vRun twfu with bufs := [(0, [1])] }, _, by decide, rfl, fun _ _ => by simp [vRun, State.reset], by decide⟩

-- O53: canonical buffers, other ones, a next state, a refusal, a decoder's step that appends, one that stops (log 18)
theorem witness_DecodersNeverReadTheOutput :
    State.reset.bufs.wf = true ∧ Memory.wf [(0, [9]), (255, [0, 1])] = true ∧ (∃ t, exec (.sEmit 4 0) State.reset = .next t) ∧
    exec (.start .vdec 0 []) (vRun twfu) = .refused .startWhileRunning ∧ (vRun twfu).bufs.wf = true ∧
    (∃ t, agentStep .vdec (vRun twfu) = .next t ∧ t.bufs ≠ []) ∧
    ∃ s : State, s.bufs.wf = true ∧ agentStep .sdec s = .fault .inputOutOfRange :=
  ⟨rfl, rfl, ⟨_, rfl⟩, rfl, rfl, ⟨_, rfl, by decide⟩, { State.reset with sseq := { Seq.reset with bodyEnd := 1 } }, rfl, rfl⟩

-- O54: an agent in error, and a move that does not clear it
theorem witness_ErrorFlagIsSticky :
    ∃ s t : State, step s = .next t ∧ (s.seq .vdec).err = true ∧ ¬ ClearsError .vdec s := by
  refine ⟨{ State.reset with vseq := Seq.reset.fail, inbox := [.rst .sdec] }, _, rfl, rfl, ?_⟩
  rintro (h | ⟨w, o, inp, h, -⟩) <;> cases h

-- O57, clause by clause
theorem witness_AStepRunsTheDecodedRow :
    (∃ s : State, s.inbox = .word (.key [0x19]) :: [.quiet] ∧ decode (.key [0x19]) = .ok .vvalid) ∧
    decodeTableWord 8 0x19 = some .vvalid ∧
    ((vRun twfu).inbox = [] ∧ (vRun twfu).vseq.status = .run ∧ (vRun twfu).sseq.status ≠ .run) ∧
    ((sRun twfu).inbox = [] ∧ (sRun twfu).sseq.status = .run ∧ (sRun twfu).vseq.status ≠ .run) ∧
    ((bothRun twfu).inbox = [] ∧ (bothRun twfu).vseq.status = .run ∧ (bothRun twfu).sseq.status = .run) ∧
    (State.reset.inbox = [] ∧ ∀ a, (State.reset.seq a).status ≠ .run) :=
  ⟨⟨{ State.reset with inbox := [.word (.key [0x19]), .quiet] }, rfl, rfl⟩, rfl, by decide, by decide, by decide, rfl,
    fun a => by cases a <;> decide⟩

-- O58: the ends of the operands' ranges
theorem witness_DecodeOfEncodeIsTheRow :
    WellFormed (.nbytes 1) = true ∧ WellFormed (.nbytes 4) = true ∧ WellFormed (.groupS [0] 0) = true ∧
    WellFormed (.groupV [0xFF, 0xFF, 0xFF, 0xFF] 255) = true ∧ WellFormed (.part twfu 9 4) = true ∧ WellFormed (.checkEq []) = true := by decide

-- O59: a word that is its row's own, and a group word with characters above `g_len`
theorem witness_EveryDecodedWordIsARowsOwn :
    decode (.key [0x24]) = .ok (.checkEq []) ∧ decode (.group 0xFFFF5154 2) = .ok (.g2 0x54 0x51) := by decide

-- O60: the ends of the nameless keys
theorem witness_SampleWordsAndNamelessWords :
    (37 ≤ (37 : Byte).toNat ∧ (37 : Byte).toNat < 64) ∧ (37 ≤ (63 : Byte).toNat ∧ (63 : Byte).toNat < 64) ∧
    64 ≤ (64 : Byte).toNat ∧ 64 ≤ (255 : Byte).toNat := by decide

end Sys2Proof.Tests
end

section
/-! The invariant `GoodState` agent by agent, and every step of the machine keeps it (O47); what it says of the signals (O55,
O56). -/

namespace Sys2Proof.Machine

/-! ## The invariant of one sequencer -/

section

variable {q : Seq}

/-- A sequencer after reset meets the invariant (70_reset_and_hazards.md R107). -/
theorem SeqInv.reset : SeqInv Seq.reset where
  running := nofun
  released := fun _ => ⟨rfl, rfl⟩
  stripped := by decide
  aligned := rfl
  bounded := by decide
  sticky := by decide
  ended := nofun

/-- START establishes the invariant (40_shared_preprocessing.md R46, R47). -/
theorem SeqInv.begin (o : BufId) (inp : List Byte) : SeqInv (Seq.begin o inp) where
  running := fun _ => ⟨rfl, rfl, o, rfl⟩
  released := fun h => absurd rfl h
  stripped := ⟨stripEnd_le _ _, stripEnd_ge _ _⟩
  aligned := rfl
  bounded := Nat.zero_le _
  sticky := by simp
  ended := by simp

/-- The end test, taken at the end of the body, keeps the invariant (44_vector_message.md R85). -/
theorem SeqInv.finish (h : SeqInv q) (hr : q.status = .run) (hp : q.bodyEnd ≤ q.pos) : SeqInv q.finish where
  running := by simp
  released := fun _ => ⟨rfl, rfl⟩
  stripped := h.stripped
  aligned := h.aligned
  bounded := h.bounded
  sticky := by simp [h.sticky, hr]
  ended := fun _ => hp

/-- The error keeps the invariant: `pos` keeps its value (60_exceptions.md R101). -/
theorem SeqInv.fail (h : SeqInv q) : SeqInv q.fail where
  running := by simp
  released := fun _ => ⟨rfl, rfl⟩
  stripped := h.stripped
  aligned := h.aligned
  bounded := h.bounded
  sticky := by simp
  ended := by simp

/-- The advance of `pos` before the end keeps the invariant (10_state.md R11). -/
theorem SeqInv.advance (h : SeqInv q) (hr : q.status = .run) (hp : q.pos < q.bodyEnd) : SeqInv q.advance where
  running := h.running
  released := h.released
  stripped := h.stripped
  aligned := by have := h.aligned; simp only [advance_pos]; omega
  bounded := by simp only [advance_pos, advance_bodyEnd]; omega
  sticky := h.sticky
  ended := by simp [hr]

end

/-! ## The invariant of the machine -/

section

variable {a : AgentId} {s t : State}

theorem GoodState.seqInv (h : GoodState s) (a : AgentId) : SeqInv (s.seq a) := by
  cases a
  · exact h.vector
  · exact h.scalar

/-- No buffer is in use by both agents' calls (20_memory.md R28). -/
theorem GoodState.exclusive (h : GoodState s) {o : BufId} (ha : s.inFlight a o = true) :
    s.inFlight (other a) o = false := by
  obtain ⟨hr, ho⟩ := (inFlight_iff s a o).mp ha
  refine (not_inFlight_iff s _ o).mpr fun hr' ho' => ?_
  cases a
  · exact h.distinct hr hr' (ho.trans ho'.symm)
  · exact h.distinct hr' hr (ho'.trans ho.symm)

/-- What has the sequencers of a good state, canonical buffers and a short loaded group is good. -/
theorem GoodState.congr (h : GoodState s) (hq : ∀ c, t.seq c = s.seq c) (hb : t.bufs.wf = true)
    (hl : t.vdp.gLen ≤ 4) : GoodState t where
  vector := by rw [← seq_vdec, hq]; exact h.vector
  scalar := by rw [← seq_sdec, hq]; exact h.scalar
  distinct := by rw [← seq_vdec, ← seq_sdec, hq, hq]; exact h.distinct
  canonical := hb
  loaded := hl

/-- A good state stays good when one agent's sequencer changes to a good one whose buffer, if it runs, the other agent's
call does not use. -/
theorem GoodState.setAgent (h : GoodState s) (hq : SeqInv (t.seq a)) (ho : t.seq (other a) = s.seq (other a))
    (hx : ∀ o, t.inFlight a o = true → s.inFlight (other a) o = false) (hb : t.bufs.wf = true)
    (hl : t.vdp.gLen ≤ 4) : GoodState t := by
  have hd : ∀ o, (t.seq a).status = .run → (t.seq a).out = some o → (t.seq (other a)).status = .run →
      (t.seq (other a)).out ≠ some o := fun o hr hout => by
    rw [ho]
    exact (not_inFlight_iff s _ o).mp (hx o ((inFlight_iff t a o).mpr ⟨hr, hout⟩))
  have hother : SeqInv (t.seq (other a)) := ho ▸ h.seqInv (other a)
  cases a
  · refine ⟨hq, hother, fun hv hs heq => ?_, hb, hl⟩
    obtain ⟨-, -, o, hout⟩ := hq.running hv
    exact hd o hv hout hs (heq.symm.trans hout)
  · refine ⟨hother, hq, fun hv hs heq => ?_, hb, hl⟩
    obtain ⟨-, -, o, hout⟩ := hq.running hs
    exact hd o hs hout hv (heq.trans hout)

/-- An agent that does not run uses no buffer. -/
theorem inFlight_of_not_running (h : (s.seq a).status ≠ .run) (o : BufId) : s.inFlight a o = false :=
  (not_inFlight_iff s a o).mpr fun hr => absurd hr h

/-- Work on an agent's own registers keeps the invariant. -/
theorem GoodState.worked (h : GoodState s) (hw : Worked a s t) : GoodState t :=
  h.congr hw.seq (hw.bufs ▸ h.canonical) (hw.gLen.elim id fun e => e ▸ h.loaded)

/-- A step of a running agent keeps the invariant. -/
theorem GoodState.agentStep (h : GoodState s) (hr : (s.seq a).status = .run) (ht : agentStep a s = .next t) :
    GoodState t := by
  have hq := h.seqInv a
  rcases agentStep_cases ht with ⟨hp, rfl⟩ | ⟨hp, o, ho, -, u, bs, hw, rfl⟩ | ⟨hp, u, b, hw, rfl⟩
  · refine h.setAgent (a := a) ?_ (by simp) ?_ (by simpa using h.canonical) (by simpa using h.loaded)
    · rw [finished_seq]; exact hq.finish hr hp
    · intro o ho; simp [inFlight_iff] at ho
  · have hu := h.worked hw
    refine hu.setAgent (a := a) ?_ (by simp) ?_ ?_ (by simpa using hu.loaded)
    · rw [stepped_seq, hw.seq]; exact hq.advance hr hp
    · intro o' ho'
      exact hu.exclusive (by simpa [inFlight_iff] using ho')
    · rw [stepped_bufs]; exact Memory.wf_append _ _ hu.canonical
  · have hu := h.worked hw
    refine hu.setAgent (a := a) ?_ (by simp) ?_ (by simpa using hu.canonical) (by simpa using hu.loaded)
    · rw [raised_seq, hw.seq]; exact hq.fail
    · intro o ho; simp [inFlight_iff] at ho

/-- START on an agent that may be started keeps the invariant. -/
theorem GoodState.begun (h : GoodState s) {o : BufId} (hm : MayStart a o s) (inp : List Byte) :
    GoodState (s.begun a o inp) := by
  refine h.setAgent (a := a) ?_ (by simp) ?_ (by simpa using h.canonical) (by simpa using h.loaded)
  · rw [begun_seq]; exact .begin o inp
  · intro o' ho'
    obtain rfl : o = o' := by simpa [inFlight_iff] using ho'
    exact hm.2

/-- A whole run of a call keeps the invariant. -/
theorem GoodState.runCall (h : GoodState s) {k : Nat} (ht : runCall a k s = .next t) : GoodState t :=
  runCall_induct (P := GoodState) (fun _ _ hg hr => hg.agentStep hr) h ht

/-- Every row keeps the invariant. -/
theorem GoodState.row (h : GoodState s) {i : Instr} (e : RowEffect i s t) : GoodState t := by
  cases e with
  | value r hi ht => subst ht; exact h.congr (by simp) h.canonical h.loaded
  | verdict x v hi ht => subst ht; exact h.congr (fun c => by cases c <;> rfl) h.canonical h.loaded
  | start a o inp hi hm ht => subst ht; exact h.begun hm inp
  | work a hi hw => exact h.worked hw
  | append a o u bs hi ho hf hw ht =>
    subst ht
    have hu := h.worked hw
    exact hu.congr (by simp) (by rw [appended_bufs]; exact Memory.wf_append _ _ hu.canonical) (by simpa using hu.loaded)
  | error a u b hi hr hw ht =>
    subst ht
    have hu := h.worked hw
    exact hu.congr (by simp) (by simpa using hu.canonical) (by simpa using hu.loaded)
  | call a o inp k hi hm ht => exact (h.begun hm inp).runCall ht

/-- Reset of one agent keeps the invariant (70_reset_and_hazards.md R107, R108). -/
theorem GoodState.resetAgent (h : GoodState s) (a : AgentId) : GoodState (s.resetAgent a) := by
  refine h.setAgent (a := a) ?_ (by simp) ?_ (by simpa using h.canonical) ?_
  · rw [resetAgent_seq]; exact .reset
  · intro o ho; simp [inFlight_iff, Seq.reset] at ho
  · cases a
    · exact Nat.zero_le 4
    · exact h.loaded

/-- The caller's moves still to come are no part of a sequencer. -/
theorem seq_setInbox (rest : List Stimulus) (c : AgentId) : State.seq { s with inbox := rest } c = s.seq c := by
  cases c <;> rfl

/-- The caller's moves still to come play no part in the invariant. -/
theorem GoodState.setInbox (h : GoodState s) (rest : List Stimulus) : GoodState { s with inbox := rest } :=
  h.congr (seq_setInbox rest) h.canonical h.loaded

end

/-- Settles O47: each effect a step can have keeps the invariant. -/
theorem everyStepKeepsTheInvariant : Obligations.EveryStepKeepsTheInvariant := by
  intro s t h hs
  cases step_cases hs with
  | rest hi hq ht => exact ht ▸ h
  | auto a u hu hr hq ht =>
    obtain ⟨hbufs, hvdp, hseq⟩ := hu
    have hg : GoodState u := h.congr hseq (hbufs ▸ h.canonical) (hvdp ▸ h.loaded)
    exact hg.agentStep (by rw [hseq]; exact hr) ht
  | still rest hi ht => subst ht; exact h.setInbox rest
  | reset a rest hi ht => subst ht; exact (h.setInbox rest).resetAgent a
  | supply o bs rest hi hf ht =>
    subst ht
    exact h.congr (fun c => by cases c <;> rfl) (Memory.wf_write _ _ h.canonical) h.loaded
  | row w i rest hi hd e => exact (h.setInbox rest).row e
  | answer w r rest hi ht =>
    subst ht
    exact (h.setInbox rest).congr (by simp) h.canonical h.loaded

/-- Settles O55: the bounds the invariant gives, and `n + 3 < 2^LEN_W` on top of them. -/
theorem cursorStaysInBounds : Obligations.CursorStaysInBounds := by
  intro a s w h
  obtain ⟨-, -, ⟨hle, hge⟩, hal, hbd, -, -⟩ := h.seqInv a
  exact ⟨hal, hbd, hle, hge, fun hw => by unfold FitsLenW at hw; omega⟩

/-! ## The signals and the result -/

section

variable {a : AgentId} {s : State} {st : Status}

theorem result_eq_ok_iff : s.result a = some .ok ↔ (s.seq a).status = .done := by
  unfold State.result
  cases (s.seq a).status <;> simp

theorem result_eq_err_iff : s.result a = some (.err (s.signals a).errByte) ↔ (s.seq a).status = .err := by
  unfold State.result
  cases (s.seq a).status <;> simp

theorem result_eq_none_iff : s.result a = none ↔ (s.seq a).status = .idle ∨ (s.seq a).status = .run := by
  unfold State.result
  cases (s.seq a).status <;> simp

theorem code_eq_zero_iff : st.code = 0 ↔ st = .idle := by cases st <;> decide
theorem code_eq_one_iff : st.code = 1 ↔ st = .run := by cases st <;> decide
theorem code_eq_two_iff : st.code = 2 ↔ st = .done := by cases st <;> decide
theorem code_eq_three_iff : st.code = 3 ↔ st = .err := by cases st <;> decide

end

/-- Settles O56: the result and the code are two readings of the status, and the flag goes with it by the invariant. -/
theorem signalsShowTheResult : Obligations.SignalsShowTheResult := by
  intro a s h
  have hflag := (h.seqInv a).sticky
  refine ⟨result_eq_ok_iff.trans code_eq_two_iff.symm, fun h2 => ?_, ?_, code_eq_three_iff.trans hflag.symm,
    result_eq_none_iff.trans (or_congr code_eq_zero_iff code_eq_one_iff).symm, rfl⟩
  · have hdone : (s.seq a).status = .done := code_eq_two_iff.mp h2
    exact Bool.eq_false_iff.mpr fun he => nomatch hdone.symm.trans (hflag.mp he)
  · cases a
    · exact result_eq_err_iff.trans code_eq_three_iff.symm
    · exact result_eq_err_iff.trans code_eq_three_iff.symm

end Sys2Proof.Machine
end

section
/-! What a row, a decoder's step and a move of the caller leave unchanged: the handing over of a buffer (O4), every row's
frame (O51), buffers that only grow (O52), the error flag that stays (O54). -/

namespace Sys2Proof.Machine

/-! ## The caller's move -/

section

variable {s : State}

/-- A pending move of the caller is what the step serves (log 1). -/
theorem step_of_inbox {e : Stimulus} {rest : List Stimulus} (h : s.inbox = e :: rest) :
    step s = serve e { s with inbox := rest } := by
  simp only [step, nextMove, h]

/-- The moves still to come play no part in which buffers are in use. -/
theorem inUse_setInbox (rest : List Stimulus) (o : BufId) : State.inUse { s with inbox := rest } o = s.inUse o :=
  inUse_congr (seq_setInbox rest)

/-- A call in flight uses its buffer (20_memory.md R28). -/
theorem inUse_of_inFlight {a : AgentId} {o : BufId} (h : s.inFlight a o = true) : s.inUse o = true := by
  cases a <;> simp [State.inUse, h]

/-- Two buffers of which one is in use and one is not have different numbers. -/
theorem toNat_ne_of_inUse {o o' : BufId} (h : s.inUse o = true) (h' : s.inUse o' = false) : o.toNat ≠ o'.toNat := by
  intro he
  rw [BitVec.eq_of_toNat_eq he, h'] at h
  cases h

end

/-- Settles O4: the move is a write of one buffer, behind the test that no call uses it. -/
theorem supplyHandsOverOneBuffer : Obligations.SupplyHandsOverOneBuffer := by
  intro o bs s rest hi hwf
  have hs : step s = supplyBuffer o bs { s with inbox := rest } := step_of_inbox hi
  rw [hs, supplyBuffer, inUse_setInbox]
  constructor
  · intro hfree
    rw [(not_inUse_iff s o).mpr hfree]
    exact ⟨s.bufs.write o.toNat bs, rfl, Memory.wf_write _ _ hwf, Memory.read_write _ _ hwf,
      fun k hk => Memory.read_write_other _ _ _ _ hk⟩
  · rintro ⟨a, ha⟩
    rw [inUse_of_inFlight ha]
    rfl

/-! ## The registers after a row -/

section

variable {a : AgentId} {s u t : State}

theorem appended_sameOutside (o : BufId) (bs : List Byte) : SameOutside a s (s.appended a o bs) := by
  cases a <;> exact ⟨rfl, rfl, by simp, by simp, rfl, rfl, rfl, rfl⟩

/-- Up to the value it returns, a row that raises leaves what is not the agent's own alone. -/
theorem raiseRow_sameOutside (b : Option Byte) : SameOutside a s ((raiseRow a b s).answer s.ret) := by
  cases a <;> exact ⟨rfl, rfl, by simp, by simp, rfl, rfl, rfl, rfl⟩

/-- What keeps the returned value may be read up to it. -/
theorem SameOutside.answer_ret (h : SameOutside a s t) : SameOutside a s (t.answer s.ret) := by
  rwa [← h.ret, show t.answer t.ret = t from rfl]

/-- A step of an agent leaves what is not the agent's own alone. -/
theorem agentStep_sameOutside (h : agentStep a s = .next t) : SameOutside a s t := by
  rcases agentStep_cases h with ⟨-, rfl⟩ | ⟨-, o, -, -, u, bs, hw, rfl⟩ | ⟨-, u, b, hw, rfl⟩
  · exact finished_sameOutside
  · exact hw.sameOutside.trans (stepped_sameOutside o bs)
  · exact hw.sameOutside.trans (raised_sameOutside b)

/-- A whole run of a call leaves what is not the agent's own alone. -/
theorem runCall_sameOutside {k : Nat} (h : runCall a k s = .next t) : SameOutside a s t :=
  runCall_induct (P := SameOutside a s) (fun _ _ hs _ hstep => hs.trans (agentStep_sameOutside hstep))
    (Worked.refl a s).sameOutside h

theorem agentOfInstr_callInstr (a : AgentId) (o : BufId) (inp : List Byte) :
    agentOfInstr (callInstr a o inp) = some a := by cases a <;> rfl

theorem outOfRow_callInstr (a : AgentId) (o : BufId) (inp : List Byte) : outOfRow (callInstr a o inp) = some o := by
  cases a <;> rfl

variable {i : Instr}

/-- A row of no agent answers a value or a verdict, and that is all. -/
theorem RowEffect.eq_of_no_agent (e : RowEffect i s t) (hi : agentOfInstr i = none) :
    (∃ r, t = s.answer r) ∨ ∃ x v, i = .checkEq x ∧ t = { s with verdict := v } := by
  cases e with
  | value r _ ht => exact .inl ⟨r, ht⟩
  | verdict x v hx ht => exact .inr ⟨x, v, hx, ht⟩
  | start a o inp hs => rw [hs] at hi; cases hi
  | work a ha => exact nomatch ha.symm.trans hi
  | append a o u bs ha => exact nomatch ha.symm.trans hi
  | error a u b ha => exact nomatch ha.symm.trans hi
  | call a o inp k hc => rw [hc, agentOfInstr_callInstr] at hi; cases hi

/-- A row of an agent leaves what is not the agent's own alone, up to the value it returns. -/
theorem RowEffect.sameOutside (e : RowEffect i s t) (hi : agentOfInstr i = some a) :
    SameOutside a s (t.answer s.ret) := by
  cases e with
  | value r hn => exact nomatch hn.symm.trans hi
  | verdict x v hx => rw [hx] at hi; cases hi
  | start c o inp hs hm ht =>
    subst hs ht; cases hi
    exact (begun_sameOutside o inp).answer_ret
  | work c hc hw => cases hc.symm.trans hi; exact hw.sameOutside.answer_ret
  | append c o u bs hc ho hf hw ht =>
    subst ht; cases hc.symm.trans hi
    exact (hw.sameOutside.trans (appended_sameOutside o bs)).answer_ret
  | error c u b hc hr hw ht =>
    subst ht; cases hc.symm.trans hi
    rw [← hw.sameOutside.ret]
    exact hw.sameOutside.trans (raiseRow_sameOutside b)
  | call c o inp k hc hm ht =>
    subst hc; cases (agentOfInstr_callInstr c o inp).symm.trans hi
    exact ((begun_sameOutside o inp).trans (runCall_sameOutside ht)).answer_ret

/-- The caller's moves to come and the free value's counter stay (log 1, log 7). -/
theorem RowEffect.caller (e : RowEffect i s t) : t.inbox = s.inbox ∧ t.turns = s.turns := by
  cases hi : agentOfInstr i with
  | none => obtain ⟨r, rfl⟩ | ⟨x, v, -, rfl⟩ := e.eq_of_no_agent hi <;> exact ⟨rfl, rfl⟩
  | some a => have h := e.sameOutside hi; exact ⟨h.inbox, h.turns⟩

/-- Another agent's port stays (44_vector_message.md R88). -/
theorem RowEffect.port_eq (e : RowEffect i s t) (ha : agentOfInstr i ≠ some a) : t.port a = s.port a := by
  cases hi : agentOfInstr i with
  | none => obtain ⟨r, rfl⟩ | ⟨x, v, -, rfl⟩ := e.eq_of_no_agent hi <;> cases a <;> rfl
  | some c =>
    obtain rfl | rfl := eq_or_other c a
    · exact absurd hi ha
    · simpa using (e.sameOutside hi).port

/-- VDEC's lanes stay but for a row of VDEC (10_state.md R13). -/
theorem RowEffect.vdp_eq (e : RowEffect i s t) (ha : agentOfInstr i ≠ some .vdec) : t.vdp = s.vdp := by
  cases hi : agentOfInstr i with
  | none => obtain ⟨r, rfl⟩ | ⟨x, v, -, rfl⟩ := e.eq_of_no_agent hi <;> rfl
  | some c =>
    cases c with
    | vdec => exact absurd hi ha
    | sdec => exact (e.sameOutside hi).lanes rfl

/-- `acc` stays but for a row of SDEC (10_state.md R14). -/
theorem RowEffect.acc_eq (e : RowEffect i s t) (ha : agentOfInstr i ≠ some .sdec) : t.acc = s.acc := by
  cases hi : agentOfInstr i with
  | none => obtain ⟨r, rfl⟩ | ⟨x, v, -, rfl⟩ := e.eq_of_no_agent hi <;> rfl
  | some c =>
    cases c with
    | vdec => exact ((e.sameOutside hi).accumulator rfl).1
    | sdec => exact absurd hi ha

/-- `err_byte` stays but for a whole call of SDEC: it records the error of a call (60_exceptions.md R98). -/
theorem RowEffect.errByte_eq (e : RowEffect i s t) (hd : ∀ o inp, i ≠ .decodeS o inp) : t.errByte = s.errByte := by
  cases e with
  | value r hi ht => subst ht; rfl
  | verdict x v hi ht => subst ht; rfl
  | start a o inp hi hm ht => subst ht; simp
  | work a hi hw => exact hw.errByte
  | append a o u bs hi ho hf hw ht => subst ht; simpa using hw.errByte
  | error a u b hi hr hw ht => subst ht; simpa using hw.errByte
  | call a o inp k hi hm ht =>
    cases a with
    | vdec => exact (((begun_sameOutside o inp).trans (runCall_sameOutside ht)).accumulator rfl).2
    | sdec => exact absurd hi (hd o inp)

/-- The verdict stays but for a check (45_equivalence_harness.md R91). -/
theorem RowEffect.verdict_eq (e : RowEffect i s t) (hc : ∀ x, i ≠ .checkEq x) : t.verdict = s.verdict := by
  cases hi : agentOfInstr i with
  | none =>
    obtain ⟨r, rfl⟩ | ⟨x, v, hx, -⟩ := e.eq_of_no_agent hi
    · rfl
    · exact absurd hx (hc x)
  | some a => exact (e.sameOutside hi).verdict

/-- The returned value stays for a row of an agent that cannot raise (log 9, log 10). -/
theorem RowEffect.ret_eq (e : RowEffect i s t) (ha : agentOfInstr i ≠ none) (hs : ∀ o g, i ≠ .groupS g o)
    (hv : ∀ o g, i ≠ .groupV g o) (hp : ∀ o, i ≠ .vappend o) : t.ret = s.ret := by
  cases e with
  | value r hi => exact absurd hi ha
  | verdict x v hi ht => subst ht; rfl
  | start a o inp hi hm ht => subst ht; simp
  | work a hi hw => exact hw.sameOutside.ret
  | append a o u bs hi ho hf hw ht => subst ht; simpa using hw.sameOutside.ret
  | error a u b hi hr =>
    obtain ⟨o, g, rfl⟩ | ⟨o, g, rfl⟩ | ⟨o, rfl⟩ := hr
    · exact absurd rfl (hs o g)
    · exact absurd rfl (hv o g)
    · exact absurd rfl (hp o)
  | call a o inp k hi hm ht => exact ((begun_sameOutside o inp).trans (runCall_sameOutside ht)).ret

/-- A row keeps an agent's sequencer, or it is a START or a whole call of that agent, and the agent was not running
(10_state.md R10, R12; 40_shared_preprocessing.md R46). -/
theorem RowEffect.seq_eq_or_started (e : RowEffect i s t) (a : AgentId) :
    t.seq a = s.seq a ∨
      ((s.seq a).status ≠ .run ∧ ∃ o inp, i = .start a o inp ∨ i = callInstr a o inp) := by
  cases e with
  | value r hi ht => subst ht; exact .inl (by simp)
  | verdict x v hi ht => subst ht; exact .inl (by cases a <;> rfl)
  | start c o inp hi hm ht =>
    obtain rfl | rfl := eq_or_other c a
    · exact .inr ⟨hm.1, o, inp, .inl hi⟩
    · subst ht; exact .inl (by simp)
  | work c hi hw => exact .inl (hw.seq a)
  | append c o u bs hi ho hf hw ht => subst ht; exact .inl (by simpa using hw.seq a)
  | error c u b hi hr hw ht => subst ht; exact .inl (by simpa using hw.seq a)
  | call c o inp k hi hm ht =>
    obtain rfl | rfl := eq_or_other c a
    · exact .inr ⟨hm.1, o, inp, .inr hi⟩
    · exact .inl ((begun_sameOutside o inp).trans (runCall_sameOutside ht)).sequencer

/-- A row keeps the sequencer of a running call (10_state.md R18; 60_exceptions.md R99). -/
theorem RowEffect.seq_eq_of_running (e : RowEffect i s t) (hr : (s.seq a).status = .run) : t.seq a = s.seq a :=
  (e.seq_eq_or_started a).resolve_right fun h => h.1 hr

end

/-! ## The buffers after a step -/

/-- Only buffer `out`, if any, changed; each buffer grew at its end at most, and the canonical form was kept (20_memory.md
R24; log 4). -/
structure Grows (out : Option BufId) (s t : State) : Prop where
  others : ∀ k, (∀ o, out = some o → k ≠ o.toNat) → t.bufs.read k = s.bufs.read k
  canonical : s.bufs.wf = true → t.bufs.wf = true
  grown : s.bufs.wf = true → ∀ k, s.bufs.read k <+: t.bufs.read k

section

variable {out : Option BufId} {a : AgentId} {o : BufId} {s u t : State} {i : Instr}

theorem Grows.of_bufs_eq (h : t.bufs = s.bufs) : Grows out s t where
  others := fun _ _ => by rw [h]
  canonical := fun hs => by rw [h]; exact hs
  grown := fun _ _ => by rw [h]

theorem Grows.append {bs : List Byte} (h : t.bufs = s.bufs.append o.toNat bs) : Grows (some o) s t where
  others := fun k hk => by rw [h, Memory.read_append_other _ _ _ (hk o rfl)]
  canonical := fun hs => by rw [h]; exact Memory.wf_append _ _ hs
  grown := fun hs k => by
    rw [h]
    by_cases hk : k = o.toNat
    · rw [hk, Memory.read_append _ _ hs]; exact List.prefix_append _ _
    · rw [Memory.read_append_other _ _ _ hk]

theorem Grows.trans (h : Grows out s u) (h' : Grows out u t) : Grows out s t where
  others := fun k hk => (h'.others k hk).trans (h.others k hk)
  canonical := fun hs => h'.canonical (h.canonical hs)
  grown := fun hs k => (h.grown hs k).trans (h'.grown (h.canonical hs) k)

/-- A step of a decoder appends to its own OUT at most (44_vector_message.md R85). -/
theorem agentStep_grows (h : agentStep a s = .next t) : Grows (s.seq a).out s t := by
  rcases agentStep_cases h with ⟨-, rfl⟩ | ⟨-, o, ho, -, u, bs, hw, rfl⟩ | ⟨-, u, b, hw, rfl⟩
  · exact .of_bufs_eq (by simp)
  · rw [ho]; exact .append (by rw [stepped_bufs, hw.bufs])
  · exact .of_bufs_eq (by rw [raised_bufs, hw.bufs])

/-- A step of an agent keeps its OUT or drops it (10_state.md R9). -/
theorem agentStep_out (h : agentStep a s = .next t) : (t.seq a).out = (s.seq a).out ∨ (t.seq a).status ≠ .run := by
  rcases agentStep_cases h with ⟨-, rfl⟩ | ⟨-, o, -, -, u, bs, hw, rfl⟩ | ⟨-, u, b, hw, rfl⟩
  · exact .inr (by simp)
  · exact .inl (by rw [stepped_seq, advance_out, hw.seq])
  · exact .inr (by simp)

/-- A whole run of a call appends to its OUT at most. -/
theorem runCall_grows {k : Nat} (ho : (s.seq a).out = some o) (h : runCall a k s = .next t) : Grows (some o) s t := by
  have hinv : Grows (some o) s t ∧ ((t.seq a).status = .run → (t.seq a).out = some o) := by
    refine runCall_induct (P := fun u => Grows (some o) s u ∧ ((u.seq a).status = .run → (u.seq a).out = some o))
      (fun u v hu hr hv => ?_) ⟨.of_bufs_eq rfl, fun _ => ho⟩ h
    obtain ⟨hg, hout⟩ := hu
    refine ⟨hg.trans (hout hr ▸ agentStep_grows hv), fun hr' => ?_⟩
    rw [(agentStep_out hv).resolve_right (absurd hr'), hout hr]
  exact hinv.1

/-- A row appends at most to the OUT it names. -/
theorem RowEffect.grows (e : RowEffect i s t) : Grows (outOfRow i) s t := by
  cases e with
  | value r hi ht => subst ht; exact .of_bufs_eq rfl
  | verdict x v hi ht => subst ht; exact .of_bufs_eq rfl
  | start a o inp hi hm ht => subst ht; exact .of_bufs_eq (by simp)
  | work a hi hw => exact .of_bufs_eq hw.bufs
  | append a o u bs hi ho hf hw ht => subst ht; rw [ho]; exact .append (by rw [appended_bufs, hw.bufs])
  | error a u b hi hr hw ht => subst ht; exact .of_bufs_eq (by rw [raiseRow_bufs, hw.bufs])
  | call a o inp k hi hm ht =>
    rw [hi, outOfRow_callInstr]
    exact (Grows.of_bufs_eq (begun_bufs s a o inp)).trans (runCall_grows (by simp) ht)

/-- An agent may be started on a buffer that no call in flight uses (40_shared_preprocessing.md R46; 20_memory.md R28). -/
theorem MayStart.inUse_eq_false (h : MayStart a o s) : s.inUse o = false :=
  (not_inUse_iff s o).mpr fun c => by
    obtain rfl | rfl := eq_or_other a c
    · exact inFlight_of_not_running h.1 o
    · exact h.2

/-- A row leaves every buffer alone, or the OUT it names is in no call's use (R28; log 21). -/
theorem RowEffect.bufs_eq_or_free (e : RowEffect i s t) :
    t.bufs = s.bufs ∨ ∃ o, outOfRow i = some o ∧ s.inUse o = false := by
  cases e with
  | value r hi ht => subst ht; exact .inl rfl
  | verdict x v hi ht => subst ht; exact .inl rfl
  | start a o inp hi hm ht => subst ht; exact .inl (by simp)
  | work a hi hw => exact .inl hw.bufs
  | append a o u bs hi ho hf hw ht => exact .inr ⟨o, ho, hf⟩
  | error a u b hi hr hw ht => subst ht; exact .inl (by rw [raiseRow_bufs, hw.bufs])
  | call a o inp k hi hm ht => exact .inr ⟨o, by rw [hi, outOfRow_callInstr], hm.inUse_eq_false⟩

/-- A row leaves a buffer that a call in flight uses alone (60_exceptions.md R99; log 21). -/
theorem RowEffect.read_eq_of_inUse (e : RowEffect i s t) (h : s.inUse o = true) :
    t.bufs.read o.toNat = s.bufs.read o.toNat := by
  obtain hb | ⟨o', ho', hf⟩ := e.bufs_eq_or_free
  · rw [hb]
  · refine e.grows.others _ fun c hc => ?_
    cases hc.symm.trans ho'
    exact toNat_ne_of_inUse h hf

/-- Whatever the caller's move but silence and a reset of agent `a`: the sequencer of `a`'s running call and the buffer it
uses stay (10_state.md R18; 60_exceptions.md R99). -/
theorem StepEffect.running_call_kept {e : Stimulus} (h : StepEffect s t) (he : s.inbox.head? = some e)
    (hq : e ≠ .quiet) (hrst : e ≠ .rst a) (hr : (s.seq a).status = .run) :
    t.seq a = s.seq a ∧ ∀ o, (s.seq a).out = some o → t.bufs.read o.toNat = s.bufs.read o.toNat := by
  have huse : ∀ o, (s.seq a).out = some o → s.inUse o = true := fun o ho =>
    inUse_of_inFlight ((inFlight_iff s a o).mpr ⟨hr, ho⟩)
  cases h with
  | rest hi => rw [hi] at he; cases he
  | auto c u hu hc hi =>
    obtain hi | hi := hi
    · rw [hi] at he; cases he
    · cases hi.symm.trans he; exact absurd rfl hq
  | still rest hi => rw [hi] at he; cases he; exact absurd rfl hq
  | reset c rest hi ht =>
    rw [hi] at he; cases he
    obtain rfl | rfl := eq_or_other c a
    · exact absurd rfl hrst
    · subst ht
      exact ⟨by rw [resetAgent_seq_other, seq_setInbox], fun o _ => by rw [resetAgent_bufs]⟩
  | supply o' bs rest hi hf ht =>
    subst ht
    exact ⟨by cases a <;> rfl, fun o ho => Memory.read_write_other _ _ _ _ (toNat_ne_of_inUse (huse o ho) hf)⟩
  | row w i rest hi hd row =>
    refine ⟨(row.seq_eq_of_running (by rw [seq_setInbox]; exact hr)).trans (seq_setInbox rest a), fun o ho => ?_⟩
    exact row.read_eq_of_inUse (by rw [inUse_setInbox]; exact huse o ho)
  | answer w r rest hi ht =>
    subst ht
    exact ⟨by rw [answer_seq, seq_setInbox], fun _ _ => rfl⟩

/-- A step in which the caller hands over no buffer lets buffers grow at most. -/
theorem StepEffect.grows (h : StepEffect s t) (hs : ∀ o bs, s.inbox.head? ≠ some (.supply o bs)) :
    ∃ out, Grows out s t := by
  cases h with
  | rest hi hq ht => exact ⟨none, .of_bufs_eq (by rw [ht])⟩
  | auto a u hu hr hq ht => exact ⟨_, (Grows.of_bufs_eq hu.1).trans (agentStep_grows ht)⟩
  | still rest hi ht => subst ht; exact ⟨none, .of_bufs_eq rfl⟩
  | reset a rest hi ht => subst ht; exact ⟨none, .of_bufs_eq (by simp)⟩
  | supply o bs rest hi => exact absurd (by rw [hi]; rfl) (hs o bs)
  | row w i rest hi hd row =>
    exact ⟨_, (Grows.of_bufs_eq (s := s) (t := { s with inbox := rest }) rfl).trans row.grows⟩
  | answer w r rest hi ht => subst ht; exact ⟨none, .of_bufs_eq rfl⟩

end

/-- Settles O51: clause by clause from what a row can do, and from what a move of the caller can do beside a running call. -/
theorem everyRowsFrame : Obligations.EveryRowsFrame := by
  refine ⟨fun i s t h => ?_, fun a e s t h he hq hrst hr => (step_cases h).running_call_kept he hq hrst hr⟩
  have e := exec_cases h
  obtain ⟨hinbox, hturns⟩ := e.caller
  refine ⟨hinbox, hturns, fun a hs hc => ?_, fun a => e.port_eq, e.vdp_eq, e.acc_eq, e.errByte_eq, e.verdict_eq, e.ret_eq,
    e.grows.others, fun o => e.read_eq_of_inUse, e.grows.grown⟩
  exact (e.seq_eq_or_started a).resolve_right fun ⟨_, o, inp, hi⟩ => hi.elim (hs o inp) (hc o inp)

/-- Settles O52: every effect of a step but a hand-over lets buffers grow at most. -/
theorem outputOnlyGrows : Obligations.OutputOnlyGrows := by
  intro s t hwf h hs k
  obtain ⟨out, hg⟩ := (step_cases h).grows hs
  exact hg.grown hwf k

/-! ## The error flag -/

section

variable {a c : AgentId} {s t : State}

/-- No step of a decoder clears an error flag: only START writes a 0 to it (10_state.md R12). -/
theorem agentStep_err (h : agentStep c s = .next t) (he : (s.seq a).err = true) : (t.seq a).err = true := by
  obtain rfl | rfl := eq_or_other c a
  · rcases agentStep_cases h with ⟨-, rfl⟩ | ⟨-, o, -, -, u, bs, hw, rfl⟩ | ⟨-, u, b, hw, rfl⟩
    · simpa using he
    · rw [stepped_seq, advance_err, hw.seq]; exact he
    · simp
  · rw [(agentStep_sameOutside h).sequencer]; exact he

end

/-- Settles O54: of the effects a step can have, a reset, a START and a whole call alone may clear the flag. -/
theorem errorFlagIsSticky : Obligations.ErrorFlagIsSticky := by
  intro a s t h he hclear
  cases step_cases h with
  | rest hi hq ht => exact ht ▸ he
  | auto c u hu hr hq ht => exact agentStep_err ht (by rw [hu.2.2]; exact he)
  | still rest hi ht => subst ht; rw [seq_setInbox]; exact he
  | reset c rest hi ht =>
    obtain rfl | rfl := eq_or_other c a
    · exact absurd (.inl (by rw [hi]; rfl)) hclear
    · subst ht
      rw [resetAgent_seq_other, seq_setInbox]; exact he
  | supply o bs rest hi hf ht => subst ht; cases a <;> exact he
  | row w i rest hi hd row =>
    obtain hseq | ⟨-, o, inp, rfl | rfl⟩ := row.seq_eq_or_started a
    · rw [hseq, seq_setInbox]; exact he
    · exact absurd (.inr ⟨w, o, inp, by rw [hi]; rfl, .inl hd⟩) hclear
    · exact absurd (.inr ⟨w, o, inp, by rw [hi]; rfl, .inr hd⟩) hclear
  | answer w r rest hi ht =>
    subst ht
    rw [answer_seq, seq_setInbox]; exact he

end Sys2Proof.Machine
end

section
/-! No row and no decoder's step depends on what the buffers hold, and no row faults (O53). -/

namespace Sys2Proof.Machine

/-! ## What two appends add -/

section

variable {m m₁ m₂ l l₁ l₂ : Memory}

theorem SameAppends.refl (m l : Memory) : SameAppends m m l l := fun _ => ⟨[], by simp⟩

theorem SameAppends.trans (h : SameAppends m m₁ l l₁) (h' : SameAppends m₁ m₂ l₁ l₂) : SameAppends m m₂ l l₂ := by
  intro k
  obtain ⟨bs, hm, hl⟩ := h k
  obtain ⟨bs', hm', hl'⟩ := h' k
  exact ⟨bs ++ bs', by rw [hm', hm, List.append_assoc], by rw [hl', hl, List.append_assoc]⟩

/-- One append of the same bytes to the same buffer of both (20_memory.md R24). -/
theorem SameAppends.append (hm : m.wf = true) (hl : l.wf = true) (j : Nat) (bs : List Byte) :
    SameAppends m (m.append j bs) l (l.append j bs) := by
  intro k
  by_cases hk : k = j
  · exact ⟨bs, by rw [hk, Memory.read_append _ _ hm], by rw [hk, Memory.read_append _ _ hl]⟩
  · exact ⟨[], by rw [Memory.read_append_other _ _ _ hk, List.append_nil],
      by rw [Memory.read_append_other _ _ _ hk, List.append_nil]⟩

end

/-! ## How operations that ignore the buffers are put together -/

section

variable {f g : State → Out}

/-- A refusal whatever the state. -/
theorem IgnoresBuffers.refused (r : Refusal) : IgnoresBuffers fun _ => .refused r :=
  fun _ _ _ _ => ⟨(fun _ h => nomatch h), fun _ h => h, (fun _ h => nomatch h)⟩

/-- A fault whatever the state. -/
theorem IgnoresBuffers.fault (e : Fault) : IgnoresBuffers fun _ => .fault e :=
  fun _ _ _ _ => ⟨(fun _ h => nomatch h), (fun _ h => nomatch h), fun _ h => h⟩

/-- An update that keeps the buffers and does not read them. -/
theorem IgnoresBuffers.update (w : State → State) (hb : ∀ s, (w s).bufs = s.bufs)
    (hw : ∀ s m, w { s with bufs := m } = { w s with bufs := m }) : IgnoresBuffers fun s => .next (w s) := by
  intro s m _ hm
  refine ⟨fun t ht => ?_, (fun _ h => nomatch h), (fun _ h => nomatch h)⟩
  cases ht
  exact ⟨m, hm, by rw [hb]; exact .refl _ _, congrArg _ (hw s m)⟩

/-- An update that appends bytes to a buffer and does not read the buffers. -/
theorem IgnoresBuffers.append (o : BufId) (bs : List Byte) (w : State → State)
    (hb : ∀ s, (w s).bufs = s.bufs.append o.toNat bs)
    (hw : ∀ s m, w { s with bufs := m } = { w s with bufs := m.append o.toNat bs }) :
    IgnoresBuffers fun s => .next (w s) := by
  intro s m hs hm
  refine ⟨fun t ht => ?_, (fun _ h => nomatch h), (fun _ h => nomatch h)⟩
  cases ht
  exact ⟨_, Memory.wf_append _ _ hm, by rw [hb]; exact .append hs hm _ _, congrArg _ (hw s m)⟩

/-- A choice made by what is not in the buffers: it is enough to know every alternative. -/
theorem IgnoresBuffers.byValue {α : Type} (v : State → α) (hv : ∀ s m, v { s with bufs := m } = v s)
    (f : α → State → Out) (hf : ∀ x, IgnoresBuffers (f x)) : IgnoresBuffers fun s => f (v s) s := by
  intro s m hs hm
  simp only [hv]
  exact hf (v s) s m hs hm

/-- A guard that is no part of the state. -/
theorem IgnoresBuffers.ite (c : Prop) [Decidable c] (hf : IgnoresBuffers f) (hg : IgnoresBuffers g) :
    IgnoresBuffers fun s => if c then f s else g s := by
  by_cases hc : c
  · simpa only [if_pos hc] using hf
  · simpa only [if_neg hc] using hg

/-- What ignores the buffers keeps their canonical form. -/
theorem IgnoresBuffers.canonical (hf : IgnoresBuffers f) {s t : State} (hs : s.bufs.wf = true) (h : f s = .next t) :
    t.bufs.wf = true := by
  obtain ⟨m, hm, -, hm'⟩ := (hf s s.bufs hs hs).1 t h
  rw [show t = { t with bufs := m } from Host.Outcome.next.inj (h.symm.trans hm')]
  exact hm

/-- One after the other. -/
theorem IgnoresBuffers.andThen (hf : IgnoresBuffers f) (hg : IgnoresBuffers g) :
    IgnoresBuffers fun s => andThen (f s) g := by
  intro s m hs hm
  obtain ⟨hnext, hrefused, hfault⟩ := hf s m hs hm
  beta_reduce
  cases hx : f s with
  | next u =>
    obtain ⟨m₁, hm₁, happ, hfm⟩ := hnext u hx
    obtain ⟨hnext', hrefused', hfault'⟩ := hg u m₁ (hf.canonical hs hx) hm₁
    rw [hfm, andThen_next, andThen_next]
    refine ⟨fun t ht => ?_, hrefused', hfault'⟩
    obtain ⟨m₂, hm₂, happ', hgm⟩ := hnext' t ht
    exact ⟨m₂, hm₂, happ.trans happ', hgm⟩
  | refused r =>
    rw [hrefused r hx]
    exact IgnoresBuffers.refused r s m hs hm
  | fault e =>
    rw [hfault e hx]
    exact IgnoresBuffers.fault e s m hs hm

end

/-! ## The operations -/

section

variable (a : AgentId)

theorem seq_setBufs (s : State) (m : Memory) : State.seq { s with bufs := m } a = s.seq a := by cases a <;> rfl

theorem inFlight_setBufs (o : BufId) (s : State) (m : Memory) :
    State.inFlight { s with bufs := m } a o = s.inFlight a o := inFlight_congr a (seq_setBufs a s m)

theorem inUse_setBufs (o : BufId) (s : State) (m : Memory) : State.inUse { s with bufs := m } o = s.inUse o :=
  inUse_congr fun c => seq_setBufs c s m

/-- Returning a value (log 9). -/
theorem IgnoresBuffers.answer (r : Ret) : IgnoresBuffers fun s => .next (s.answer r) :=
  .update _ (fun _ => rfl) fun _ _ => rfl

/-- Work on VDEC's lane vectors. -/
theorem IgnoresBuffers.lanes (f : VRegs → VRegs) : IgnoresBuffers fun s => .next { s with vdp := f s.vdp } :=
  .update _ (fun _ => rfl) fun _ _ => rfl

/-- Work on SDEC's accumulator. -/
theorem IgnoresBuffers.accumulator (f : Acc → Acc) : IgnoresBuffers fun s => .next { s with acc := f s.acc } :=
  .update _ (fun _ => rfl) fun _ _ => rfl

theorem IgnoresBuffers.raiseRow (b : Option Byte) : IgnoresBuffers fun s => .next (raiseRow a b s) :=
  .update _ (raiseRow_bufs · a b) fun _ _ => by cases a <;> rfl

theorem IgnoresBuffers.raiseV : IgnoresBuffers fun s => .next (raiseV s) :=
  .update _ raiseV_bufs fun _ _ => rfl

theorem IgnoresBuffers.raiseS (b : Byte) : IgnoresBuffers fun s => .next (raiseS b s) :=
  .update _ (raiseS_bufs · b) fun _ _ => rfl

theorem IgnoresBuffers.finished : IgnoresBuffers fun s => .next (s.finished a) :=
  .update _ (finished_bufs · a) fun _ _ => by cases a <;> rfl

/-- A row's append reads which buffers are in use and no buffer. -/
theorem IgnoresBuffers.appendRow (o : BufId) (bs : List Byte) : IgnoresBuffers (appendRow a o bs) := by
  refine .byValue (State.inUse · o) (inUse_setBufs o)
    (fun used s => if used = true then .refused .sharedOutput else .next (s.appended a o bs))
    fun used => .ite _ (.refused _) ?_
  exact .append o bs _ (appended_bufs · a o bs) fun _ _ => by cases a <;> rfl

/-- A call's append reads its sequencer and which buffers are in use, and no buffer. -/
theorem IgnoresBuffers.appendStep (bs : List Byte) : IgnoresBuffers (appendStep a bs) := by
  refine .byValue (fun s => (s.seq a).out) (fun s m => by rw [seq_setBufs])
    (fun out s => match out with
      | none => .fault .noOutput
      | some o => if s.inFlight (other a) o then .refused .sharedOutput
          else .next ((s.appended a o bs).setSeq a (s.seq a).advance)) fun out => ?_
  cases out with
  | none => exact .fault _
  | some o =>
    refine .byValue (State.inFlight · (other a) o) (inFlight_setBufs (other a) o)
      (fun used s => if used = true then .refused .sharedOutput
        else .next ((s.appended a o bs).setSeq a (s.seq a).advance)) fun used => .ite _ (.refused _) ?_
    exact .append o bs _ (fun s => by simp) fun _ _ => by cases a <;> rfl

/-- Mapping a byte (41_scalar_reference.md R51). -/
theorem IgnoresBuffers.mapByte (b : Byte) : IgnoresBuffers (mapByte b) := by
  unfold Machine.mapByte
  cases sextetOf b with
  | some x => exact .answer _
  | none => exact .answer _

section

variable {k : List Byte → State → Out} (hk : ∀ bs, IgnoresBuffers (k bs))

include hk

/-- The end of a vector group reads `is_ok`, `L` and the lanes (43_vector_group.md R81). -/
theorem IgnoresBuffers.appendGroup {raise : State → State} (hr : IgnoresBuffers fun s => .next (raise s)) :
    IgnoresBuffers (appendGroup k raise) :=
  .byValue State.vdp (fun _ _ => rfl) (fun r s => if r.isOk = true then k r.outBytes s else .next (raise s))
    fun r => .ite _ (hk r.outBytes) hr

/-- A vector group is work on the lanes, then its end (R82). -/
theorem IgnoresBuffers.groupVector {raise : State → State} (hr : IgnoresBuffers fun s => .next (raise s))
    (g : List Byte) : IgnoresBuffers (groupVector k raise g) :=
  (IgnoresBuffers.lanes (datapath g)).andThen (.appendGroup hk hr)

/-- A scalar group is work on `acc`, then its append or its error (41_scalar_reference.md R55). -/
theorem IgnoresBuffers.groupScalar {raise : Byte → State → State} (hr : ∀ b, IgnoresBuffers fun s => .next (raise b s))
    (g : List Byte) : IgnoresBuffers (groupScalar k raise g) := by
  unfold Machine.groupScalar
  obtain ⟨acc, b⟩ := foldGroup 0 g
  cases b with
  | none => exact (IgnoresBuffers.accumulator fun _ => align acc g.length).andThen (hk _)
  | some b => exact (IgnoresBuffers.accumulator fun _ => acc).andThen (hr b)

end

/-- A step of a decoder: the end test, or the group the sequencer cuts. -/
theorem IgnoresBuffers.agentStep : IgnoresBuffers (agentStep a) := by
  cases a with
  | vdec =>
    refine .byValue State.vseq (fun _ _ => rfl)
      (fun q s => if q.bodyEnd ≤ q.pos then .next (s.finished .vdec)
        else match q.nextGroup with
          | none => .fault .inputOutOfRange
          | some g => Machine.groupVector (Machine.appendStep .vdec) Machine.raiseV g s) fun q => .ite _ (.finished .vdec) ?_
    cases q.nextGroup with
    | none => exact .fault _
    | some g => exact .groupVector (.appendStep .vdec) .raiseV g
  | sdec =>
    refine .byValue State.sseq (fun _ _ => rfl)
      (fun q s => if q.bodyEnd ≤ q.pos then .next (s.finished .sdec)
        else match q.nextGroup with
          | none => .fault .inputOutOfRange
          | some g => Machine.groupScalar (Machine.appendStep .sdec) Machine.raiseS g s) fun q => .ite _ (.finished .sdec) ?_
    cases q.nextGroup with
    | none => exact .fault _
    | some g => exact .groupScalar (.appendStep .sdec) .raiseS g

/-- A whole run of a call, by induction on its steps. -/
theorem IgnoresBuffers.runCall (k : Nat) : IgnoresBuffers (runCall a k) := by
  induction k with
  | zero => exact .update id (fun _ => rfl) fun _ _ => rfl
  | succ k ih =>
    exact .byValue (fun s => (s.seq a).status) (fun s m => by rw [seq_setBufs])
      (fun st s => if st = .run then Machine.andThen (Machine.agentStep a s) (Machine.runCall a k) else .next s)
      fun st => .ite _ ((IgnoresBuffers.agentStep a).andThen ih) (.update id (fun _ => rfl) fun _ _ => rfl)

/-- START reads the two sequencers (40_shared_preprocessing.md R46). -/
theorem IgnoresBuffers.startCall (o : BufId) (inp : List Byte) : IgnoresBuffers (startCall a o inp) := by
  refine .byValue (fun s => ((s.seq a).status, s.inFlight (other a) o))
    (fun s m => by rw [seq_setBufs, inFlight_setBufs])
    (fun x s => if x.1 = .run then .refused .startWhileRunning
      else if x.2 = true then .refused .sharedOutput else .next (s.begun a o inp))
    fun x => .ite _ (.refused _) (.ite _ (.refused _) ?_)
  exact .update _ (begun_bufs · a o inp) fun _ _ => by cases a <;> rfl

/-- A whole call is START and a run (R56, R85). -/
theorem IgnoresBuffers.decodeCall (o : BufId) (inp : List Byte) : IgnoresBuffers (decodeCall a o inp) :=
  (IgnoresBuffers.startCall a o inp).andThen <|
    .byValue (fun s => (s.seq a).callSteps) (fun s m => by rw [seq_setBufs]) (Machine.runCall a) (.runCall a)

end

/-- No row depends on what the buffers hold. -/
theorem exec_ignoresBuffers (i : Instr) : IgnoresBuffers (exec i) := by
  cases i with
  | start a o inp => exact .startCall a o inp
  | decodeS o inp => exact .decodeCall .sdec o inp
  | decodeV o inp => exact .decodeCall .vdec o inp
  | part inp pos bodyEnd => exact .ite _ (.ite _ (.answer _) (.refused _)) (.refused _)
  | nbytes len => exact .ite _ (.answer _) (.refused _)
  | sMap b => exact .mapByte b
  | sFold x => exact .accumulator (fold · x)
  | sAlign len => exact .ite _ (.accumulator (align · len)) (.refused _)
  | sEmit len o =>
    exact .ite _ (.byValue State.acc (fun _ _ => rfl) (fun acc => appendRow .sdec o (emitted acc len))
      fun acc => .appendRow .sdec o _) (.refused _)
  | groupS g o => exact .ite _ (.groupScalar (.appendRow .sdec o) (fun b => .raiseRow .sdec (some b)) g) (.refused _)
  | vload g => exact .ite _ (.lanes (stageLoad g)) (.refused _)
  | vhash => exact .lanes stageHash
  | vvalid => exact .lanes stageValid
  | vlookup => exact .lanes stageLookup
  | vsext => exact .lanes stageSext
  | vwiden => exact .lanes stageWiden
  | vsplit => exact .lanes stageSplit
  | vrot => exact .lanes stageRot
  | vmerge => exact .lanes stageMerge
  | vcompact => exact .lanes stageCompact
  | vappend o => exact .appendGroup (.appendRow .vdec o) (.raiseRow .vdec none)
  | groupV g o => exact .ite _ (.groupVector (.appendRow .vdec o) (.raiseRow .vdec none) g) (.refused _)
  | checkEq x => exact .update _ (fun _ => rfl) fun _ _ => rfl
  | padEq p =>
    cases p with
    | last => exact .answer _
    | secondLast => exact .answer _
    | body => exact .mapByte padChar
  | _ => exact .answer _

/-! ## No row faults -/

section

variable {s : State} {f : Fault}

/-- A guard refuses where it does not hold. -/
theorem ite_ne_fault {c : Prop} [Decidable c] {r : Out} (e : Refusal) (h : r ≠ .fault f) :
    (if c then r else .refused e) ≠ .fault f := by
  split
  · exact h
  · exact nofun

theorem appendRow_ne_fault (a : AgentId) (o : BufId) (bs : List Byte) (s : State) : appendRow a o bs s ≠ .fault f := by
  unfold appendRow
  split <;> exact nofun

theorem mapByte_ne_fault (b : Byte) : mapByte b s ≠ .fault f := by
  unfold mapByte
  split <;> exact nofun

section

variable {k : List Byte → State → Out} (hk : ∀ bs s, k bs s ≠ .fault f)

include hk

theorem appendGroup_ne_fault (raise : State → State) (s : State) : appendGroup k raise s ≠ .fault f := by
  unfold appendGroup
  split
  · exact hk _ _
  · exact nofun

theorem groupScalar_ne_fault (raise : Byte → State → State) (g : List Byte) : groupScalar k raise g s ≠ .fault f := by
  unfold groupScalar
  split
  · exact hk _ _
  · exact nofun

end

/-- START answers the begun call or a refusal. -/
theorem startCall_ne_fault (a : AgentId) (o : BufId) (inp : List Byte) : startCall a o inp s ≠ .fault f := by
  unfold startCall
  split
  · exact nofun
  · split <;> exact nofun

/-- A whole call runs to its end where the agent may be started, and is refused elsewhere (R56, R85). -/
theorem decodeCall_ne_fault (a : AgentId) (o : BufId) (inp : List Byte) : decodeCall a o inp s ≠ .fault f := by
  intro h
  cases hs : startCall a o inp s with
  | next u =>
    obtain ⟨t, ht, -⟩ := decodeCall_spec (startCall_cases hs).1
    exact nomatch ht.symm.trans h
  | refused r => simp [decodeCall, hs] at h
  | fault e => exact startCall_ne_fault a o inp hs

end

/-- No row faults, in any state (log 18). -/
theorem exec_ne_fault (i : Instr) (s : State) (f : Fault) : exec i s ≠ .fault f := by
  cases i with
  | start a o inp => exact startCall_ne_fault a o inp
  | decodeS o inp => exact decodeCall_ne_fault .sdec o inp
  | decodeV o inp => exact decodeCall_ne_fault .vdec o inp
  | part inp pos bodyEnd => exact ite_ne_fault _ (ite_ne_fault _ nofun)
  | nbytes len => exact ite_ne_fault _ nofun
  | sMap b => exact mapByte_ne_fault b
  | sAlign len => exact ite_ne_fault _ nofun
  | sEmit len o => exact ite_ne_fault _ (appendRow_ne_fault .sdec o _ s)
  | groupS g o => exact ite_ne_fault _ (groupScalar_ne_fault (appendRow_ne_fault .sdec o) _ g)
  | vload g => exact ite_ne_fault _ nofun
  | vappend o => exact appendGroup_ne_fault (appendRow_ne_fault .vdec o) _ s
  | groupV g o => exact ite_ne_fault _ (appendGroup_ne_fault (appendRow_ne_fault .vdec o) _ _)
  | padEq p =>
    cases p with
    | last => exact nofun
    | secondLast => exact nofun
    | body => exact mapByte_ne_fault padChar
  | _ => exact nofun

/-- Settles O53: every row and every decoder's step is put together from parts that ignore the buffers. -/
theorem decodersNeverReadTheOutput : Obligations.DecodersNeverReadTheOutput :=
  ⟨exec_ignoresBuffers, .agentStep, exec_ne_fault⟩

end Sys2Proof.Machine
end

section
/-! No step from a good state is a fault, and the two faults are real in states no call reaches (O49). -/

namespace Sys2Proof.Machine

section

variable {a : AgentId} {s : State} {f : Fault}

/-! ## The group a running call fetches -/

/-- PART on a sequencer whose body lies within IN: the next group is there, of 1 to 4 bytes (20_memory.md R22, R23). -/
theorem nextGroup_eq_groupAt {q : Seq} (hb : q.bodyEnd ≤ q.inp.length) (hp : q.pos < q.bodyEnd) :
    q.nextGroup = some (groupAt q.inp q.pos (groupLen q.pos q.bodyEnd)) ∧
      lengthOk (groupAt q.inp q.pos (groupLen q.pos q.bodyEnd)).length = true := by
  have hl : q.pos + groupLen q.pos q.bodyEnd ≤ q.inp.length := by unfold groupLen; omega
  refine ⟨if_pos hl, ?_⟩
  simp only [lengthOk, groupAt, groupLen, List.length_take, List.length_drop, decide_eq_true_eq]
  omega

/-- A group that reaches beyond IN is not there (R22). -/
theorem nextGroup_eq_none {q : Seq} (h : q.inp.length < q.pos + groupLen q.pos q.bodyEnd) : q.nextGroup = none :=
  if_neg (Nat.not_le.mpr h)

/-! ## The two faults of a decoder's step (log 18) -/

/-- A step on a group beyond IN stops before it reads. -/
theorem agentStep_inputOutOfRange (hp : (s.seq a).pos < (s.seq a).bodyEnd) (hg : (s.seq a).nextGroup = none) :
    agentStep a s = .fault .inputOutOfRange := by
  cases a
  · rw [seq_vdec] at hp hg
    simp only [agentStep, vdecStep, if_neg (Nat.not_le.mpr hp), hg]
  · rw [seq_sdec] at hp hg
    simp only [agentStep, sdecStep, if_neg (Nat.not_le.mpr hp), hg]

/-- A step on a valid group is work on the agent's registers, then the append (41_scalar_reference.md R56;
44_vector_message.md R85). -/
theorem agentStep_eq_appendStep {g : List Byte} (hp : (s.seq a).pos < (s.seq a).bodyEnd)
    (hg : (s.seq a).nextGroup = some g) (hl : lengthOk g.length = true) (hv : g.all valid = true) :
    ∃ u, Worked a s u ∧ agentStep a s = appendStep a (groupBytes g) u := by
  cases a with
  | vdec =>
    rw [seq_vdec] at hp hg
    refine ⟨_, ⟨datapath g s.vdp, .inl (nextGroup_length hg), rfl⟩, ?_⟩
    simp only [agentStep, vdecStep, if_neg (Nat.not_le.mpr hp), hg, groupVector_valid hl hv]
  | sdec =>
    rw [seq_sdec] at hp hg
    refine ⟨_, ⟨align (foldGroup 0 g).1 g.length, rfl⟩, ?_⟩
    simp only [agentStep, sdecStep, if_neg (Nat.not_le.mpr hp), hg, groupScalar_valid hl hv]

/-- A call's append without an OUT stops. -/
theorem appendStep_noOutput (h : (s.seq a).out = none) (bs : List Byte) : appendStep a bs s = .fault .noOutput := by
  simp only [appendStep, h]

/-! ## A good state's step is no fault -/

/-- A running decoder of a good state takes its step: its body lies within IN, and no other call is on its OUT
(20_memory.md R22, R28). -/
theorem GoodState.agentStep_next (h : GoodState s) (hr : (s.seq a).status = .run) :
    ∃ t, Machine.agentStep a s = .next t := by
  have hq := h.seqInv a
  obtain ⟨hn, -, o, ho⟩ := hq.running hr
  have hb : (s.seq a).bodyEnd ≤ (s.seq a).inp.length := hn ▸ hq.stripped.1
  by_cases hp : (s.seq a).bodyEnd ≤ (s.seq a).pos
  · exact ⟨_, agentStep_end hp⟩
  have hp : (s.seq a).pos < (s.seq a).bodyEnd := Nat.not_le.mp hp
  cases hfind : ((s.seq a).rest.take 4).find? fun b => !valid b with
  | none =>
    have hv : ((s.seq a).rest.take 4).all valid = true := by simpa using hfind
    obtain ⟨u, hu, -⟩ := agentStep_valid hb hp ho (h.exclusive ((inFlight_iff s a o).mpr ⟨hr, ho⟩)) hv
    exact ⟨_, hu⟩
  | some b =>
    obtain ⟨u, hu, -⟩ := agentStep_invalid hb hp hfind
    exact ⟨_, hu⟩

/-- What the decoders do on their own is nothing, or the step of one that runs (log 7, log 8). -/
theorem autoStep_eq (s : State) :
    autoStep s = .next s ∨
      ∃ a turns, (s.seq a).status = .run ∧ autoStep s = agentStep a { s with turns := turns } := by
  unfold autoStep
  split
  · rename_i hr
    refine .inr ⟨Config.freeTurn s.turns, s.turns + 1, ?_, rfl⟩
    cases Config.freeTurn s.turns
    · exact hr.1
    · exact hr.2
  · split
    · exact .inr ⟨.vdec, s.turns, ‹_›, rfl⟩
    · split
      · exact .inr ⟨.sdec, s.turns, ‹_›, rfl⟩
      · exact .inl rfl

/-- The free value's counter plays no part in a sequencer. -/
theorem seq_setTurns (turns : Nat) (c : AgentId) : State.seq { s with turns := turns } c = s.seq c := by
  cases c <;> rfl

/-- The decoders of a good state move on their own without a fault. -/
theorem GoodState.autoStep_ne_fault (h : GoodState s) : autoStep s ≠ .fault f := by
  obtain hs | ⟨a, turns, hr, hs⟩ := autoStep_eq s
  · rw [hs]; exact nofun
  · have hg : GoodState { s with turns := turns } := h.congr (seq_setTurns turns) h.canonical h.loaded
    obtain ⟨t, ht⟩ := hg.agentStep_next (by rw [seq_setTurns]; exact hr)
    rw [hs, ht]; exact nofun

/-- A rejected word is answered or refused (log 14). -/
theorem rejectWord_ne_fault (e : DecodeError) : rejectWord e s ≠ .fault f := by
  cases e with
  | invalidByte b => exact mapByte_ne_fault b
  | _ => exact nofun

/-- A presented word is a row, or is rejected. -/
theorem runWord_ne_fault (w : FetchWord) : runWord w s ≠ .fault f := by
  unfold runWord
  split
  · exact exec_ne_fault _ s f
  · exact rejectWord_ne_fault _

/-- A buffer is handed over, or the move is refused (20_memory.md R28). -/
theorem supplyBuffer_ne_fault (o : BufId) (bs : List Byte) : supplyBuffer o bs s ≠ .fault f := by
  unfold supplyBuffer
  split <;> exact nofun

/-- Only silence lets a decoder run, so only there the invariant is needed. -/
theorem GoodState.serve_ne_fault (h : GoodState s) (e : Stimulus) : serve e s ≠ .fault f := by
  cases e with
  | quiet => exact h.autoStep_ne_fault
  | rst a => exact nofun
  | supply o bs => exact supplyBuffer_ne_fault o bs
  | word w => exact runWord_ne_fault w

/-- No step from a good state is a fault (60_exceptions.md R98). -/
theorem GoodState.safeStep (h : GoodState s) : SafeStep s := by
  intro f
  cases hi : s.inbox with
  | nil =>
    have hs : step s = autoStep s := by simp only [step, nextMove, hi]
    rw [hs]; exact h.autoStep_ne_fault
  | cons e rest =>
    rw [step_of_inbox hi]; exact (h.setInbox rest).serve_ne_fault e

end

/-- Settles O49: in a good state a running call's body lies within IN and its OUT is its own, so a decoder's step
answers, and no other move can fault; without the invariant PART finds no group, or the append finds no OUT. -/
theorem noGoodStateFaults : Obligations.NoGoodStateFaults := by
  refine ⟨fun s h => h.safeStep, fun a s hp => ⟨fun hlen => ?_, fun hb ho hv => ?_⟩⟩
  · exact agentStep_inputOutOfRange hp (nextGroup_eq_none hlen)
  · obtain ⟨hg, hl⟩ := nextGroup_eq_groupAt hb hp
    obtain ⟨u, hw, hu⟩ := agentStep_eq_appendStep hp hg hl hv
    rw [hu]
    exact appendStep_noOutput (by rw [hw.seq]; exact ho) _

end Sys2Proof.Machine
end

section
/-! The operand bytes (30_encoding.md R41; log 2): how each reader of the decoder inverts the bytes the encoder writes. -/

namespace Sys2Proof

/-- Vectors with the same lanes are the same. -/
theorem Lanes.ext_get {α : Type} {v w : Lanes α} (h : ∀ n, v.get n = w.get n) : v = w :=
  Lanes.ext (h 0) (h 1) (h 2) (h 3) (h 4) (h 5) (h 6) (h 7)

/-! ## Words within a byte, and the two bytes of a half -/

/-- A byte in the range of a narrower word is that word's byte. -/
theorem setWidth_byte_of_toNat_lt {w : Nat} {b : Byte} (h : b.toNat < 2 ^ w) : (b.setWidth w).setWidth 8 = b := by
  apply BitVec.eq_of_toNat_eq
  rw [BitVec.toNat_setWidth, BitVec.toNat_setWidth, Nat.mod_eq_of_lt h, Nat.mod_eq_of_lt b.isLt]

/-- The byte of a narrower word reads back as the word. -/
theorem setWidth_setWidth_byte {w : Nat} (x : BitVec w) (hw : w ≤ 8) : (x.setWidth 8).setWidth w = x := by
  rw [BitVec.setWidth_setWidth_of_le _ hw, BitVec.setWidth_eq]

/-- The byte of a narrower word is in its range. -/
theorem toNat_setWidth_byte_lt {w : Nat} (x : BitVec w) (hw : w ≤ 8) : (x.setWidth 8).toNat < 2 ^ w := by
  rw [BitVec.toNat_setWidth_of_le hw]
  exact x.isLt

/-- A widened lane is its high byte, then its low byte. -/
theorem high_append_low (h : Half) : h.extractLsb' 8 8 ++ h.extractLsb' 0 8 = h :=
  (BitVec.extractLsb'_append_extractLsb'_eq_extractLsb' rfl).trans BitVec.extractLsb'_eq_self

theorem low_of_append (a b : Byte) : (a ++ b).extractLsb' 0 8 = b := BitVec.extractLsb'_append_eq_right

theorem high_of_append (a b : Byte) : (a ++ b).extractLsb' 8 8 = a := BitVec.extractLsb'_append_eq_left

section

variable {bs rest : List Byte} {b : Byte} {i : Instr} {k : Nat}

/-! ## One operand byte -/

theorem agentOf_eq_ok_iff {f : AgentId → Decoded} : agentOf f b = .ok i ↔ ∃ a, b = agentByte a ∧ f a = .ok i := by
  constructor
  · intro h
    unfold agentOf at h
    split at h
    · exact ⟨.vdec, ‹_›, h⟩
    · split at h
      · exact ⟨.sdec, ‹_›, h⟩
      · cases h
  · rintro ⟨a, rfl, h⟩
    cases a <;> exact h

/-- `L - 1` fits the byte. -/
theorem lengthByte_toNat {len : Nat} (h : lengthOk len = true) : (lengthByte len).toNat = len - 1 := by
  simp only [lengthOk, decide_eq_true_eq] at h
  simp only [lengthByte, BitVec.toNat_ofNat]
  omega

theorem lengthOf_eq_ok_iff {f : Nat → Instr} :
    lengthOf f b = .ok i ↔ ∃ len, lengthOk len = true ∧ b = lengthByte len ∧ i = f len := by
  unfold lengthOf
  constructor
  · intro h
    split at h
    · cases h
      exact ⟨b.toNat + 1, decide_eq_true (by omega), by simp [lengthByte], rfl⟩
    · cases h
  · rintro ⟨len, h, rfl, rfl⟩
    rw [lengthByte_toNat h]
    simp only [lengthOk, decide_eq_true_eq] at h
    rw [if_pos (by omega), Nat.sub_add_cancel h.1]

/-- A mask's byte, read bit by bit. -/
theorem maskOf_maskByte (m : Lanes Bool) : maskOf (maskByte m) = m := by
  obtain ⟨m0, m1, m2, m3, m4, m5, m6, m7⟩ := m
  decide +revert

theorem maskByte_maskOf (b : Byte) : maskByte (maskOf b) = b := by
  decide +revert

/-! ## PART's numbers -/

theorem naturalOf_naturalBytes (k : Nat) (rest : List Byte) : naturalOf (naturalBytes k ++ rest) = .ok (k, rest) := by
  induction k with
  | zero => rfl
  | succ k ih =>
    change naturalOf (1 :: (naturalBytes k ++ rest)) = _
    simp [naturalOf, ih]

theorem naturalOf_eq_ok_iff : naturalOf bs = .ok (k, rest) ↔ bs = naturalBytes k ++ rest := by
  constructor
  · intro h
    induction bs generalizing k with
    | nil => cases h
    | cons b bs ih =>
      unfold naturalOf at h
      split at h
      · cases h; simp [naturalBytes, *]
      · split at h
        · split at h
          · cases h
            rw [ih ‹_›, ‹b = 1›]; rfl
          · cases h
        · cases h
  · rintro rfl
    exact naturalOf_naturalBytes k rest

theorem partOf_eq_ok_iff : partOf bs = .ok i ↔
    ∃ inp pos k, k ≤ inp.length ∧ bs = naturalBytes pos ++ (naturalBytes k ++ inp) ∧
      i = .part inp pos (inp.length - k) := by
  constructor
  · intro h
    unfold partOf at h
    split at h
    · cases h
    · rename_i pos more hpos
      split at h
      · cases h
      · rename_i k inp hk
        split at h
        · cases h
          exact ⟨inp, pos, k, ‹_›, by rw [← naturalOf_eq_ok_iff.mp hk, ← naturalOf_eq_ok_iff.mp hpos], rfl⟩
        · cases h
  · rintro ⟨inp, pos, k, hk, rfl, rfl⟩
    simp only [partOf, naturalOf_naturalBytes, if_pos hk]

/-! ## Groups -/

theorem groupOf_eq_ok_iff {f : List Byte → Instr} : groupOf f bs = .ok i ↔ lengthOk bs.length = true ∧ i = f bs := by
  unfold groupOf
  constructor
  · intro h
    split at h
    · cases h
    · split at h
      · cases h; exact ⟨‹_›, rfl⟩
      · cases h
  · rintro ⟨hl, rfl⟩
    have hpos : bs.length ≠ 0 := fun h0 => by rw [h0] at hl; cases hl
    rw [if_neg hpos, if_pos hl]

/-! ## Lanes -/

theorem takeLanes_eq_some_iff {v : Lanes Byte} : takeLanes bs = some (v, rest) ↔ bs = v.toList ++ rest := by
  constructor
  · intro h
    unfold takeLanes at h
    split at h
    · cases h; rfl
    · cases h
  · rintro rfl; rfl

theorem takeHalves_eq_some_iff {w : Lanes Half} : takeHalves bs = some (w, rest) ↔ bs = halvesBytes w ++ rest := by
  constructor
  · intro h
    unfold takeHalves at h
    split at h
    · cases h
      simp only [halvesBytes, Lanes.toList, List.flatMap_cons, List.flatMap_nil, low_of_append, high_of_append]
      rfl
    · cases h
  · rintro rfl
    simp only [halvesBytes, Lanes.toList, List.flatMap_cons, List.flatMap_nil, List.cons_append, List.nil_append,
      takeHalves, high_append_low]

theorem halvesThen_halvesBytes (f : Lanes Half → List Byte → Decoded) (w : Lanes Half) (rest : List Byte) :
    halvesThen f (halvesBytes w ++ rest) = f w rest := by
  rw [halvesThen, takeHalves_eq_some_iff.mpr rfl]

theorem indicesOf_eq_ok_iff {f : Lanes (BitVec 3) → Instr} {v : Lanes Byte} :
    indicesOf f v = .ok i ↔ ∃ ix : Lanes (BitVec 3), v = ix.map (BitVec.setWidth 8) ∧ i = f ix := by
  unfold indicesOf
  constructor
  · intro h
    split at h
    · rename_i hv
      cases h
      refine ⟨_, Lanes.ext_get fun n => ?_, rfl⟩
      have hn : (v.get n).toNat < 2 ^ 3 := by simpa [indexOk] using congrArg (Lanes.get · n) hv
      rw [Lanes.get_map, Lanes.get_map, setWidth_byte_of_toNat_lt hn]
    · cases h
  · rintro ⟨ix, rfl, rfl⟩
    rw [if_pos (Lanes.ext_get fun n => ?_)]
    · congr 2
      exact Lanes.ext_get fun n => by rw [Lanes.get_map, Lanes.get_map, setWidth_setWidth_byte _ (by decide)]
    · rw [Lanes.get_map, Lanes.get_map, Lanes.get_fill]
      exact decide_eq_true (toNat_setWidth_byte_lt (ix.get n) (by decide))

/-! ## The place of a padding symbol (R35; log 12) -/

theorem padPlaceOf_eq_ok_iff : padPlaceOf b = .ok i ↔ ∃ p, b = padPlaceByte p ∧ i = .padEq p := by
  unfold padPlaceOf
  constructor
  · intro h
    split at h
    · cases h; exact ⟨.last, ‹_›, rfl⟩
    · split at h
      · cases h; exact ⟨.secondLast, ‹_›, rfl⟩
      · split at h
        · cases h; exact ⟨.body, ‹_›, rfl⟩
        · cases h
  · rintro ⟨p, rfl, rfl⟩
    cases p <;> rfl

end

/-! ## The characters of a group word (R32; 43_vector_group.md R83) -/

theorem charAt_toNat (chars : BitVec 32) (k : Nat) : (charAt chars k).toNat = chars.toNat / 2 ^ (8 * k) % 2 ^ 8 := by
  rw [charAt, BitVec.extractLsb'_toNat, Nat.shiftRight_eq_div_pow]

theorem toNat_append_byte {w : Nat} (x : BitVec w) (b : Byte) : (x ++ b).toNat = x.toNat * 2 ^ 8 + b.toNat := by
  rw [BitVec.toNat_append, ← Nat.shiftLeft_add_eq_or_of_lt b.isLt, Nat.shiftLeft_eq]

/-- Character 0 stands in the low byte of the word. -/
theorem charAt_append (c3 c2 c1 c0 : Byte) :
    charAt (c3 ++ c2 ++ c1 ++ c0) 0 = c0 ∧ charAt (c3 ++ c2 ++ c1 ++ c0) 1 = c1 ∧
      charAt (c3 ++ c2 ++ c1 ++ c0) 2 = c2 ∧ charAt (c3 ++ c2 ++ c1 ++ c0) 3 = c3 := by
  have h0 := c0.isLt
  have h1 := c1.isLt
  have h2 := c2.isLt
  have h3 := c3.isLt
  simp only [← BitVec.toNat_inj, charAt_toNat, toNat_append_byte]
  omega

end Sys2Proof
end

section
/-! Decoding the word of a row gives it back (O58). -/

namespace Sys2Proof

section

variable (c0 c1 c2 c3 : Byte)

theorem decode_encode_g4 : decode (encode (.g4 c0 c1 c2 c3)) = .ok (.g4 c0 c1 c2 c3) := by
  obtain ⟨h0, h1, h2, h3⟩ := charAt_append c3 c2 c1 c0
  exact congrArg _ ((Instr.g4.injEq ..).mpr ⟨h0, h1, h2, h3⟩)

theorem decode_encode_g3 : decode (encode (.g3 c0 c1 c2)) = .ok (.g3 c0 c1 c2) := by
  obtain ⟨h0, h1, h2, -⟩ := charAt_append 0 c2 c1 c0
  exact congrArg _ ((Instr.g3.injEq ..).mpr ⟨h0, h1, h2⟩)

theorem decode_encode_g2 : decode (encode (.g2 c0 c1)) = .ok (.g2 c0 c1) := by
  obtain ⟨h0, h1, -, -⟩ := charAt_append 0 0 c1 c0
  exact congrArg _ ((Instr.g2.injEq ..).mpr ⟨h0, h1⟩)

theorem decode_encode_g1 : decode (encode (.g1 c0)) = .ok (.g1 c0) := by
  obtain ⟨h0, -, -, -⟩ := charAt_append 0 0 0 c0
  exact congrArg _ ((Instr.g1.injEq ..).mpr h0)

end

/-- Settles O58: row by row. Where the operand bytes are the operands themselves the decoder computes; for the others each
reader inverts the bytes its operand is written in. -/
theorem decodeOfEncodeIsTheRow : Obligations.DecodeOfEncodeIsTheRow := by
  intro i h
  cases i with
  | start a o inp => cases a <;> rfl
  | part inp pos bodyEnd =>
    exact partOf_eq_ok_iff.mpr ⟨inp, pos, _, Nat.sub_le _ _, rfl, by rw [Nat.sub_sub_self (of_decide_eq_true h)]⟩
  | nbytes len => exact lengthOf_eq_ok_iff.mpr ⟨len, h, rfl, rfl⟩
  | sAlign len => exact lengthOf_eq_ok_iff.mpr ⟨len, h, rfl, rfl⟩
  | sEmit len o => exact (lengthOf_eq_ok_iff (f := (.sEmit · o))).mpr ⟨len, h, rfl, rfl⟩
  | sFold x =>
    exact (if_pos (toNat_setWidth_byte_lt x (by decide))).trans (by rw [setWidth_setWidth_byte x (by decide)])
  | pSrl8 v k =>
    exact (if_pos (decide_eq_true (toNat_setWidth_byte_lt k (by decide)))).trans
      (by rw [setWidth_setWidth_byte k (by decide)])
  | groupS g o => exact (groupOf_eq_ok_iff (f := (.groupS · o))).mpr ⟨h, rfl⟩
  | vload g => exact groupOf_eq_ok_iff.mpr ⟨h, rfl⟩
  | groupV g o => exact (groupOf_eq_ok_iff (f := (.groupV · o))).mpr ⟨h, rfl⟩
  | pAndr m => exact congrArg (fun m => Except.ok (Instr.pAndr m)) (maskOf_maskByte m)
  | pSllv16 w k => exact halvesThen_halvesBytes (fun w => lanesThen fun k => noOperand (.pSllv16 w k)) w k.toList
  | pLo8 w => exact halvesThen_halvesBytes (fun w => noOperand (.pLo8 w)) w []
  | pHi8 w => exact halvesThen_halvesBytes (fun w => noOperand (.pHi8 w)) w []
  | pGather8 v ix => exact indicesOf_eq_ok_iff.mpr ⟨ix, rfl, rfl⟩
  | padEq p => cases p <;> rfl
  | g4 c0 c1 c2 c3 => exact decode_encode_g4 c0 c1 c2 c3
  | g3 c0 c1 c2 => exact decode_encode_g3 c0 c1 c2
  | g2 c0 c1 => exact decode_encode_g2 c0 c1
  | g1 c0 => exact decode_encode_g1 c0
  | _ => rfl

end Sys2Proof
end

section
/-! A word that decodes is well formed and its row's own, up to ignored characters of a group (O59). -/

namespace Sys2Proof

/-! ## The symbols of the text port (30_encoding.md R34, R36) -/

set_option maxRecDepth 20000 in
/-- The symbol rows are those of the valid bytes. -/
theorem symbolOf_isSome : ∀ b : Byte, (symbolOf b).isSome = Machine.valid b := by
  decide

set_option maxRecDepth 20000 in
/-- A symbol row's word is its byte. -/
theorem encode_of_symbolOf : ∀ b : Byte, ∀ i ∈ symbolOf b, WellFormed i = true ∧ encode i = .text [b] := by
  decide

/-! ## Reading keeps what was written -/

/-- Every byte list that `p` accepts stands, with the instruction `p` answers, in the relation `P`. -/
def Reads (P : List Byte → Instr → Prop) (p : List Byte → Decoded) : Prop := ∀ bs i, p bs = .ok i → P bs i

/-- The instruction is well formed and `w` is its word. -/
def OwnWord (w : FetchWord) (i : Instr) : Prop := WellFormed i = true ∧ encode i = w

section

variable {P : List Byte → Instr → Prop}

theorem Reads.all {g : List Byte → Instr} (h : ∀ bs, P bs (g bs)) : Reads P fun bs => .ok (g bs) := by
  intro bs i hi
  cases hi
  exact h bs

theorem Reads.none {j : Instr} (h : P [] j) : Reads P (noOperand j) := by
  intro bs i hi
  cases bs with
  | nil => cases hi; exact h
  | cons b bs => cases hi

theorem Reads.first {p : List Byte → Decoded} (hnil : ∀ i, p [] ≠ .ok i)
    (h : ∀ b, Reads (fun bs => P (b :: bs)) fun bs => p (b :: bs)) : Reads P p := by
  intro bs i hi
  cases bs with
  | nil => exact absurd hi (hnil i)
  | cons b bs => exact h b bs i hi

theorem Reads.oneByte {f : Byte → Decoded} (h : ∀ b i, f b = .ok i → P [b] i) : Reads P (oneByte f) := by
  intro bs i hi
  match bs, hi with
  | [b], hi => exact h b i hi

theorem Reads.byte {g : Byte → Instr} (h : ∀ b, P [b] (g b)) : Reads P (Sys2Proof.oneByte fun b => .ok (g b)) :=
  .oneByte fun b i hi => by cases hi; exact h b

/-- A byte that holds an operand narrower than a byte. -/
theorem Reads.bits {w : Nat} {c : Byte → Prop} [DecidablePred c] {g : BitVec w → Instr} {e : DecodeError}
    (hc : ∀ b, c b → b.toNat < 2 ^ w) (h : ∀ x, P [x.setWidth 8] (g x)) :
    Reads P (Sys2Proof.oneByte fun b => if c b then .ok (g (b.setWidth w)) else .error e) :=
  .oneByte fun b i hi => by
    split at hi
    · cases hi
      have hb := h (b.setWidth w)
      rwa [setWidth_byte_of_toNat_lt (hc b ‹_›)] at hb
    · cases hi

theorem Reads.length {g : Nat → Instr} (h : ∀ len, lengthOk len = true → P [lengthByte len] (g len)) :
    Reads P (Sys2Proof.oneByte (lengthOf g)) :=
  .oneByte fun b i hi => by
    obtain ⟨len, hl, rfl, rfl⟩ := lengthOf_eq_ok_iff.mp hi
    exact h len hl

theorem Reads.group {g : List Byte → Instr} (h : ∀ bs, lengthOk bs.length = true → P bs (g bs)) :
    Reads P (groupOf g) := by
  intro bs i hi
  obtain ⟨hl, rfl⟩ := groupOf_eq_ok_iff.mp hi
  exact h bs hl

theorem Reads.lanes {f : Lanes Byte → List Byte → Decoded} (h : ∀ v, Reads (fun bs => P (v.toList ++ bs)) (f v)) :
    Reads P (lanesThen f) := by
  intro bs i hi
  unfold lanesThen at hi
  split at hi
  · rename_i v rest hv
    rw [takeLanes_eq_some_iff.mp hv]
    exact h v rest i hi
  · cases hi

theorem Reads.halves {f : Lanes Half → List Byte → Decoded} (h : ∀ w, Reads (fun bs => P (halvesBytes w ++ bs)) (f w)) :
    Reads P (halvesThen f) := by
  intro bs i hi
  unfold halvesThen at hi
  split at hi
  · rename_i w rest hw
    rw [takeHalves_eq_some_iff.mp hw]
    exact h w rest i hi
  · cases hi

end

/-! ## The operations -/

/-- PART's operand bytes are those of the instruction they give. -/
theorem ownWord_of_partOf : Reads (fun bs => OwnWord (.key (2 :: bs))) partOf := by
  intro bs i h
  obtain ⟨inp, pos, k, hk, rfl, rfl⟩ := partOf_eq_ok_iff.mp h
  exact ⟨decide_eq_true (Nat.sub_le _ _), by rw [encode, Nat.sub_sub_self hk]⟩

/-- START's agent byte is the agent's. -/
theorem ownWord_of_start (a o : Byte) : Reads (fun bs => OwnWord (.key (0 :: a :: o :: bs)))
    fun inp => agentOf (fun ag => .ok (.start ag o inp)) a := by
  intro inp i h
  obtain ⟨a, rfl, ha⟩ := agentOf_eq_ok_iff.mp h
  cases ha
  exact ⟨rfl, rfl⟩

/-- S.EMIT's length byte stands before its OUT. -/
theorem ownWord_of_emit (b : Byte) : Reads (fun bs => OwnWord (.key (7 :: b :: bs)))
    (oneByte fun o => lengthOf (fun len => .sEmit len o) b) := by
  refine .oneByte fun o i h => ?_
  obtain ⟨len, hl, rfl, rfl⟩ := lengthOf_eq_ok_iff.mp h
  exact ⟨hl, rfl⟩

/-- P.GATHER8's indices are one a byte, and nothing follows. -/
theorem ownWord_of_gather (v ix : Lanes Byte) : Reads (fun bs => OwnWord (.key (22 :: (v.toList ++ (ix.toList ++ bs)))))
    fun more => match more with
      | [] => indicesOf (.pGather8 v) ix
      | _ :: _ => .error .extraOperand := by
  intro bs i h
  cases bs with
  | nil =>
    obtain ⟨ix, rfl, rfl⟩ := indicesOf_eq_ok_iff.mp h
    exact ⟨rfl, rfl⟩
  | cons b bs => cases h

/-- The keys above 36 name nothing (R41). -/
theorem decodeOp_unnamed {k : Nat} (hk : 37 ≤ k) (rest : List Byte) : decodeOp k rest = .error (.unnamedOpnum k) := by
  unfold decodeOp
  split
  case h_38 => rfl
  all_goals omega

/-- An operation's word that decodes is the word of the instruction it gives, key by key (R41). -/
theorem ownWord_of_decodeOp : ∀ k, Reads (fun bs => OwnWord (.key (BitVec.ofNat 8 k :: bs))) (decodeOp k)
  | 0 => .first nofun fun a => .first nofun fun o => ownWord_of_start a o
  | 1 => .all fun _ => ⟨rfl, rfl⟩
  | 2 => ownWord_of_partOf
  | 3 => .length fun _ hl => ⟨hl, rfl⟩
  | 4 => .byte fun _ => ⟨rfl, rfl⟩
  | 5 => .bits (w := 6) (fun _ hb => hb) fun _ => ⟨rfl, rfl⟩
  | 6 => .length fun _ hl => ⟨hl, rfl⟩
  | 7 => .first nofun ownWord_of_emit
  | 8 => .first nofun fun _ => .group (g := (.groupS · _)) fun _ hl => ⟨hl, rfl⟩
  | 9 => .first nofun fun _ => .all fun _ => ⟨rfl, rfl⟩
  | 10 => .lanes fun _ => .bits (fun _ hb => of_decide_eq_true hb) fun _ => ⟨rfl, rfl⟩
  | 11 => .lanes fun _ => .byte fun _ => ⟨rfl, rfl⟩
  | 12 => .lanes fun _ => .lanes fun _ => .none ⟨rfl, rfl⟩
  | 13 => .lanes fun _ => .lanes fun _ => .none ⟨rfl, rfl⟩
  | 14 => .lanes fun _ => .none ⟨rfl, rfl⟩
  | 15 => .byte fun b => ⟨rfl, by rw [encode, maskByte_maskOf]; rfl⟩
  | 16 => .lanes fun _ => .none ⟨rfl, rfl⟩
  | 17 => .halves fun _ => .lanes fun _ => .none ⟨rfl, rfl⟩
  | 18 => .halves fun _ => .none ⟨rfl, rfl⟩
  | 19 => .halves fun _ => .none ⟨rfl, rfl⟩
  | 20 => .lanes fun _ => .none ⟨rfl, rfl⟩
  | 21 => .lanes fun _ => .lanes fun _ => .none ⟨rfl, rfl⟩
  | 22 => .lanes fun v => .lanes fun ix => ownWord_of_gather v ix
  | 23 => .group fun _ hl => ⟨hl, rfl⟩
  | 24 => .none ⟨rfl, rfl⟩
  | 25 => .none ⟨rfl, rfl⟩
  | 26 => .none ⟨rfl, rfl⟩
  | 27 => .none ⟨rfl, rfl⟩
  | 28 => .none ⟨rfl, rfl⟩
  | 29 => .none ⟨rfl, rfl⟩
  | 30 => .none ⟨rfl, rfl⟩
  | 31 => .none ⟨rfl, rfl⟩
  | 32 => .none ⟨rfl, rfl⟩
  | 33 => .byte fun _ => ⟨rfl, rfl⟩
  | 34 => .first nofun fun _ => .group (g := (.groupV · _)) fun _ hl => ⟨hl, rfl⟩
  | 35 => .first nofun fun _ => .all fun _ => ⟨rfl, rfl⟩
  | 36 => .all fun _ => ⟨rfl, rfl⟩
  | k + 37 => fun bs i h => nomatch (decodeOp_unnamed (Nat.le_add_left 37 k) bs).symm.trans h

/-- The key byte is the key. -/
theorem ownWord_of_decodeKey : Reads (fun bs => OwnWord (.key bs)) decodeKey := by
  refine .first nofun fun op bs i h => ?_
  simp only [decodeKey] at h
  split at h
  · have hw := ownWord_of_decodeOp op.toNat bs i h
    rwa [BitVec.ofNat_toNat, BitVec.setWidth_eq] at hw
  · cases h

/-! ## The text port and the group port -/

/-- A byte of the text port is that of its symbol row; `=` carries its place (R34, R35). -/
theorem ownWord_of_decodeText : Reads (fun bs => OwnWord (.text bs)) decodeText := by
  refine .first nofun fun b bs i h => ?_
  simp only [decodeText] at h
  split at h
  · rename_i hb
    subst hb
    refine Reads.oneByte (P := fun bs => OwnWord (.text (0x3D :: bs))) (fun b i hp => ?_) bs i h
    obtain ⟨p, rfl, rfl⟩ := padPlaceOf_eq_ok_iff.mp hp
    exact ⟨rfl, rfl⟩
  · split at h
    · exact Reads.none (P := fun bs => OwnWord (.text (b :: bs))) (encode_of_symbolOf b _ ‹_›) bs i h
    · split at h <;> cases h

/-- A group word is its row's own but for the characters at and above `g_len`, which the row's own word has 0 (R32, R83;
D12). -/
theorem ownWord_of_decodeGroup {chars : BitVec 32} {len : BitVec 3} {i : Instr} (h : decodeGroup chars len = .ok i) :
    OwnWord (.group (BitVec.ofNat 32 (chars.toNat % 2 ^ (8 * len.toNat))) len) i := by
  unfold decodeGroup at h
  split at h
  case h_1 | h_6 => cases h
  all_goals
    rename_i hl
    cases h
    refine ⟨rfl, (FetchWord.group.injEq ..).mpr ⟨?_, (BitVec.eq_of_toNat_eq hl).symm⟩⟩
    rw [← BitVec.toNat_inj, hl]
    have hc := chars.isLt
    simp only [toNat_append_byte, charAt_toNat, BitVec.ofNat_eq_ofNat, BitVec.toNat_ofNat]
    omega

/-- Settles O59: each port's reader answers only what the word is written for. -/
theorem everyDecodedWordIsARowsOwn : Obligations.EveryDecodedWordIsARowsOwn := by
  intro w i h
  cases w with
  | key bs => exact (ownWord_of_decodeKey bs i h).imp_right .inl
  | text bs => exact (ownWord_of_decodeText bs i h).imp_right .inl
  | group chars len => exact (ownWord_of_decodeGroup h).imp_right fun he => .inr ⟨chars, len, rfl, he⟩

end Sys2Proof
end

section
/-! The alphabet: the wired constants (O2), the sextets (O12), the symbol rows (O37) and the invalid bytes (O13). -/

namespace Sys2Proof.Machine

/-! ## The wired constants (30_encoding.md R37, R38) -/

/-- Settles O2: the wired constants, lane by lane. -/
theorem constantsAreAsWired : Obligations.ConstantsAreAsWired := by
  unfold Obligations.ConstantsAreAsWired
  decide

/-! ## The sextets (30_encoding.md R34) -/

/-- The byte of a sextet: the alphabet read the other way. -/
def byteOfSextet (x : Sextet) : Byte :=
  if x.toNat < 26 then BitVec.ofNat 8 (x.toNat + 0x41)
  else if x.toNat < 52 then BitVec.ofNat 8 (x.toNat - 26 + 0x61)
  else if x.toNat < 62 then BitVec.ofNat 8 (x.toNat - 52 + 0x30)
  else if x.toNat = 62 then 0x2B else 0x2F

theorem sextetOf_byteOfSextet (x : Sextet) : sextetOf (byteOfSextet x) = some x := by
  decide +revert

/-- The sextet of a byte determines the byte. -/
theorem eq_of_sextetNat_eq {b c : Byte} (hb : valid b = true) (hc : valid c = true) (h : sextetNat b = sextetNat c) :
    b = c := by
  simp only [valid, decide_eq_true_eq] at hb hc
  apply BitVec.eq_of_toNat_eq
  unfold sextetNat at h
  repeat' split at h
  all_goals omega

theorem sextetOf_eq_some_iff {b : Byte} {x : Sextet} : sextetOf b = some x ↔ b = byteOfSextet x := by
  constructor
  · intro h
    have h' := sextetOf_byteOfSextet x
    exact eq_of_sextetNat_eq (valid_of_sextetOf h) (valid_of_sextetOf h')
      ((sextetOf_toNat h).symm.trans (sextetOf_toNat h'))
  · rintro rfl
    exact sextetOf_byteOfSextet x

/-- The lane of a valid byte is its sextet, and of no other (43_vector_group.md R75). -/
theorem lane_eq_iff {b : Byte} {x : Sextet} : valid b = true ∧ add8 b (offset b) = x.setWidth 8 ↔ sextetOf b = some x := by
  constructor
  · rintro ⟨hv, hl⟩
    obtain ⟨y, hy⟩ := sextetOf_of_valid hv
    rw [lane_of_sextetOf hy] at hl
    rw [hy, ← setWidth_setWidth_byte y (by decide), hl, setWidth_setWidth_byte x (by decide)]
  · intro h
    exact ⟨valid_of_sextetOf h, lane_of_sextetOf h⟩

/-- The table's index is the hash modulo 8 (43_vector_group.md R74). -/
theorem offset_eq_mod (b : Byte) : LUT.get (Fin.ofNat 8 ((Machine.hash b).toNat % 8)) = offset b := by
  rw [offset]
  congr 1
  exact Fin.ext (Nat.mod_mod _ _)

/-! ## The table of 64 rows -/

/-- The bytes of the table, in its order: `+`, `/`, the digits, the capital and the small letters. -/
theorem symbolTable_bytes : symbolTable.map (·.byte.toNat) =
    [0x2B, 0x2F] ++ List.range' 0x30 10 ++ List.range' 0x41 26 ++ List.range' 0x61 26 := by
  decide

theorem exists_row_of_valid {b : Byte} (h : valid b = true) : ∃ r ∈ symbolTable, r.byte = b := by
  simp only [valid, decide_eq_true_eq] at h
  have hb : b.toNat ∈ symbolTable.map (·.byte.toNat) := by
    rw [symbolTable_bytes]
    simp only [List.mem_append, List.mem_cons, List.mem_range'_1, List.not_mem_nil, or_false]
    omega
  obtain ⟨r, hr, he⟩ := List.mem_map.mp hb
  exact ⟨r, hr, BitVec.eq_of_toNat_eq he⟩

/-- Every row has the sextet, the hash and the offset the machine computes for its byte. -/
theorem symbolInfo_of_row : ∀ r ∈ symbolTable, symbolInfo r.byte = ⟨r.byte, some r.sextet, r.hash, r.offset⟩ := by
  decide

/-- Each row's instruction is the symbol row of its byte. -/
theorem exec_of_row : ∀ r ∈ symbolTable, exec r.instr = symbolRow r.byte := List.map_inj_left.mp rfl

/-- Settles O12: each sextet is that of one byte, the table lists the valid bytes with what the machine computes, and the lane
of a valid byte is its sextet. -/
theorem alphabetIsABijection : Obligations.AlphabetIsABijection := by
  refine ⟨fun b => ?_, fun x => ?_, fun r hr => ?_, fun b => exists_row_of_valid, fun b hv => ?_, fun x => ?_⟩
  · simp only [sextetOf, ← BitVec.toNat_inj]; rfl
  · exact ⟨byteOfSextet x, sextetOf_byteOfSextet x, fun b hb => sextetOf_eq_some_iff.mp hb⟩
  · simpa [symbolInfo] using symbolInfo_of_row r hr
  · obtain ⟨x, hx⟩ := sextetOf_of_valid hv
    exact ⟨x, hx, by rw [offset_eq_mod, lane_of_sextetOf hx]⟩
  · simp only [offset_eq_mod, lane_eq_iff, sextetOf_eq_some_iff]
    exact existsUnique_eq

/-- Settles O37: a symbol row answers what the machine computes for its byte, and the table lists that. -/
theorem symbolRowsGiveTheirTable : Obligations.SymbolRowsGiveTheirTable := by
  refine ⟨fun r hr s => ?_, fun s => ⟨rfl, rfl, rfl⟩⟩
  rw [exec_of_row r hr, symbolRow, symbolInfo_of_row r hr]

/-! ## The invalid bytes (30_encoding.md R36) -/

section

variable {b : Byte}

/-- An invalid byte at the head of a body stops the call at its first group (60_exceptions.md R101). -/
theorem goodGroups_of_invalid_head {body : List Byte} (hb : valid b = false) (h : body.head? = some b) :
    goodGroups (groupsOf body) = [] := by
  obtain ⟨rest, rfl⟩ : ∃ rest, body = b :: rest := List.head?_eq_some_iff.mp h
  rw [groupsOf_ne_nil (by simp), goodGroups, List.takeWhile_cons, if_neg (by simp [hb])]

theorem all_valid_of_invalid_head {body : List Byte} (hb : valid b = false) (h : body.head? = some b) :
    body.all valid = false :=
  List.all_eq_false.mpr ⟨b, List.mem_of_mem_head? h, by simp [hb]⟩

/-- A whole call of an agent is its operation. -/
theorem exec_callInstr (a : AgentId) (o : BufId) (inp : List Byte) : exec (callInstr a o inp) = decodeCall a o inp := by
  cases a <;> rfl

/-- A call on a body that begins with an invalid byte ends in error and appends nothing (R101). -/
theorem decodeCall_invalid_head {a : AgentId} {o : BufId} {inp : List Byte} {s : State} (hb : valid b = false)
    (h : (bodyOf inp).head? = some b) (hm : MayStart a o s) :
    ∃ t, decodeCall a o inp s = .next t ∧ (t.seq a).err = true ∧ (t.seq a).status = .err ∧
      ∀ k, t.bufs.read k = s.bufs.read k := by
  obtain ⟨t, ht, -, hother, hout, hseq, -, -⟩ := decodeCall_spec (inp := inp) hm
  rw [all_valid_of_invalid_head hb h] at hseq
  refine ⟨t, ht, by rw [hseq]; rfl, by rw [hseq]; rfl, fun k => ?_⟩
  by_cases hk : k = o.toNat
  · rw [hk, hout, callBytes, goodGroups_of_invalid_head hb h]
    exact List.append_nil _
  · exact hother k hk

/-- GROUP.S standing alone raises its one invalid byte (41_scalar_reference.md R55; log 10). -/
theorem exec_groupS_invalid (o : BufId) (s : State) (hb : valid b = false) :
    ∃ t, exec (.groupS [b] o) s = .next t ∧ RowFrame .sdec s t ∧ RowRaised .sdec (some b) s t := by
  have hw : Worked .sdec s { s with acc := (foldGroup 0 [b]).1 } := ⟨_, rfl⟩
  exact ⟨_, groupScalar_invalid (by simp [hb]), .raised hw, .of hw⟩

/-- GROUP.V standing alone raises the error and names no byte (43_vector_group.md R82; log 10). -/
theorem exec_groupV_invalid (o : BufId) (s : State) (hb : valid b = false) :
    ∃ t, exec (.groupV [b] o) s = .next t ∧ RowFrame .vdec s t ∧ RowRaised .vdec none s t := by
  have hw : Worked .vdec s { s with vdp := datapath [b] s.vdp } := ⟨_, .inl (by simp [datapath_gLen]), rfl⟩
  exact ⟨_, groupVector_invalid (by simp) (by simp [hb]), .raised hw, .of hw⟩

end

set_option maxRecDepth 20000 in
theorem valid_count : ((List.range 256).filter fun k => valid (BitVec.ofNat 8 k)).length = 64 := by
  decide

/-- The bytes that are not valid are the rest of the 256. -/
theorem invalid_count : ((List.range 256).filter fun k => !valid (BitVec.ofNat 8 k)).length = 192 := by
  have h := List.length_eq_length_filter_add (l := List.range 256) fun k => valid (BitVec.ofNat 8 k)
  rw [valid_count, List.length_range] at h
  omega

/-- Settles O13: the counts, and the effects from what a call and a group do with a byte that is not valid. -/
theorem everyInvalidByteHasOneEffect : Obligations.EveryInvalidByteHasOneEffect := by
  refine ⟨fun b => decide_eq_true_iff, valid_count, invalid_count, fun b inp a o s hb h hm => ?_, fun b o s hb => ?_⟩
  · rw [exec_callInstr]
    exact decodeCall_invalid_head hb h hm
  · exact ⟨exec_groupS_invalid o s hb, exec_groupV_invalid o s hb⟩

end Sys2Proof.Machine
end

section
/-! Words that are no row's are rejected by name (O60), and a step runs the row of the presented word (O57). -/

namespace Sys2Proof.Machine

/-! ## Rejected words (R36, R41; log 14) -/

theorem decode_unnamedOpnum {b : Byte} (rest : List Byte) (h : 37 ≤ b.toNat) (h' : b.toNat < 64) :
    decode (.key (b :: rest)) = .error (.unnamedOpnum b.toNat) :=
  (if_pos h').trans (decodeOp_unnamed h rest)

theorem decode_notAKey {b : Byte} (rest : List Byte) (h : 64 ≤ b.toNat) :
    decode (.key (b :: rest)) = .error (.notAKey b) :=
  if_neg (Nat.not_lt.mpr h)

/-- A byte that is neither valid nor `=` is no symbol (R34, R35). -/
theorem decode_invalidByte {b : Byte} (hv : valid b = false) (hb : b ≠ 0x3D) :
    decode (.text [b]) = .error (.invalidByte b) := by
  have hs : symbolOf b = none := by
    rw [← Option.not_isSome_iff_eq_none, symbolOf_isSome, hv]
    exact Bool.false_ne_true
  simp only [decode, decodeText, if_neg hb, hs, if_true]

/-- Settles O60: the samples decode by computation; the rest is rejected by the key's range or by the alphabet. -/
theorem sampleWordsAndNamelessWords : Obligations.SampleWordsAndNamelessWords := by
  refine ⟨rfl, rfl, rfl, rfl, rfl, rfl, rfl, rfl, rfl, fun b rest => decode_unnamedOpnum rest,
    fun b rest => decode_notAKey rest, fun b s hv hb => ?_⟩
  have hd := decode_invalidByte hv hb
  exact ⟨hd, by rw [runWord, hd]; rfl⟩

/-! ## The step (log 1, log 8) -/

section

variable {s : State}

theorem runWord_of_decode {w : FetchWord} {i : Instr} (h : decode w = .ok i) (s : State) : runWord w s = exec i s := by
  rw [runWord, h]

theorem decode_of_decodeTableWord {nbits w : Nat} {i : Instr} (h : decodeTableWord nbits w = some i) :
    decode (tableWord nbits w) = .ok i := by
  unfold decodeTableWord at h
  split at h
  · cases h; assumption
  · cases h

/-- With no move of the caller pending the decoders move on their own. -/
theorem step_of_inbox_nil (h : s.inbox = []) : step s = autoStep s := by
  simp only [step, nextMove, h]

theorem autoStep_vdec (hv : s.vseq.status = .run) (hs : s.sseq.status ≠ .run) : autoStep s = agentStep .vdec s := by
  rw [autoStep, if_neg (fun h => hs h.2), if_pos hv]; rfl

theorem autoStep_sdec (hs : s.sseq.status = .run) (hv : s.vseq.status ≠ .run) : autoStep s = agentStep .sdec s := by
  rw [autoStep, if_neg (fun h => hv h.1), if_neg hv, if_pos hs]; rfl

theorem autoStep_both (hv : s.vseq.status = .run) (hs : s.sseq.status = .run) :
    autoStep s = agentStep (Config.freeTurn s.turns) { s with turns := s.turns + 1 } := if_pos ⟨hv, hs⟩

theorem autoStep_idle (h : ∀ a, (s.seq a).status ≠ .run) : autoStep s = .next s := by
  have hv : s.vseq.status ≠ .run := h .vdec
  have hs : s.sseq.status ≠ .run := h .sdec
  rw [autoStep, if_neg (fun hr => hv hr.1), if_neg hv, if_neg hs]

end

/-- Settles O57: by the caller's next move, and by which decoders run when there is none. -/
theorem aStepRunsTheDecodedRow : Obligations.AStepRunsTheDecodedRow := by
  refine ⟨fun w i s rest hi hd => ?_, fun nbits w i s hd => ?_, fun s hi hv hs => ?_, fun s hi hs hv => ?_,
    fun s hi hv hs => ?_, fun s hi h => ?_⟩
  · rw [step_of_inbox hi]
    exact runWord_of_decode hd _
  · rw [step_of_inbox (s := s.withFetchWord nbits w) rfl]
    exact runWord_of_decode (decode_of_decodeTableWord hd) _
  · rw [step_of_inbox_nil hi, autoStep_vdec hv hs]
  · rw [step_of_inbox_nil hi, autoStep_sdec hs hv]
  · exact ⟨_, (step_of_inbox_nil hi).trans (autoStep_both hv hs)⟩
  · rw [step_of_inbox_nil hi, autoStep_idle h]

end Sys2Proof.Machine
end

section
/-! START, STRIP, PART and NBYTES: the beginning of a call (O5), the body that stripping leaves (O7), the next group (O8)
and the number of bytes of a group (O9). -/

namespace Sys2Proof.Machine

/-! ## The body of an input (40_shared_preprocessing.md R47) -/

section

variable {inp body : List Byte}

/-- STRIP answers the length of the body. -/
theorem stripEnd_eq_length_bodyOf (inp : List Byte) : stripEnd inp inp.length = (bodyOf inp).length := by
  rw [bodyOf_eq_take, List.length_take, Nat.min_eq_left (stripEnd_le inp inp.length)]

theorem bodyOf_of_last_ne_pad (h : inp.getLast? ≠ some padChar) : bodyOf inp = inp := by
  obtain rfl | ⟨rest, c, rfl⟩ := inp.eq_nil_or_concat
  · rfl
  · have hc : c ≠ padChar := by simpa using h
    cases hr : rest.reverse <;> simp [bodyOf, hr, hc]

theorem bodyOf_append_two_pads (body : List Byte) : bodyOf (body ++ [padChar, padChar]) = body := by
  simp [bodyOf]

theorem bodyOf_append_pad (h : body.getLast? ≠ some padChar) : bodyOf (body ++ [padChar]) = body := by
  obtain rfl | ⟨rest, c, rfl⟩ := body.eq_nil_or_concat
  · rfl
  · have hc : c ≠ padChar := by simpa using h
    simp [bodyOf, hc]

end

/-! ## The rows -/

section

variable {a : AgentId} {o : BufId} {inp : List Byte} {s : State}

theorem exec_strip (inp : List Byte) (s : State) :
    exec (.strip inp) s = .next (s.answer (.bodyEnd (bodyOf inp).length)) := by
  rw [← stripEnd_eq_length_bodyOf]; rfl

/-- START writes the length of the body to `end` (R46). -/
theorem begin_bodyEnd_eq (o : BufId) (inp : List Byte) : (Seq.begin o inp).bodyEnd = (bodyOf inp).length :=
  stripEnd_eq_length_bodyOf inp

theorem exec_start_of_mayStart (h : MayStart a o s) : exec (.start a o inp) s = .next (s.begun a o inp) :=
  startCall_ok h

/-- The next group is the first four bytes, or what there is, of the rest of the body (20_memory.md R23). -/
theorem groupAt_groupLen (inp : List Byte) (pos bodyEnd : Nat) :
    groupAt inp pos (groupLen pos bodyEnd) = ((inp.take bodyEnd).drop pos).take 4 := by
  rw [List.drop_take, List.take_take]; rfl

theorem groupAt_groupLen_length {pos bodyEnd : Nat} (h : bodyEnd ≤ inp.length) :
    (groupAt inp pos (groupLen pos bodyEnd)).length = groupLen pos bodyEnd := by
  simp only [groupAt, groupLen, List.length_take, List.length_drop]
  omega

theorem exec_nbytes {len : Nat} (h : lengthOk len = true) (s : State) :
    exec (.nbytes len) s = .next (s.answer (.count (nBytes len))) :=
  if_pos h

end

/-- Settles O5: START writes its agent's sequencer and port, and the `end` it writes is the length of the body. -/
theorem startBeginsACall : Obligations.StartBeginsACall := by
  intro a o inp s h
  rw [exec_start_of_mayStart h, ← stripEnd_eq_length_bodyOf]
  rfl

/-- Settles O7: STRIP answers the length of the body, and the body is known in each of the three endings. -/
theorem stripDropsTrailingPadding : Obligations.StripDropsTrailingPadding := by
  intro inp s
  refine ⟨(bodyOf inp).length, exec_strip inp s, ?_, ?_, ?_, fun a o hm => ?_⟩
  · rintro body rfl
    exact congrArg _ (bodyOf_append_two_pads body)
  · rintro body rfl h
    exact congrArg _ (bodyOf_append_pad h)
  · intro h
    exact congrArg _ (bodyOf_of_last_ne_pad h)
  · exact ⟨_, exec_start_of_mayStart hm, by rw [begun_seq, begin_bodyEnd_eq]⟩

/-- Settles O8: PART's two tests, and the group they let through is the first of those that the rest of the body is cut
into. -/
theorem partTakesTheNextGroup : Obligations.PartTakesTheNextGroup := by
  intro inp pos bodyEnd s
  refine ⟨fun hp hb => ?_, fun hp hb => ?_, fun hb => ?_⟩
  · have hlen := groupAt_groupLen_length (pos := pos) hb
    have hne : (inp.take bodyEnd).drop pos ≠ [] := by simp; omega
    refine ⟨groupAt inp pos (groupLen pos bodyEnd), ?_, hlen, by rw [hlen]; rfl, ?_⟩
    · rw [hlen]
      exact (if_pos hb).trans (if_pos hp)
    · rw [groupsOf_ne_nil hne, groupAt_groupLen]
      rfl
  · exact (if_pos hb).trans (if_neg (Nat.not_lt.mpr hp))
  · exact if_neg (Nat.not_le.mpr hb)

/-- Settles O9: the formula of R50 for every `L`, and its four values. -/
theorem nbytesIsOneOneTwoThree : Obligations.NbytesIsOneOneTwoThree := fun s =>
  ⟨exec_nbytes rfl s, exec_nbytes rfl s, exec_nbytes rfl s, exec_nbytes rfl s,
    fun _ h1 h4 => exec_nbytes (decide_eq_true ⟨h1, h4⟩) s⟩

end Sys2Proof.Machine
end

section
/-! When a row is refused: a start of a running agent and an append to a buffer in use (O6), an ill-formed row (O10); and
the rows that answer a next state are the admitted ones (O50). -/

namespace Sys2Proof.Machine

section

variable {a : AgentId} {o : BufId} {inp : List Byte} {s : State} {e : Refusal} {r : Out}

/-! ## Refused starts and appends (40_shared_preprocessing.md R46; 20_memory.md R28) -/

theorem startCall_of_running (h : (s.seq a).status = .run) : startCall a o inp s = .refused .startWhileRunning :=
  if_pos h

theorem startCall_of_shared (h : (s.seq a).status ≠ .run) (hf : s.inFlight (other a) o = true) :
    startCall a o inp s = .refused .sharedOutput :=
  (if_neg h).trans (if_pos hf)

/-- A whole call is refused as its START is. -/
theorem decodeCall_of_startCall_refused (h : startCall a o inp s = .refused e) : decodeCall a o inp s = .refused e := by
  rw [decodeCall, h, andThen_refused]

/-- START and the whole call stop alike. -/
theorem start_and_call_refused (h : startCall a o inp s = .refused e) :
    exec (.start a o inp) s = .refused e ∧ exec (callInstr a o inp) s = .refused e :=
  ⟨h, by rw [exec_callInstr]; exact decodeCall_of_startCall_refused h⟩

theorem appendRow_of_inUse (h : s.inUse o = true) (bs : List Byte) : appendRow a o bs s = .refused .sharedOutput :=
  if_pos h

end

/-- Settles O6: a whole call stops where its START does, and every row that appends ends in the same append. -/
theorem runningAgentsAndSharedBuffersAreRefused : Obligations.RunningAgentsAndSharedBuffersAreRefused := by
  refine ⟨fun a o inp s => ⟨fun h => ?_, fun h hf => ?_⟩, fun o s h => ⟨fun len h1 h4 => ?_, fun hok => ?_, ?_⟩⟩
  · exact start_and_call_refused (startCall_of_running h)
  · exact start_and_call_refused (startCall_of_shared h hf)
  · exact (if_pos (decide_eq_true ⟨h1, h4⟩)).trans (appendRow_of_inUse h _)
  · exact (if_pos hok).trans (appendRow_of_inUse h _)
  · intro g h1 h4 hv
    have hl : lengthOk g.length = true := decide_eq_true ⟨h1, h4⟩
    constructor
    · exact (if_pos hl).trans ((groupScalar_valid hl hv).trans (if_pos h))
    · exact (if_pos hl).trans ((groupVector_valid hl hv).trans (if_pos h))

/-- Settles O10: only the rows with a length or an `end` can be ill formed, and each of them tests it first. -/
theorem illFormedRowsAreRefused : Obligations.IllFormedRowsAreRefused := by
  intro i s h
  cases i with
  | part inp pos bodyEnd => exact if_neg (of_decide_eq_false h)
  | nbytes len => exact if_neg (Bool.eq_false_iff.mp h)
  | sAlign len => exact if_neg (Bool.eq_false_iff.mp h)
  | sEmit len o => exact if_neg (Bool.eq_false_iff.mp h)
  | groupS g o => exact if_neg (Bool.eq_false_iff.mp h)
  | vload g => exact if_neg (Bool.eq_false_iff.mp h)
  | groupV g o => exact if_neg (Bool.eq_false_iff.mp h)
  | _ => cases h

/-! ## When an operation answers a next state -/

/-- The outcome is a next state. -/
def Answers (r : Out) : Prop := ∃ t, r = .next t

theorem Answers.next (t : State) : Answers (.next t) := ⟨t, rfl⟩

theorem not_answers_refused (e : Refusal) : ¬ Answers (.refused e) := fun ⟨_, h⟩ => nomatch h

section

variable {a : AgentId} {o : BufId} {inp g : List Byte} {s : State}

/-- A guarded operation answers where its guard holds and it answers itself. -/
theorem answers_ite_iff {c : Prop} [Decidable c] {r : Out} {e : Refusal} :
    Answers (if c then r else .refused e) ↔ c ∧ Answers r := by
  by_cases hc : c
  · rw [if_pos hc, and_iff_right hc]
  · rw [if_neg hc]
    exact iff_of_false (not_answers_refused e) fun h => hc h.1

theorem answers_startCall_iff : Answers (startCall a o inp s) ↔ MayStart a o s :=
  ⟨fun ⟨_, h⟩ => (startCall_cases h).1, fun h => ⟨_, startCall_ok h⟩⟩

/-- A whole call that is started runs to its end (41_scalar_reference.md R56, 44_vector_message.md R85). -/
theorem answers_decodeCall_iff : Answers (decodeCall a o inp s) ↔ MayStart a o s :=
  ⟨fun ⟨_, h⟩ => (decodeCall_cases h).1, fun h => let ⟨t, ht, _⟩ := decodeCall_spec h; ⟨t, ht⟩⟩

theorem answers_appendRow_iff {bs : List Byte} : Answers (appendRow a o bs s) ↔ s.inUse o = false :=
  ⟨fun ⟨_, h⟩ => (appendRow_next h).1, fun h => ⟨_, appendRow_free h bs⟩⟩

/-- Mapping a byte answers its sextet or its error (41_scalar_reference.md R51; log 10). -/
theorem answers_mapByte (b : Byte) (s : State) : Answers (mapByte b s) := by
  unfold mapByte
  cases sextetOf b <;> exact .next _

/-- Bytes of which one is found invalid are not all valid. -/
theorem all_valid_eq_false_of_find? {b : Byte} (h : (g.find? fun b => !valid b) = some b) : g.all valid = false :=
  List.all_eq_false.mpr ⟨b, List.mem_of_find?_eq_some h, by simpa using List.find?_some h⟩

/-- A group of valid bytes answers where its append does; any other answers the error, which needs no buffer (R55). -/
theorem answers_groupScalar_iff (hl : lengthOk g.length = true) :
    Answers (groupScalar (appendRow .sdec o) (fun b => raiseRow .sdec (some b)) g s) ↔
      (g.all valid = true → s.inUse o = false) := by
  cases hb : g.find? fun b => !valid b with
  | none =>
    have hv : g.all valid = true := by simpa using hb
    rw [groupScalar_valid hl hv, answers_appendRow_iff, forall_prop_of_true hv]
    rfl
  | some b =>
    have hv : g.all valid ≠ true := Bool.eq_false_iff.mp (all_valid_eq_false_of_find? hb)
    rw [groupScalar_invalid hb]
    exact iff_of_true (.next _) (absurd · hv)

theorem answers_appendGroup_iff :
    Answers (appendGroup (appendRow .vdec o) (raiseRow .vdec none) s) ↔ (s.vdp.isOk = true → s.inUse o = false) := by
  unfold appendGroup
  split
  · rw [answers_appendRow_iff, forall_prop_of_true ‹_›]
  · exact iff_of_true (.next _) (absurd · ‹_›)

/-- The flag that decides is the one the group's own bytes give (43_vector_group.md R73, R82). -/
theorem answers_groupVector_iff (hl : lengthOk g.length = true) :
    Answers (groupVector (appendRow .vdec o) (raiseRow .vdec none) g s) ↔ (g.all valid = true → s.inUse o = false) := by
  have hok : isOkOf (loadLanes g) = g.all valid := isOkOf_loadLanes (of_decide_eq_true hl).2
  rw [groupVector, answers_appendGroup_iff, datapath_isOk, hok]
  rfl

end

/-! ## The rows that are admitted -/

/-- What a row needs of the state and its operands to be admitted, row by row; the rows not named need nothing. -/
def RowNeeds (s : State) : Instr → Prop
  | .start a o _ => MayStart a o s
  | .decodeS o _ => MayStart .sdec o s
  | .decodeV o _ => MayStart .vdec o s
  | .part _ pos bodyEnd => pos < bodyEnd
  | .sEmit _ o => s.inUse o = false
  | .vappend o => s.vdp.isOk = true → s.inUse o = false
  | .groupS g o => g.all valid = true → s.inUse o = false
  | .groupV g o => g.all valid = true → s.inUse o = false
  | _ => True

theorem admitted_iff {i : Instr} {s : State} : Admitted i s ↔ RowNeeds s i := by
  constructor
  · intro h
    cases i with
    | start a o inp => exact h.start a o inp rfl
    | decodeS o inp => exact h.call .sdec o inp rfl
    | decodeV o inp => exact h.call .vdec o inp rfl
    | part inp pos bodyEnd => exact h.part inp pos bodyEnd rfl
    | sEmit len o => exact h.emit len o rfl
    | vappend o => exact h.append o rfl
    | groupS g o => exact h.scalar o g rfl
    | groupV g o => exact h.vector o g rfl
    | _ => exact trivial
  · intro h
    exact {
      start := by rintro a o inp rfl; exact h
      call := by rintro a o inp rfl; cases a <;> exact h
      part := by rintro inp pos bodyEnd rfl; exact h
      emit := by rintro len o rfl; exact h
      append := by rintro o rfl; exact h
      scalar := by rintro o g rfl; exact h
      vector := by rintro o g rfl; exact h }

/-- Settles O50: row by row, what lets the row answer is what `Admitted` asks of it. -/
theorem rowsRunExactlyWhenAdmitted : Obligations.RowsRunExactlyWhenAdmitted := by
  intro i s
  rw [admitted_iff]
  change Answers (exec i s) ↔ _
  cases i with
  | start a o inp => exact answers_startCall_iff.trans (and_iff_right rfl).symm
  | decodeS o inp => exact answers_decodeCall_iff.trans (and_iff_right rfl).symm
  | decodeV o inp => exact answers_decodeCall_iff.trans (and_iff_right rfl).symm
  | part inp pos bodyEnd =>
    exact answers_ite_iff.trans (and_congr decide_eq_true_iff.symm (answers_ite_iff.trans (and_iff_left (.next _))))
  | sEmit len o => exact answers_ite_iff.trans (and_congr_right fun _ => answers_appendRow_iff)
  | vappend o => exact answers_appendGroup_iff.trans (and_iff_right rfl).symm
  | groupS g o => exact answers_ite_iff.trans (and_congr_right answers_groupScalar_iff)
  | groupV g o => exact answers_ite_iff.trans (and_congr_right answers_groupVector_iff)
  | nbytes len => exact answers_ite_iff.trans (and_congr_right fun _ => iff_of_true (.next _) trivial)
  | sAlign len => exact answers_ite_iff.trans (and_congr_right fun _ => iff_of_true (.next _) trivial)
  | vload g => exact answers_ite_iff.trans (and_congr_right fun _ => iff_of_true (.next _) trivial)
  | sMap b => exact iff_of_true (answers_mapByte b s) ⟨rfl, trivial⟩
  | padEq p =>
    refine iff_of_true ?_ ⟨rfl, trivial⟩
    cases p with
    | last => exact .next _
    | secondLast => exact .next _
    | body => exact answers_mapByte padChar s
  | _ => exact iff_of_true (.next _) ⟨rfl, trivial⟩

end Sys2Proof.Machine
end

section
/-! Whole calls on given inputs: an input whose body is valid is accepted, one with an invalid byte is rejected after the
groups before it, and the scenarios of the source (O43). -/

namespace Sys2Proof.Machine

section

variable {inp pre post : List Byte} {b : Byte}

/-! ## Accepted and rejected inputs -/

/-- Both decoders accept an input whose body is valid, and append its bytes (41_scalar_reference.md R56,
44_vector_message.md R85). -/
theorem decodes_of_callBytes_eq {out : List Byte} (hv : (bodyOf inp).all valid = true) (hout : callBytes inp = out) :
    Decodes inp out := by
  subst hout
  intro a o s hm
  obtain ⟨t, ht, -, -, hread, hseq, -, -⟩ := decodeCall_spec (inp := inp) hm
  refine ⟨t, by rw [exec_callInstr]; exact ht, result_eq_ok_iff.mpr ?_, hread⟩
  rw [hseq, if_pos hv]

/-- Both decoders reject an input whose body has an invalid byte, after the groups before it; SDEC names the first such
byte (60_exceptions.md R98, R101). -/
theorem rejects_of_first_invalid (hb : ((bodyOf inp).find? fun b => !valid b) = some b) :
    Rejects inp (callBytes inp) b := by
  have hv : (bodyOf inp).all valid ≠ true := Bool.eq_false_iff.mp (all_valid_eq_false_of_find? hb)
  intro a o s hm
  obtain ⟨t, ht, -, -, hout, hseq, -, herr⟩ := decodeCall_spec (inp := inp) hm
  have hres : t.result a = some (.err (t.signals a).errByte) := by
    rw [result_eq_err_iff, hseq, if_neg hv]
  refine ⟨t, by rw [exec_callInstr]; exact ht, hres.trans ?_, hout⟩
  cases a with
  | vdec => rfl
  | sdec => simp only [State.signals, herr rfl, hb, Option.getD_some]

/-! ## The groups before the first invalid byte -/

/-- Stripping drops nothing but padding (40_shared_preprocessing.md R47). -/
theorem bodyOf_append_pads (inp : List Byte) : ∃ k, inp = bodyOf inp ++ List.replicate k padChar := by
  obtain ⟨r, rfl⟩ : ∃ r, inp = r.reverse := ⟨inp.reverse, by simp⟩
  unfold bodyOf
  rw [List.reverse_reverse]
  split
  · split
    · split
      · exact ⟨2, by simp [*]⟩
      · exact ⟨1, by simp [*]⟩
    · exact ⟨0, by simp⟩
  · split
    · exact ⟨1, by simp [*]⟩
    · exact ⟨0, by simp⟩
  · exact ⟨0, by simp⟩

/-- A byte that is no padding stays in the body, and so does all before it. -/
theorem bodyOf_append_cons (hb : b ≠ padChar) (pre post : List Byte) :
    ∃ post', bodyOf (pre ++ b :: post) = pre ++ b :: post' := by
  obtain ⟨k, hk⟩ := bodyOf_append_pads (pre ++ b :: post)
  have hnot : b ∉ List.replicate k padChar := fun h => hb (List.eq_of_mem_replicate h)
  obtain ⟨c, hbody, hc⟩ | ⟨c, -, hc⟩ := List.append_eq_append_iff.mp hk
  · cases c with
    | nil =>
      rw [List.nil_append] at hc
      exact absurd (hc ▸ List.mem_cons_self) hnot
    | cons d post' =>
      obtain ⟨rfl, -⟩ := List.cons_eq_cons.mp hc
      exact ⟨post', hbody⟩
  · exact absurd (hc ▸ List.mem_append_right c List.mem_cons_self) hnot

/-- An invalid byte in the first group stops the call there (60_exceptions.md R101). -/
theorem goodGroups_of_invalid_first {xs : List Byte} (hb : valid b = false) (h : b ∈ xs.take 4) :
    goodGroups (groupsOf xs) = [] := by
  have hne : xs ≠ [] := by rintro rfl; cases h
  have hv : ¬ (xs.take 4).all valid = true := fun hv => by simpa [hb] using List.all_eq_true.mp hv b h
  rw [groupsOf_ne_nil hne, goodGroups, List.takeWhile_cons, if_neg hv]

/-- The groups before the first invalid byte are the whole groups of what stands before it (R101; 40_shared_preprocessing.md
R49). -/
theorem goodGroups_append_invalid (hpre : pre.all valid = true) (hb : valid b = false) :
    goodGroups (groupsOf (pre ++ b :: post)) = groupsOf (pre.take (pre.length / 4 * 4)) := by
  induction pre using groupsOf.induct with
  | case1 x0 x1 x2 x3 rest ih =>
    have hsplit : [x0, x1, x2, x3].all valid = true ∧ rest.all valid = true := by
      rw [← Bool.and_eq_true, ← List.all_append]; exact hpre
    have hlen : (rest.length + 4) / 4 * 4 = rest.length / 4 * 4 + 4 := by omega
    simp only [List.length_cons, hlen, List.cons_append, groupsOf, goodGroups, List.takeWhile_cons, if_pos hsplit.1,
      List.take_succ_cons]
    exact congrArg _ (ih hsplit.2)
  | case2 => exact goodGroups_of_invalid_head hb rfl
  | case3 short hlong _ =>
    match short, hlong with
    | [_], _ | [_, _], _ | [_, _, _], _ => rw [goodGroups_of_invalid_first hb] <;> simp [groupsOf]
    | x0 :: x1 :: x2 :: x3 :: rest, hlong => exact absurd rfl (hlong x0 x1 x2 x3 rest)

/-- The first invalid byte of an input, if it is no padding: both decoders reject it after the whole groups before it. -/
theorem rejects_append_invalid (hpre : pre.all valid = true) (hb : valid b = false) (hpad : b ≠ padChar)
    (post : List Byte) :
    Rejects (pre ++ b :: post) ((groupsOf (pre.take (pre.length / 4 * 4))).flatMap groupBytes) b := by
  obtain ⟨post', hbody⟩ := bodyOf_append_cons hpad pre post
  have hnone : (pre.find? fun b => !valid b) = none := by simpa using hpre
  have hfind : ((bodyOf (pre ++ b :: post)).find? fun b => !valid b) = some b := by
    rw [hbody, List.find?_append, hnone]
    simp [hb]
  rw [← goodGroups_append_invalid (post := post') hpre hb, ← hbody]
  exact rejects_of_first_invalid hfind

end

/-- Settles O43: `!` is no padding, so it is the first invalid byte of the body; the other inputs have valid bodies, and
the closed form of their bytes computes. -/
theorem sourceScenariosAndPermissivePadding : Obligations.SourceScenariosAndPermissivePadding := by
  refine ⟨?_, ?_, ?_, ?_, fun pre post hpre => rejects_append_invalid hpre (by decide) (by decide) post,
    ?_, ?_, ?_, ?_, ?_, ?_, ?_, ?_, ?_⟩
  all_goals exact decodes_of_callBytes_eq (by decide) (by decide)

end Sys2Proof.Machine
end

section
/-! The scalar reference: mapping (O11), folding (O14), aligning (O15), emitting (O16), one group (O17), and the whole call,
which both decoders take alike (O38). -/

namespace Sys2Proof.Machine

/-! ## The whole call (41_scalar_reference.md R56, 44_vector_message.md R85) -/

/-- The status and the flag of a call that is over say whether its body was valid (10_state.md R10; 60_exceptions.md R101). -/
theorem status_and_err_of_ite {v : Bool} {q : Seq} (hs : q.status = if v then .done else .err) (he : q.err = !v) :
    (v = true → q.status = .done ∧ q.err = false) ∧ (v = false → q.status = .err ∧ q.err = true) := by
  cases v with
  | true => exact ⟨fun _ => ⟨hs, he⟩, nofun⟩
  | false => exact ⟨nofun, fun _ => ⟨hs, he⟩⟩

/-- Settles O38: what a whole call does is said once, by the induction over the groups in `runCall_spec`; here it is read off
register by register. -/
theorem decodeCallAppendsGroupByGroup : Obligations.DecodeCallAppendsGroupByGroup := by
  intro a o inp s hm
  obtain ⟨t, ht, hout, honly, hread, hseq, hport, herr⟩ := decodeCall_spec (inp := inp) hm
  obtain ⟨hvalid, hinvalid⟩ := status_and_err_of_ite (q := t.seq a) (by rw [hseq]) (by rw [hseq])
  refine ⟨t, by rw [exec_callInstr]; exact ht, hout, honly, hread, ?_, ?_, ?_, ?_, ?_, ?_, hvalid, hinvalid, herr⟩
  · rw [hseq]
  · rw [hseq]
  · rw [hport]
    exact .quiet
  · rw [hseq]
  · rw [hseq, ← stripEnd_eq_length_bodyOf]
  · rw [hseq]

section

variable {o : BufId} {g pre post : List Byte} {s : State} {acc : Acc} {len : Nat} {b : Byte}

/-! ## Mapping a byte (41_scalar_reference.md R51) -/

theorem sextetOf_eq_of_valid (h : valid b = true) : sextetOf b = some (BitVec.ofNat 6 (sextetNat b)) := by
  obtain ⟨x, hx⟩ := sextetOf_of_valid h
  rw [hx, ← sextetOf_toNat hx, BitVec.ofNat_toNat, BitVec.setWidth_eq]

theorem mapByte_of_valid (h : valid b = true) (s : State) :
    mapByte b s = .next (s.answer (.sextet (BitVec.ofNat 6 (sextetNat b)))) := by
  simp only [mapByte, sextetOf_eq_of_valid h]

theorem mapByte_of_invalid (h : valid b = false) (s : State) :
    mapByte b s = .next (s.answer (.invalidByte (some b))) := by
  simp only [mapByte, (sextetOf_eq_none_iff b).mpr h]

/-! ## The accumulator (R52, R53) -/

/-- A fold is one base-64 digit more, modulo the width of `acc` (R52). -/
theorem fold_eq_ofNat (acc : Acc) (x : Sextet) : fold acc x = BitVec.ofNat 32 (acc.toNat * 64 + x.toNat) := by
  have hx := x.isLt
  apply BitVec.eq_of_toNat_eq
  rw [fold, BitVec.toNat_or, BitVec.toNat_shiftLeft, Nat.shiftLeft_eq, BitVec.toNat_setWidth_of_le (by decide),
    BitVec.toNat_ofNat, or_eq_add (k := 6) (by omega) hx]
  omega

/-- Folding sextets into an accumulator of `k` sextets loses no bit while they are at most five in all (R52). -/
theorem foldl_fold_toNat {k : Nat} {xs : List Sextet} (hacc : acc.toNat < 2 ^ (6 * k)) (hk : k + xs.length ≤ 5) :
    (xs.foldl fold acc).toNat = xs.foldl (fun n x => n * 64 + x.toNat) acc.toNat ∧
      (xs.foldl fold acc).toNat < 2 ^ (6 * (k + xs.length)) := by
  induction xs generalizing acc k with
  | nil => exact ⟨rfl, hacc⟩
  | cons x xs ih =>
    rw [List.length_cons] at hk ⊢
    have hx := x.isLt
    have hle : 2 ^ (6 * k) ≤ 2 ^ 26 := Nat.pow_le_pow_right (by decide) (by omega)
    have hfold := fold_toNat (x := x) (Nat.lt_of_lt_of_le hacc hle)
    have hlt : (fold acc x).toNat < 2 ^ (6 * (k + 1)) := by
      rw [hfold, Nat.mul_succ 6 k, Nat.pow_add]
      omega
    rw [List.foldl_cons, List.foldl_cons, ← hfold, Nat.add_comm xs.length, ← Nat.add_assoc]
    exact ih hlt (by omega)

/-- Aligning `len` folded sextets shifts none of their bits out (R53). -/
theorem align_toNat_of_lt (hlen : len ≤ 4) (h : acc.toNat < 2 ^ (6 * len)) :
    (align acc len).toNat = acc.toNat * 2 ^ (32 - 6 * len) := by
  have hpow : 2 ^ (6 * len) * 2 ^ (32 - 6 * len) = 2 ^ 32 := by rw [← Nat.pow_add]; congr 1; omega
  rw [align_toNat, Nat.mod_eq_of_lt]
  exact hpow ▸ Nat.mul_lt_mul_of_pos_right h (by positivity)

/-! ## Emitting (R54) -/

theorem nBytes_bounds (hl : lengthOk len = true) : 1 ≤ nBytes len ∧ nBytes len ≤ 3 := by
  have hlen : 1 ≤ len ∧ len ≤ 4 := of_decide_eq_true hl
  unfold nBytes
  omega

theorem emitted_length (hl : lengthOk len = true) (acc : Acc) : (emitted acc len).length = nBytes len := by
  have hn := nBytes_bounds hl
  rw [emitted, List.length_take, bigEndian_eq]
  simp only [List.length_cons, List.length_nil]
  omega

/-- A row's append after work on the agent's own registers, of 1 to 3 bytes to a buffer no call uses, answers a next state
with the append done and everything else framed (20_memory.md R24; log 21). -/
theorem appendRow_of_worked {a : AgentId} {u : State} {bs : List Byte} (hw : Worked a s u) (hf : s.inUse o = false)
    (h1 : 1 ≤ bs.length) (h3 : bs.length ≤ 3) :
    appendRow a o bs u = .next (u.appended a o bs) ∧ RowFrame a s (u.appended a o bs) ∧
      Appended a o bs s (u.appended a o bs) :=
  ⟨appendRow_free ((inUse_congr hw.seq).trans hf) bs, .appended hw, .of hw h3 (.inl (List.ne_nil_of_length_pos h1))⟩

/-! ## One group (R55) -/

/-- The group's folded number, moved to the top of the accumulator, is its 24-bit value in bits 31 to 8 (30_encoding.md R33). -/
theorem foldNat_mul_eq_groupValue (h1 : 1 ≤ g.length) (h4 : g.length ≤ 4) :
    foldNat 0 g * 2 ^ (32 - 6 * g.length) = groupValue g * 256 := by
  match g, h1, h4 with
  | [_], _, _ | [_, _], _, _ | [_, _, _], _, _ | [_, _, _, _], _, _ => simp [foldNat, groupValue]; omega

theorem groupValue_lt (g : List Byte) : groupValue g < 2 ^ 24 := by
  have hlt (i : Nat) : (g.map sextetNat).getD i 0 < 64 := by
    rw [List.getD_eq_getElem?_getD, List.getElem?_map]
    cases g[i]? with
    | none => decide
    | some b => exact sextetNat_lt b
  have h0 := hlt 0
  have h1 := hlt 1
  have h2 := hlt 2
  have h3 := hlt 3
  unfold groupValue
  omega

/-- What SDEC's accumulator holds after a valid group (R52, R53, R55). -/
theorem align_foldGroup_toNat (h1 : 1 ≤ g.length) (h4 : g.length ≤ 4) (hv : g.all valid = true) :
    (align (foldGroup 0 g).1 g.length).toNat = groupValue g * 256 := by
  have hpow : 64 ^ g.length ≤ 64 ^ 4 := Nat.pow_le_pow_right (by decide) h4
  have hfold : (foldGroup 0 g).1.toNat = foldNat 0 g := (foldGroup_valid hv (by simp; omega)).2
  have hT := groupValue_lt g
  rw [align_toNat, hfold, foldNat_mul_eq_groupValue h1 h4]
  omega

/-- GROUP.S standing alone on valid bytes appends the group's bytes (R55; log 10). -/
theorem exec_groupS_valid (h1 : 1 ≤ g.length) (h4 : g.length ≤ 4) (hv : g.all valid = true) (hf : s.inUse o = false) :
    ∃ t, exec (.groupS g o) s = .next t ∧ RowFrame .sdec s t ∧ Appended .sdec o (groupBytes g) s t ∧
      t.acc.toNat = groupValue g * 256 ∧ t.ret = s.ret := by
  have hl : lengthOk g.length = true := decide_eq_true ⟨h1, h4⟩
  have hn := nBytes_bounds hl
  rw [← groupBytes_length hl] at hn
  have hw : Worked .sdec s { s with acc := align (foldGroup 0 g).1 g.length } := ⟨_, rfl⟩
  obtain ⟨hrow, hframe, happ⟩ := appendRow_of_worked hw hf hn.1 hn.2
  refine ⟨_, (if_pos hl).trans ((groupScalar_valid hl hv).trans hrow), hframe, happ, ?_, appended_ret ..⟩
  rw [appended_acc]
  exact align_foldGroup_toNat h1 h4 hv

/-- The first invalid byte is the one after the valid ones. -/
theorem find?_append_invalid (hpre : pre.all valid = true) (hb : valid b = false) :
    ((pre ++ b :: post).find? fun b => !valid b) = some b := by
  have hnone : (pre.find? fun b => !valid b) = none := by simpa using hpre
  rw [List.find?_append, hnone, Option.none_or, List.find?_cons_of_pos (by simp [hb])]

/-- GROUP.S standing alone raises its first invalid byte (R55; log 10). -/
theorem exec_groupS_first_invalid (h4 : (pre ++ b :: post).length ≤ 4) (hpre : pre.all valid = true)
    (hb : valid b = false) (o : BufId) (s : State) :
    ∃ t, exec (.groupS (pre ++ b :: post) o) s = .next t ∧ RowFrame .sdec s t ∧ RowRaised .sdec (some b) s t := by
  have hl : lengthOk (pre ++ b :: post).length = true := decide_eq_true ⟨by simp; omega, h4⟩
  have hw : Worked .sdec s { s with acc := (foldGroup 0 (pre ++ b :: post)).1 } := ⟨_, rfl⟩
  exact ⟨_, (if_pos hl).trans (groupScalar_invalid (find?_append_invalid hpre hb)), .raised hw, .of hw⟩

end

/-- Settles O14: a fold multiplies by 64 and adds, and while `acc` holds at most four sextets it does not wrap. -/
theorem foldShiftsInASextet : Obligations.FoldShiftsInASextet := by
  refine ⟨fun x s => ?_, fun xs h => ?_⟩
  · rw [← fold_eq_ofNat]
    rfl
  · have hfold := foldl_fold_toNat (acc := 0) (k := 0) (xs := xs) (by decide) (by omega)
    rw [Nat.zero_add] at hfold
    exact hfold

/-- Settles O15: the shift is a multiplication, and `len` sextets leave room for it. -/
theorem alignMovesTheBitsToTheTop : Obligations.AlignMovesTheBitsToTheTop := fun len s h1 h4 =>
  ⟨align s.acc len, if_pos (decide_eq_true ⟨h1, h4⟩), align_toNat, align_toNat_of_lt h4⟩

/-- Settles O16: S.EMIT is a row's append of the big-endian bytes, which a buffer in use refuses. -/
theorem emitAppendsTheTopBytes : Obligations.EmitAppendsTheTopBytes := by
  intro len o s h1 h4
  have hl : lengthOk len = true := decide_eq_true ⟨h1, h4⟩
  have hn := nBytes_bounds hl
  rw [← emitted_length hl s.acc] at hn
  refine ⟨fun hf => ?_, fun hu => (if_pos hl).trans (appendRow_of_inUse hu _)⟩
  obtain ⟨hrow, hframe, happ⟩ := appendRow_of_worked (.refl .sdec s) hf hn.1 hn.2
  refine ⟨_, (if_pos hl).trans hrow, hframe, appended_acc .., appended_ret .., ?_⟩
  rw [emitted, bigEndian_eq] at happ ⊢
  exact happ

/-- Settles O17: a valid group goes to the append, any other raises its first invalid byte. -/
theorem scalarGroupAppendsOrRaises : Obligations.ScalarGroupAppendsOrRaises :=
  ⟨fun _ _ _ => exec_groupS_valid, fun _ _ _ o s h4 hpre hb => exec_groupS_first_invalid h4 hpre hb o s⟩

/-- Settles O11: the alphabet's sextet of a valid byte, and none of any other. -/
theorem mapGivesSextetOrRaises : Obligations.MapGivesSextetOrRaises := fun _ s =>
  ⟨fun h => mapByte_of_valid h s, fun h => mapByte_of_invalid h s⟩

end Sys2Proof.Machine
end

section
/-! The lane primitives (42_lane_primitives.md): what each computes, lane by lane, as numbers (O18, O21) or as a choice of lanes
(O19), and the range test with its hash form (O20). -/

namespace Sys2Proof

/-! ## Vectors lane by lane -/

namespace Lanes

section

variable {α β γ : Type} {v : Lanes α} {w : Lanes β} {p : α → Prop}

/-- A lane-wise operation of one vector, as the vector of its lanes. -/
theorem map_eq_ofFn {f : α → β} {g : Fin 8 → β} (h : ∀ i, f (v.get i) = g i) : v.map f = ofFn g :=
  ext_get fun i => by rw [get_map, get_ofFn, h i]

/-- A lane-wise operation of two vectors, as the vector of its lanes. -/
theorem zipWith_eq_ofFn {f : α → β → γ} {g : Fin 8 → γ} (h : ∀ i, f (v.get i) (w.get i) = g i) :
    v.zipWith f w = ofFn g :=
  ext_get fun i => by rw [get_zipWith, get_ofFn, h i]

theorem forall_get_iff : (∀ i, p (v.get i)) ↔
    p v.l0 ∧ p v.l1 ∧ p v.l2 ∧ p v.l3 ∧ p v.l4 ∧ p v.l5 ∧ p v.l6 ∧ p v.l7 := by
  constructor
  · exact fun h => ⟨h 0, h 1, h 2, h 3, h 4, h 5, h 6, h 7⟩
  · rintro ⟨h0, h1, h2, h3, h4, h5, h6, h7⟩ i
    fin_cases i
    exacts [h0, h1, h2, h3, h4, h5, h6, h7]

end

end Lanes

namespace Machine

/-! ## The arithmetic of one lane (R57) -/

/-- A logical right shift divides (R58). -/
theorem ushiftRight_eq_ofNat {n : Nat} (x : BitVec n) (a : Nat) : x >>> a = BitVec.ofNat n (x.toNat / 2 ^ a) := by
  apply BitVec.eq_of_toNat_eq
  rw [BitVec.toNat_ushiftRight, Nat.shiftRight_eq_div_pow, BitVec.toNat_ofNat,
    Nat.mod_eq_of_lt (Nat.lt_of_le_of_lt (Nat.div_le_self ..) x.isLt)]

/-- A left shift multiplies and drops what leaves the lane (R66), whatever the amount. -/
theorem shiftLeft_eq_ofNat {n : Nat} (x : BitVec n) (a : Nat) :
    x <<< a = BitVec.ofNat n (x.toNat * 2 ^ a % 2 ^ n) := by
  apply BitVec.eq_of_toNat_eq
  rw [BitVec.toNat_shiftLeft, Nat.shiftLeft_eq, BitVec.toNat_ofNat, Nat.mod_mod]

/-- An addition wraps (R60). -/
theorem add_eq_ofNat {n : Nat} (x y : BitVec n) : x + y = BitVec.ofNat n ((x.toNat + y.toNat) % 2 ^ n) := by
  apply BitVec.eq_of_toNat_eq
  rw [BitVec.toNat_add, BitVec.toNat_ofNat, Nat.mod_mod]

/-- The bitwise OR of the numbers (R64). -/
theorem or_eq_ofNat {n : Nat} (x y : BitVec n) : x ||| y = BitVec.ofNat n (x.toNat ||| y.toNat) := by
  rw [BitVec.ofNat_or, BitVec.ofNat_toNat, BitVec.ofNat_toNat, BitVec.setWidth_eq, BitVec.setWidth_eq]

/-! ## The narrow primitives (R58 to R60, R64) -/

theorem srl8_eq_ofFn (v : Lanes Byte) (a : BitVec 3) :
    srl8 v a = .ofFn fun i => BitVec.ofNat 8 ((v.get i).toNat / 2 ^ a.toNat) :=
  Lanes.map_eq_ofFn fun _ => ushiftRight_eq_ofNat ..

theorem cmpeq8_eq_ofFn (v : Lanes Byte) (c : Byte) : cmpeq8 v c = .ofFn fun i => if v.get i = c then 0xFF else 0x00 :=
  Lanes.map_eq_ofFn fun _ => rfl

theorem addLanes_eq_ofFn (v w : Lanes Byte) :
    addLanes v w = .ofFn fun i => BitVec.ofNat 8 (((v.get i).toNat + (w.get i).toNat) % 256) :=
  Lanes.zipWith_eq_ofFn fun _ => add_eq_ofNat ..

theorem or8_eq_ofFn (v w : Lanes Byte) :
    or8 v w = .ofFn fun i => BitVec.ofNat 8 ((v.get i).toNat ||| (w.get i).toNat) :=
  Lanes.zipWith_eq_ofFn fun _ => or_eq_ofNat ..

/-! ## The wide primitives (R65 to R68) -/

theorem zext16_eq_ofFn (v : Lanes Byte) : zext16 v = .ofFn fun i => BitVec.ofNat 16 (v.get i).toNat :=
  Lanes.map_eq_ofFn fun _ => (BitVec.ofNat_toNat ..).symm

theorem sllv16_eq_ofFn (w : Lanes Half) (k : Lanes Byte) :
    sllv16 w k = .ofFn fun i => BitVec.ofNat 16 ((w.get i).toNat * 2 ^ (k.get i).toNat % 65536) :=
  Lanes.zipWith_eq_ofFn fun _ => shiftLeft_eq_ofNat ..

/-- Bits 7:0 are the remainder by 256. -/
theorem lo8_eq_ofFn (w : Lanes Half) : lo8 w = .ofFn fun i => BitVec.ofNat 8 ((w.get i).toNat % 256) :=
  Lanes.map_eq_ofFn fun i => by
    rw [extract_byte, Nat.pow_zero, Nat.div_one, ← BitVec.toNat_inj, BitVec.toNat_ofNat, BitVec.toNat_ofNat, Nat.mod_mod]

/-- Bits 15:8 are the quotient by 256. -/
theorem hi8_eq_ofFn (w : Lanes Half) : hi8 w = .ofFn fun i => BitVec.ofNat 8 ((w.get i).toNat / 256) :=
  Lanes.map_eq_ofFn fun _ => extract_byte ..

/-! ## The primitives across lanes (R61, R69, R70) -/

theorem shuffle8_eq_ofFn (t ix : Lanes Byte) :
    shuffle8 t ix = .ofFn fun i => t.get (Fin.ofNat 8 ((ix.get i).toNat % 8)) :=
  Lanes.map_eq_ofFn fun _ => congrArg t.get (Fin.ext (Nat.mod_mod ..).symm)

theorem gather8_eq_ofFn (v : Lanes Byte) (ix : Lanes (BitVec 3)) :
    gather8 v ix = .ofFn fun i => v.get (Fin.ofNat 8 (ix.get i).toNat) :=
  Lanes.map_eq_ofFn fun i => congrArg v.get (Fin.ext (Nat.mod_eq_of_lt (ix.get i).isLt).symm)

theorem rotl1_eq_ofFn (v : Lanes Byte) : rotl1 v = .ofFn fun i => v.get (Fin.ofNat 8 ((i.val + 1) % 8)) := rfl

/-! ## The range test (R62) and the reduction (R63) -/

theorem valid_iff (b : Byte) : valid b = true ↔
    (0x41 ≤ b.toNat ∧ b.toNat ≤ 0x5A) ∨ (0x61 ≤ b.toNat ∧ b.toNat ≤ 0x7A) ∨ (0x30 ≤ b.toNat ∧ b.toNat ≤ 0x39) ∨
      b = 0x2B ∨ b = 0x2F := by
  rw [valid, decide_eq_true_iff, ← BitVec.toNat_inj (y := 0x2B), ← BitVec.toNat_inj (y := 0x2F)]
  rfl

/-- The class hash: the high half of the byte, but 1 for `/` (43_vector_group.md R72). -/
theorem hash_toNat (b : Byte) : (hash b).toNat = if b = slash then 1 else b.toNat / 16 := by
  by_cases h : b = slash
  · rw [if_pos h, h]
    rfl
  · rw [if_neg h, hash, eqmask8, if_neg h, add8, BitVec.ofNat_eq_ofNat, BitVec.add_zero, BitVec.toNat_ushiftRight,
      Nat.shiftRight_eq_div_pow]

/-- `LOB`: the least byte of each class (R62). -/
def classLow : List Nat := [0xFF, 0x2F, 0x2B, 0x30, 0x41, 0x50, 0x61, 0x70]

/-- `HIB`: the greatest byte of each class; class 0 is empty (R62). -/
def classHigh : List Nat := [0x00, 0x2F, 0x2B, 0x39, 0x4F, 0x5A, 0x6F, 0x7A]

/-- The hash form of the range test. A byte other than `/` is in the row of 16 that its class names, and the bounds of that
class cut the five ranges to this row (R62). -/
theorem valid_iff_within_class (b : Byte) : valid b = true ↔ (hash b).toNat < 8 ∧
    classLow.getD (hash b).toNat 0 ≤ b.toNat ∧ b.toNat ≤ classHigh.getD (hash b).toNat 0 := by
  by_cases hb : b = slash
  · subst hb
    decide
  · have hne : b.toNat ≠ 0x2F := fun h => hb (BitVec.eq_of_toNat_eq h)
    rw [hash_toNat, if_neg hb, valid, decide_eq_true_iff]
    by_cases h8 : b.toNat / 16 < 8
    · generalize hrow : b.toNat / 16 = row at h8 ⊢
      interval_cases row <;> simp only [classLow, classHigh, List.getD_cons_zero, List.getD_cons_succ] <;> omega
    · omega

theorem andr_eq_true_iff (m : Lanes Bool) : andr m = true ↔ ∀ i, m.get i = true := by
  rw [Lanes.forall_get_iff (p := (· = true))]
  simp only [andr, Bool.and_eq_true, and_assoc]

/-- Settles O18: each lane's arithmetic, done in every lane. -/
theorem narrowPrimitivesComputeLaneByLane : Obligations.NarrowPrimitivesComputeLaneByLane := by
  intro v w k c s
  rw [← srl8_eq_ofFn v k, ← cmpeq8_eq_ofFn v c, ← addLanes_eq_ofFn v w, ← or8_eq_ofFn v w]
  exact ⟨rfl, rfl, rfl, rfl⟩

/-- Settles O19: the index of a lane taken modulo 8 is the lane the primitive reads. -/
theorem crossLanePrimitivesMoveLanes : Obligations.CrossLanePrimitivesMoveLanes := by
  intro v ix idx s
  rw [← shuffle8_eq_ofFn v ix, ← gather8_eq_ofFn v idx, ← rotl1_eq_ofFn v]
  exact ⟨rfl, rfl, rfl⟩

/-- Settles O20: the five ranges are those of `valid`, and the bounds of a byte's class single out the same bytes. -/
theorem rangeTestAndReduction : Obligations.RangeTestAndReduction := by
  intro v m s
  refine ⟨⟨inrange8 v, rfl, fun i => ?_⟩, andr m, rfl, andr_eq_true_iff m⟩
  rw [inrange8, Lanes.get_map]
  exact ⟨valid_iff _, valid_iff_within_class _⟩

/-- Settles O21: each wide lane's number, shifted, cut or widened, in every lane. -/
theorem widePrimitivesKeepValues : Obligations.WidePrimitivesKeepValues := by
  intro v k w s
  rw [← zext16_eq_ofFn v, ← sllv16_eq_ofFn w k, ← lo8_eq_ofFn w, ← hi8_eq_ofFn w]
  exact ⟨rfl, rfl, rfl, rfl⟩

end Machine

end Sys2Proof
end

section
/-! The rows of the vector datapath standing alone, VLOAD to VCOMPACT (O22 to O31): what each writes, lane by lane, and what
VWIDEN, VSPLIT, VROT and VMERGE make of four sextets. -/

namespace Sys2Proof.Machine

section

variable {g : List Byte} {a b c d x y : Byte} {k l : Nat}

/-! ## The lanes of a stage (43_vector_group.md R71 to R74) -/

/-- A group of at most four characters has none in lanes 4 to 7 (R71; D5). -/
theorem loadLanes_eq_ofFn (h : g.length ≤ 4) : loadLanes g = .ofFn fun i => g.getD i.val PAD := by
  have hpad (i : Nat) (hi : 4 ≤ i) : PAD = g.getD i PAD := (List.getD_eq_default _ _ (h.trans hi)).symm
  exact Lanes.ext rfl rfl rfl rfl (hpad 4 (by decide)) (hpad 5 (by decide)) (hpad 6 (by decide)) (hpad 7 (by decide))

theorem hash_eq_ite (b : Byte) : hash b = if b = slash then 1 else BitVec.ofNat 8 (b.toNat / 16) := by
  have hb := b.isLt
  rw [← BitVec.toNat_inj, hash_toNat]
  split
  · rfl
  · rw [BitVec.toNat_ofNat, Nat.mod_eq_of_lt (by omega)]

theorem hashLanes_eq_ofFn (v : Lanes Byte) : addLanes (srl8 v 4) (cmpeq8 v slash) =
    .ofFn fun i => if v.get i = slash then 1 else BitVec.ofNat 8 ((v.get i).toNat / 16) :=
  (hashLanes_eq v).trans (Lanes.map_eq_ofFn fun _ => hash_eq_ite _)

theorem inrange8_eq_ofFn (v : Lanes Byte) : inrange8 v = .ofFn fun i => valid (v.get i) :=
  Lanes.map_eq_ofFn fun _ => rfl

/-- The flag is over all eight lanes, pad lanes included (R73; D8). -/
theorem andr_inrange8 (v : Lanes Byte) : andr (inrange8 v) = decide (∀ i, valid (v.get i) = true) := by
  rw [Bool.eq_iff_iff, andr_eq_true_iff, decide_eq_true_iff, inrange8]
  simp only [Lanes.get_map]

/-- The table's entries in order (30_encoding.md R37). -/
theorem LUT_get_eq_getD : ∀ i : Fin 8,
    LUT.get i = [0x00, 0x10, 0x13, 0x04, 0xBF, 0xBF, 0xB9, 0xB9].getD i.val 0 := by
  decide

/-- A lookup reads the entry its index names modulo 8 (R74; D7). -/
theorem lookup_eq_ofFn (ix : Lanes Byte) : shuffle8 LUT ix =
    .ofFn fun i => [0x00, 0x10, 0x13, 0x04, 0xBF, 0xBF, 0xB9, 0xB9].getD ((ix.get i).toNat % 8) 0 :=
  Lanes.map_eq_ofFn fun _ => LUT_get_eq_getD _

/-- A byte shifted left by at most 8 fits 16 bits (R76). -/
theorem widened_toNat (x : Byte) (hk : k ≤ 8) : (x.setWidth 16 <<< k).toNat = x.toNat * 2 ^ k := by
  have hfit : x.toNat * 2 ^ k < 2 ^ 8 * 2 ^ 8 :=
    Nat.mul_lt_mul_of_lt_of_le x.isLt (Nat.pow_le_pow_right (by decide) hk) (by decide)
  rw [BitVec.toNat_shiftLeft, Nat.shiftLeft_eq, BitVec.toNat_setWidth_of_le (by decide),
    Nat.mod_eq_of_lt (show _ < 2 ^ 16 from hfit)]

/-- The shifts of the tiled table are at most 8 (30_encoding.md R38; R76). -/
theorem widened_get_toNat (v : Lanes Byte) (i : Fin 8) :
    ((sllv16 (zext16 v) SHIFTS).get i).toNat = (v.get i).toNat * 2 ^ (2 * (i.val % 4 + 1)) := by
  obtain ⟨-, -, hshifts⟩ := constantsAreAsWired
  rw [sllv16, zext16, Lanes.get_zipWith, Lanes.get_map, widened_toNat _ (by rw [hshifts i]; omega), hshifts i]

/-! ## The packed bytes (43_vector_group.md R76 to R79) -/

/-- The four stages that pack, from the sextet lanes: each lane's low half with the high half of the next lane. -/
theorem packed_eq (r : VRegs) : (stageMerge (stageRot (stageSplit (stageWiden r)))).vPack =
    ⟨packByte r.vSext.l0 r.vSext.l1 2 4, packByte r.vSext.l1 r.vSext.l2 4 6, packByte r.vSext.l2 r.vSext.l3 6 8,
      packByte r.vSext.l3 r.vSext.l4 8 2, packByte r.vSext.l4 r.vSext.l5 2 4, packByte r.vSext.l5 r.vSext.l6 4 6,
      packByte r.vSext.l6 r.vSext.l7 6 8, packByte r.vSext.l7 r.vSext.l0 8 2⟩ := rfl

/-- A packed byte as the OR of two numbers, for any bytes in the lanes (R79). -/
theorem packByte_eq_ofNat (hk : k ≤ 8) (hl : l ≤ 8) : packByte x y k l =
    BitVec.ofNat 8 ((x.toNat * 2 ^ k % 256) ||| (y.toNat * 2 ^ l / 256)) := by
  have hlow (n : Nat) : BitVec.ofNat 8 (n % 256) = BitVec.ofNat 8 n := BitVec.eq_of_toNat_eq (Nat.mod_mod ..)
  rw [packByte, extract_byte, extract_byte, widened_toNat x hk, widened_toNat y hl, Nat.pow_zero, Nat.div_one,
    BitVec.ofNat_or, hlow]
  rfl

/-- Four sextets pack into the three bytes of their 24-bit value (R79; 30_encoding.md R33). -/
theorem packByte_eq_bytes (ha : a.toNat < 64) (hb : b.toNat < 64) (hc : c.toNat < 64) (hd : d.toNat < 64) :
    packByte a b 2 4 =
      BitVec.ofNat 8 ((a.toNat * 2 ^ 18 + b.toNat * 2 ^ 12 + c.toNat * 2 ^ 6 + d.toNat) / 2 ^ 16) ∧
    packByte b c 4 6 =
      BitVec.ofNat 8 ((a.toNat * 2 ^ 18 + b.toNat * 2 ^ 12 + c.toNat * 2 ^ 6 + d.toNat) / 2 ^ 8) ∧
    packByte c d 6 8 = BitVec.ofNat 8 (a.toNat * 2 ^ 18 + b.toNat * 2 ^ 12 + c.toNat * 2 ^ 6 + d.toNat) := by
  have h0 := packByte_toNat ha hb (.inl ⟨rfl, rfl⟩)
  have h1 := packByte_toNat hb hc (.inr (.inl ⟨rfl, rfl⟩))
  have h2 := packByte_toNat hc hd (.inr (.inr ⟨rfl, rfl⟩))
  simp only [← BitVec.toNat_inj, h0, h1, h2, BitVec.toNat_ofNat]
  omega

theorem packByte_zero (k l : Nat) : packByte 0 0 k l = 0 := by
  simp [packByte]

/-- The lane of the last sextet keeps no bit of it: all 6 are in the high half, and the next lane is 0 (R79). -/
theorem packByte_zero_right (x : Byte) : packByte x 0 8 2 = 0 := by
  rw [packByte_eq_ofNat (by decide) (by decide)]
  simp

/-- What lane 7 gets from lane 0 is 0 for a sextet: its 6 bits are all in the low half (R79). -/
theorem packByte_zero_left (hx : x.toNat < 64) : packByte 0 x 8 2 = 0 := by
  have hhi : x.toNat * 2 ^ 2 / 256 = 0 := by omega
  rw [packByte_eq_ofNat (by decide) (by decide), hhi]
  rfl

/-- Sextets in lanes 0 to 3 and zeros above pack into three bytes and zeros (R79). -/
theorem packed_of_sextets {r : VRegs} (hr : r.vSext = ⟨a, b, c, d, 0, 0, 0, 0⟩) (ha : a.toNat < 64)
    (hb : b.toNat < 64) (hc : c.toNat < 64) (hd : d.toNat < 64) :
    (stageMerge (stageRot (stageSplit (stageWiden r)))).vPack =
      ⟨BitVec.ofNat 8 ((a.toNat * 2 ^ 18 + b.toNat * 2 ^ 12 + c.toNat * 2 ^ 6 + d.toNat) / 2 ^ 16),
        BitVec.ofNat 8 ((a.toNat * 2 ^ 18 + b.toNat * 2 ^ 12 + c.toNat * 2 ^ 6 + d.toNat) / 2 ^ 8),
        BitVec.ofNat 8 (a.toNat * 2 ^ 18 + b.toNat * 2 ^ 12 + c.toNat * 2 ^ 6 + d.toNat), 0, 0, 0, 0, 0⟩ := by
  obtain ⟨h0, h1, h2⟩ := packByte_eq_bytes ha hb hc hd
  rw [packed_eq, hr, ← h0, ← h1, ← h2]
  exact Lanes.ext rfl rfl rfl (packByte_zero_right d) (packByte_zero 2 4) (packByte_zero 4 6)
    (packByte_zero 6 8) (packByte_zero_left ha)

end

/-- Settles O22: the characters of the group, and the pad in every lane that has none. -/
theorem vloadPlacesTheGroup : Obligations.VloadPlacesTheGroup := by
  intro g s h1 h4
  have hl : lengthOk g.length = true := decide_eq_true ⟨h1, h4⟩
  refine (if_pos hl).trans ?_
  rw [stageLoad, loadLanes_eq_ofFn h4]
  rfl

/-- Settles O23: the mask of the slash, and the class hash in every lane. -/
theorem vhashComputesTheClass : Obligations.VhashComputesTheClass := by
  intro s
  have heq := cmpeq8_eq_ofFn s.vdp.vIn slash
  have hhash := hashLanes_eq_ofFn s.vdp.vIn
  unfold slash at heq hhash
  rw [← heq, ← hhash]
  rfl

/-- Settles O24: the range test of every lane, and its reduction over all eight. -/
theorem vvalidFlagsAnyInvalidLane : Obligations.VvalidFlagsAnyInvalidLane := by
  intro s
  rw [← inrange8_eq_ofFn, ← andr_inrange8]
  rfl

/-- Settles O25: the index modulo 8 is the lane of the table that the shuffle reads. -/
theorem vlookupFetchesTheOffset : Obligations.VlookupFetchesTheOffset := by
  intro s
  rw [← lookup_eq_ofFn]
  rfl

/-- Settles O26: the sum wraps, and with the offset of its class a lane is the sextet lane of its byte. -/
theorem vsextAddsTheOffset : Obligations.VsextAddsTheOffset := by
  refine fun s => ⟨addLanes s.vdp.vIn s.vdp.vOff, rfl, fun i => ?_⟩
  have hlane : (addLanes s.vdp.vIn s.vdp.vOff).get i = s.vdp.vIn.get i + s.vdp.vOff.get i := Lanes.get_zipWith ..
  rw [hlane]
  refine ⟨BitVec.toNat_add .., fun hoff => ?_⟩
  rw [hoff, offset_eq_mod]
  refine ⟨laneSextet_toNat, fun hpad => ?_⟩
  rw [hpad]
  rfl

/-- Settles O27: a byte shifted by at most 8 fits the widened lane. -/
theorem vwidenMovesTheSextet : Obligations.VwidenMovesTheSextet := fun s =>
  ⟨sllv16 (zext16 s.vdp.vSext) SHIFTS, rfl, widened_get_toNat s.vdp.vSext⟩

/-- Settles O28: the low half is the remainder by 256, the high half the quotient. -/
theorem vsplitSplitsByValue : Obligations.VsplitSplitsByValue := by
  intro s
  rw [← lo8_eq_ofFn, ← hi8_eq_ofFn]
  rfl

/-- Settles O29: lane `i` of the rotated vector is the next lane of V_HI. -/
theorem vrotRotatesTowardLaneZero : Obligations.VrotRotatesTowardLaneZero := by
  intro s
  rw [← rotl1_eq_ofFn]
  rfl

/-- Settles O30: the OR lane by lane; on four sextets the four stages leave the bytes of their value. -/
theorem vmergeFormsThePackedBytes : Obligations.VmergeFormsThePackedBytes := by
  refine ⟨fun s => ?_, fun s0 s1 s2 s3 s h0 h1 h2 h3 hs => ⟨_, rfl, ?_⟩⟩
  · rw [← or8_eq_ofFn]
    rfl
  · have htoNat (n : Nat) (hn : n < 64) : (BitVec.ofNat 8 n).toNat = n := Nat.mod_eq_of_lt (by omega)
    have hpack := packed_of_sextets hs (by rwa [htoNat s0 h0]) (by rwa [htoNat s1 h1]) (by rwa [htoNat s2 h2])
      (by rwa [htoNat s3 h3])
    rw [htoNat s0 h0, htoNat s1 h1, htoNat s2 h2, htoNat s3 h3] at hpack
    exact hpack

/-- Settles O31: the gather's indices are the order of the lanes (30_encoding.md R39; D10). -/
theorem vcompactDropsTheFiller : Obligations.VcompactDropsTheFiller := fun _ => rfl

end Sys2Proof.Machine
end

section
/-! A whole group on the vector datapath: VAPPEND (O32), GROUP.V (O33) and its agreement with GROUP.S (O34), the group formats
(O35) and the words of the group port (O36). -/

namespace Sys2Proof.Machine

section

variable {g : List Byte} {o : BufId} {s : State} {i : Instr} {chars chars' : BitVec 32} {len : BitVec 3}

/-! ## VAPPEND (43_vector_group.md R81) -/

/-- At most the first three lanes of V_COMP are appended (R81; 40_shared_preprocessing.md R50). -/
theorem outBytes_eq_take {r : VRegs} (h : r.gLen ≤ 4) :
    r.outBytes = [r.vComp.l0, r.vComp.l1, r.vComp.l2].take (nBytes r.gLen) := by
  have hn : nBytes r.gLen ≤ [r.vComp.l0, r.vComp.l1, r.vComp.l2].length := by
    simp only [nBytes, List.length_cons, List.length_nil]
    omega
  exact List.take_append_of_le_length hn

theorem outBytes_length_le {r : VRegs} (h : r.gLen ≤ 4) : r.outBytes.length ≤ 3 := by
  rw [outBytes_eq_take h]
  exact List.length_take_le' ..

theorem exec_vappend_of_ok (hok : s.vdp.isOk = true) : exec (.vappend o) s = appendRow .vdec o s.vdp.outBytes s :=
  if_pos hok

theorem exec_vappend_of_not_ok (hok : s.vdp.isOk = false) :
    exec (.vappend o) s = .next (raiseRow .vdec none s) :=
  if_neg (Bool.eq_false_iff.mp hok)

/-! ## One group (R82) -/

theorem worked_datapath (h4 : g.length ≤ 4) (s : State) : Worked .vdec s { s with vdp := datapath g s.vdp } :=
  ⟨_, .inl h4, rfl⟩

/-- GROUP.V standing alone on valid bytes appends the group's bytes (R82; log 10). -/
theorem exec_groupV_valid (h1 : 1 ≤ g.length) (h4 : g.length ≤ 4) (hv : g.all valid = true) (hf : s.inUse o = false) :
    ∃ t, exec (.groupV g o) s = .next t ∧ RowFrame .vdec s t ∧ Appended .vdec o (groupBytes g) s t ∧ t.ret = s.ret := by
  have hl : lengthOk g.length = true := decide_eq_true ⟨h1, h4⟩
  have hn := nBytes_bounds hl
  rw [← groupBytes_length hl] at hn
  obtain ⟨hrow, hframe, happ⟩ := appendRow_of_worked (worked_datapath h4 s) hf hn.1 hn.2
  exact ⟨_, (if_pos hl).trans ((groupVector_valid hl hv).trans hrow), hframe, happ, appended_ret ..⟩

/-- GROUP.V standing alone on a group with an invalid byte raises the error and names no byte (R82; log 10). -/
theorem exec_groupV_not_all_valid (h1 : 1 ≤ g.length) (h4 : g.length ≤ 4) (hv : g.all valid = false) (o : BufId)
    (s : State) : ∃ t, exec (.groupV g o) s = .next t ∧ RowFrame .vdec s t ∧ RowRaised .vdec none s t := by
  have hl : lengthOk g.length = true := decide_eq_true ⟨h1, h4⟩
  have hw := worked_datapath h4 s
  exact ⟨_, (if_pos hl).trans (groupVector_invalid h4 hv), .raised hw, .of hw⟩

/-- GROUP.S standing alone on a group with an invalid byte raises the first one (41_scalar_reference.md R55; log 10). -/
theorem exec_groupS_not_all_valid (h4 : g.length ≤ 4) (hv : g.all valid = false) (o : BufId) (s : State) :
    ∃ t b, exec (.groupS g o) s = .next t ∧ (g.find? fun b => !valid b) = some b ∧ RowFrame .sdec s t ∧
      RowRaised .sdec (some b) s t := by
  obtain ⟨b, hfind⟩ : ∃ b, (g.find? fun b => !valid b) = some b := by
    obtain ⟨c, hc, hcv⟩ := List.all_eq_false.mp hv
    exact Option.isSome_iff_exists.mp (List.find?_isSome.mpr ⟨c, hc, by simpa using hcv⟩)
  obtain ⟨hb, pre, post, rfl, hpre⟩ := List.find?_eq_some_iff_append.mp hfind
  obtain ⟨t, ht, hframe, hraised⟩ :=
    exec_groupS_first_invalid h4 (by simpa using hpre) (by simpa using hb) o s
  exact ⟨t, b, ht, hfind, hframe, hraised⟩

/-- The bytes of any group, valid or not, in the closed formula of R82. -/
theorem outBytes_datapath (h4 : g.length ≤ 4) (r : VRegs) : (datapath g r).outBytes =
    ([((laneSextet (g.getD 0 PAD)).toNat * 2 ^ 2 % 256) ||| ((laneSextet (g.getD 1 PAD)).toNat * 2 ^ 4 / 256),
      ((laneSextet (g.getD 1 PAD)).toNat * 2 ^ 4 % 256) ||| ((laneSextet (g.getD 2 PAD)).toNat * 2 ^ 6 / 256),
      ((laneSextet (g.getD 2 PAD)).toNat * 2 ^ 6 % 256) ||| ((laneSextet (g.getD 3 PAD)).toNat * 2 ^ 8 / 256)].map
        (BitVec.ofNat 8)).take (nBytes g.length) := by
  obtain ⟨h0, h1, h2⟩ := datapath_comp g r
  rw [packByte_eq_ofNat (by decide) (by decide)] at h0 h1 h2
  rw [outBytes_eq_take (r := datapath g r) h4, h0, h1, h2, datapath_gLen]
  rfl

/-- The sextet lane of a byte as a number: the wrapping sum with its offset (R74, R75). -/
theorem laneSextet_toNat_eq (b : Byte) :
    (laneSextet b).toNat = (b.toNat + (LUT.get (Fin.ofNat 8 ((Machine.hash b).toNat % 8))).toNat) % 256 := by
  rw [offset_eq_mod]
  exact BitVec.toNat_add ..

/-- Lanes 0 to 3 are valid exactly when the group is: the lanes it has no character for hold the pad (R73; D8). -/
theorem valid_lanes_eq_all (h4 : g.length ≤ 4) :
    (valid (g.getD 0 PAD) && valid (g.getD 1 PAD) && valid (g.getD 2 PAD) && valid (g.getD 3 PAD)) = g.all valid := by
  have hp : valid PAD = true := by decide
  rw [← isOkOf_loadLanes h4]
  simp only [isOkOf, andr, inrange8, loadLanes, Lanes.map, hp, Bool.and_true]

/-! ## The group port (R83) -/

theorem groupPort_valid (h1 : 1 ≤ g.length) (h4 : g.length ≤ 4) (hv : g.all valid = true) :
    groupPort g = ⟨portWord (groupBytes g), BitVec.ofNat 2 (nBytes g.length), true⟩ := by
  have hok : (datapath g VRegs.reset).isOk = true := (isOkOf_loadLanes h4).trans hv
  rw [groupPort, if_pos hok, vector_bytes _ (decide_eq_true ⟨h1, h4⟩) hv]

theorem groupPort_invalid (h4 : g.length ≤ 4) (hv : g.all valid = false) : groupPort g = ⟨0, 0, false⟩ := by
  have hok : (datapath g VRegs.reset).isOk = false := (isOkOf_loadLanes h4).trans hv
  rw [groupPort, if_neg (Bool.eq_false_iff.mp hok)]

/-- The group port shows a group's bytes as an output port shows an append (R83; 44_vector_message.md R88). -/
theorem portShows_groupPort (h1 : 1 ≤ g.length) (h4 : g.length ≤ 4) (hv : g.all valid = true) :
    PortShows g (groupPort g) := by
  have hl : lengthOk g.length = true := decide_eq_true ⟨h1, h4⟩
  have hlen := groupBytes_length hl
  obtain ⟨hnum, hbytes, habove⟩ := OutShows.showing (hlen.trans_le (nBytes_bounds hl).2)
  rw [hlen] at hbytes habove
  rw [groupPort_valid h1 h4 hv]
  refine ⟨rfl, ?_, hbytes, habove⟩
  rw [← hlen]
  exact hnum

/-- A group format is a group of 1 to 4 characters, and its row answers what the port shows of them (30_encoding.md R32;
log 13). -/
theorem exec_of_groupRow (h : groupRow g = some i) :
    1 ≤ g.length ∧ g.length ≤ 4 ∧ ∀ s, exec i s = .next (s.answer (.port (groupPort g))) := by
  match g, h with
  | [_], h | [_, _], h | [_, _, _], h | [_, _, _, _], h =>
    cases h
    exact ⟨by simp, by simp, fun _ => rfl⟩

/-- The first `n` characters of a group word (30_encoding.md R32). -/
def groupChars (chars : BitVec 32) (n : Nat) : List Byte := (List.range n).map (charAt chars)

/-- The decoder reads a group word's characters below `g_len` and no other (R32; R83). -/
theorem decode_group_eq_groupRow (h1 : 1 ≤ len.toNat) (h4 : len.toNat ≤ 4) :
    ∃ i, decode (.group chars len) = .ok i ∧ groupRow (groupChars chars len.toNat) = some i := by
  rw [decode, decodeGroup]
  generalize len.toNat = n at h1 h4 ⊢
  interval_cases n <;> exact ⟨_, rfl, rfl⟩

/-- A byte below bit `n` of a number is that of its last `n` bits. -/
theorem mod_two_pow_div_mod {k n : Nat} (h : k + 8 ≤ n) (x : Nat) :
    x % 2 ^ n / 2 ^ k % 2 ^ 8 = x / 2 ^ k % 2 ^ 8 := by
  obtain ⟨m, rfl⟩ := Nat.exists_eq_add_of_le h
  rw [Nat.add_assoc, Nat.pow_add, Nat.mod_mul_right_div_self, Nat.mod_mod_of_dvd _ (Nat.pow_dvd_pow 2 (by omega))]

theorem groupChars_congr {n : Nat} (h : chars.toNat % 2 ^ (8 * n) = chars'.toNat % 2 ^ (8 * n)) :
    groupChars chars n = groupChars chars' n := by
  refine List.map_congr_left fun k hk => BitVec.eq_of_toNat_eq ?_
  have hk : 8 * k + 8 ≤ 8 * n := by have := List.mem_range.mp hk; omega
  rw [charAt_toNat, charAt_toNat, ← mod_two_pow_div_mod hk, h, mod_two_pow_div_mod hk]

/-- A word with `g_len` 1 to 4 answers what the port shows of its characters (R83). -/
theorem runWord_group (h1 : 1 ≤ len.toNat) (h4 : len.toNat ≤ 4) :
    runWord (.group chars len) s = .next (s.answer (.port (groupPort (groupChars chars len.toNat)))) := by
  obtain ⟨i, hdec, hrow⟩ := decode_group_eq_groupRow (chars := chars) h1 h4
  obtain ⟨-, -, hexec⟩ := exec_of_groupRow hrow
  exact (runWord_of_decode hdec s).trans (hexec s)

theorem runWord_of_decode_error {w : FetchWord} {e : DecodeError} (h : decode w = .error e) (s : State) :
    runWord w s = rejectWord e s := by
  rw [runWord, h]

theorem decode_group_empty (h : len.toNat = 0) : decode (.group chars len) = .error .emptyGroup := by
  rw [decode, decodeGroup, h]
  rfl

theorem decode_group_reserved (h : 5 ≤ len.toNat) : decode (.group chars len) = .error (.reservedGroupLength len) := by
  have h8 := len.isLt
  rw [decode, decodeGroup]
  generalize len.toNat = n at h h8 ⊢
  interval_cases n <;> rfl

end

/-- Settles O34: both rows append the bytes of the group's 24-bit value, or both raise. -/
theorem groupOperationsAgree : Obligations.GroupOperationsAgree := by
  refine fun g oS oV s h1 h4 hS hV => ⟨fun hv => ?_, fun hv => ?_⟩
  · obtain ⟨tS, hexecS, -, happS, -, -⟩ := exec_groupS_valid h1 h4 hv hS
    obtain ⟨tV, hexecV, -, happV, -⟩ := exec_groupV_valid h1 h4 hv hV
    exact ⟨tS, tV, groupBytes g, hexecS, hexecV, groupBytes_length (decide_eq_true ⟨h1, h4⟩), happS, happV⟩
  · obtain ⟨tS, b, hexecS, hfind, -, hraisedS⟩ := exec_groupS_not_all_valid h4 hv oS s
    obtain ⟨tV, hexecV, -, hraisedV⟩ := exec_groupV_not_all_valid h1 h4 hv oV s
    exact ⟨tS, tV, b, hexecS, hexecV, hfind, hraisedS, hraisedV⟩

/-- Settles O32: with the flag set VAPPEND is a row's append of at most three lanes, otherwise it raises. -/
theorem vappendAppendsOrRaises : Obligations.VappendAppendsOrRaises := by
  refine fun o s => ⟨fun hok hwf h4 hf => ?_, fun hok hu => ?_, fun hok => ?_⟩
  · have hw := Worked.refl .vdec s
    refine ⟨_, (exec_vappend_of_ok hok).trans (appendRow_free hf _), .appended hw, appended_vdp .., appended_ret .., ?_⟩
    have happ := Appended.of (o := o) hw (outBytes_length_le h4) (.inr hwf)
    rw [outBytes_eq_take h4] at happ ⊢
    exact happ
  · exact (exec_vappend_of_ok hok).trans (appendRow_of_inUse hu _)
  · have hw := Worked.refl .vdec s
    exact ⟨_, exec_vappend_of_not_ok hok, .raised hw, raiseRow_vdp .., .of hw⟩

/-- Settles O33: what a valid group appends is what its ten stages leave, and lane by lane that is the closed formula. -/
theorem vectorGroupIsTheClosedFormula : Obligations.VectorGroupIsTheClosedFormula := by
  intro g o s h1 h4 v x p0 p1 p2 ok
  have hok : ok = g.all valid := valid_lanes_eq_all h4
  refine ⟨fun hv hf => ?_, fun hv => exec_groupV_not_all_valid h1 h4 (hok ▸ hv) o s⟩
  obtain ⟨t, hexec, hframe, happ, hret⟩ := exec_groupV_valid h1 h4 (hok ▸ hv) hf
  refine ⟨t, hexec, hframe, hret, ?_⟩
  rw [← vector_bytes s.vdp (decide_eq_true ⟨h1, h4⟩) (hok ▸ hv), outBytes_datapath h4] at happ
  simp only [laneSextet_toNat_eq] at happ
  exact happ

/-- Settles O35: the row of a format answers the group port, which shows the group's bytes or nothing. -/
theorem groupFormatsShowTheirBytes : Obligations.GroupFormatsShowTheirBytes := by
  intro g i s hrow
  obtain ⟨h1, h4, hexec⟩ := exec_of_groupRow hrow
  refine ⟨fun hv => ⟨groupPort g, hexec s, portShows_groupPort h1 h4 hv⟩, fun hv => ?_⟩
  rw [hexec, groupPort_invalid h4 hv]

/-- Settles O36: no character, a reserved length, and a word read by its characters below `g_len`. -/
theorem groupPortEdges : Obligations.GroupPortEdges := by
  refine fun chars chars' len s => ⟨fun h0 => ?_, fun h5 => ?_, fun h1 h4 heq => ?_⟩
  · exact runWord_of_decode_error (decode_group_empty h0) s
  · exact runWord_of_decode_error (decode_group_reserved h5) s
  · rw [runWord_group h1 h4, runWord_group h1 h4, groupChars_congr heq]
    exact ⟨rfl, _, rfl⟩

end Sys2Proof.Machine
end

section
/-! What a call returns, and the two decoders side by side: on equal inputs and equal buffers they return alike and leave the
same bytes (O39). -/

namespace Sys2Proof.Machine

/-- A call is over with `Ok` exactly on a valid body, and its buffer has grown by the bytes of the input: nothing in this
depends on which decoder it is (41_scalar_reference.md R56, 44_vector_message.md R85). -/
theorem decodeCall_result {a : AgentId} {o : BufId} {s : State} (h : MayStart a o s) (inp : List Byte) :
    ∃ t r, decodeCall a o inp s = .next t ∧ t.result a = some r ∧ (r = .ok ↔ (bodyOf inp).all valid = true) ∧
      t.bufs.read o.toNat = s.bufs.read o.toNat ++ callBytes inp := by
  obtain ⟨t, ht, -, -, hread, hseq, -, -⟩ := decodeCall_spec (inp := inp) h
  cases hv : (bodyOf inp).all valid with
  | true =>
    have hok : t.result a = some .ok := by rw [result_eq_ok_iff, hseq, if_pos hv]
    exact ⟨t, _, ht, hok, by simp, hread⟩
  | false =>
    have herr : t.result a = some (.err (t.signals a).errByte) := by
      rw [result_eq_err_iff, hseq, if_neg (Bool.eq_false_iff.mp hv)]
    exact ⟨t, _, ht, herr, by simp, hread⟩

/-- Settles O39: the result and the appended bytes of either decoder's call are one function of the input. -/
theorem decodersAgreeOnEveryInput : Obligations.DecodersAgreeOnEveryInput := by
  intro inp o o' s s' hS hV hbufs
  obtain ⟨tS, rS, hexecS, hresS, hokS, hreadS⟩ := decodeCall_result hS inp
  obtain ⟨tV, rV, hexecV, hresV, hokV, hreadV⟩ := decodeCall_result hV inp
  exact ⟨tS, tV, rS, rV, hexecS, hexecV, hresS, hresV, hokS.trans hokV.symm, by rw [hreadS, hreadV, hbufs]⟩

end Sys2Proof.Machine
end

section
/-! A call left to run step by step: with the other decoder at rest the machine's run is the call's own loop, and the loop is
over after one step per group and the end test (O45). -/

namespace Sys2Proof.Machine

section

variable {a : AgentId} {o : BufId} {inp : List Byte} {s t : State}

/-! ## The loop of a call (44_vector_message.md R85, R86) -/

theorem runCall_succ_of_running (h : (s.seq a).status = .run) (k : Nat) :
    runCall a (k + 1) s = andThen (agentStep a s) (runCall a k) := if_pos h

/-- Once a call is over, more iterations change nothing. -/
theorem runCall_of_le {m k : Nat} (h : runCall a m s = .next t) (hover : (t.seq a).status ≠ .run) (hle : m ≤ k) :
    runCall a k s = .next t := by
  induction m generalizing s k with
  | zero => cases h; exact runCall_over k hover
  | succ m ih =>
    obtain ⟨k, rfl⟩ : ∃ j, k = j + 1 := ⟨k - 1, by omega⟩
    by_cases hr : (s.seq a).status = .run
    · rw [runCall_succ_of_running hr] at h ⊢
      obtain ⟨u, hu, hm⟩ := andThen_eq_next h
      rw [hu, andThen_next]
      exact ih hm (by omega)
    · rw [runCall_over _ hr] at h ⊢
      exact h

/-- One iteration per group and one for the end test are enough for a call that has begun (R86). -/
theorem runCall_begun_over (h : MayStart a o s) (inp : List Byte) :
    ∃ t, runCall a (((bodyOf inp).length + 3) / 4 + 1) (s.begun a o inp) = .next t ∧ (t.seq a).status ≠ .run := by
  have hrest : (Seq.begin o inp).rest = bodyOf inp := (bodyOf_eq_take inp).symm
  obtain ⟨t, ht, -, -, -, hseq, -, -⟩ := runCall_spec a o (((bodyOf inp).length + 3) / 4 + 1) (s.begun a o inp)
    (by simp) (by simpa using stripEnd_le inp inp.length) (by simp)
    (by rw [(begun_sameOutside o inp).inFlight]; exact h.2) (by rw [begun_seq, hrest, groupsOf_length])
  refine ⟨t, ht, ?_⟩
  rw [hseq]
  dsimp only
  split
  · exact nofun
  · exact nofun

/-- A whole call is START and its loop (R85). -/
theorem decodeCall_eq_runCall (h : MayStart a o s) (inp : List Byte) :
    decodeCall a o inp s = runCall a ((bodyOf inp).length / 4 + 2) (s.begun a o inp) := by
  rw [decodeCall, startCall_ok h, andThen_next, begun_seq, Seq.callSteps, begin_bodyEnd_eq]

/-! ## The run of the machine -/

/-- What holds of an agent and of the other one holds of both. -/
theorem forall_agent {p : AgentId → Prop} (h : p a) (ho : p (other a)) (c : AgentId) : p c := by
  obtain rfl | rfl := eq_or_other a c
  · exact h
  · exact ho

/-- One running decoder takes its step (10_state.md R7). -/
theorem autoStep_alone (hr : (s.seq a).status = .run) (ho : (s.seq (other a)).status ≠ .run) :
    autoStep s = agentStep a s := by
  cases a
  · exact autoStep_vdec hr ho
  · exact autoStep_sdec hr ho

/-- `k` steps of the machine, in the model's own types. -/
def runSteps (k : Nat) (s : State) : Out := Host.Core.run core k s

theorem runSteps_succ (k : Nat) (s : State) : runSteps (k + 1) s = andThen (step s) (runSteps k) := by
  have hstep : core.step s = step s := rfl
  simp only [runSteps, Host.Core.run]
  rw [hstep]
  cases step s <;> rfl

/-- With no move of the caller pending and the other decoder at rest, the machine runs the loop of the call, and rests when
it is over (log 8). -/
theorem runSteps_eq_runCall (hi : s.inbox = []) (ho : (s.seq (other a)).status ≠ .run) (k : Nat) :
    runSteps k s = runCall a k s := by
  induction k generalizing s with
  | zero => rfl
  | succ k ih =>
    rw [runSteps_succ, step_of_inbox_nil hi]
    by_cases hr : (s.seq a).status = .run
    · rw [autoStep_alone hr ho, runCall_succ_of_running hr]
      cases ht : agentStep a s with
      | next t =>
        have hsame := agentStep_sameOutside ht
        exact ih (hsame.inbox.trans hi) (hsame.sequencer ▸ ho)
      | fault e => rfl
      | refused e => rfl
    · have hidle : ∀ c, (s.seq c).status ≠ .run := forall_agent hr ho
      rw [autoStep_idle hidle, andThen_next, ih hi ho, runCall_over _ hr, runCall_over _ hr]

end

/-- Settles O45: the machine's run after START and the whole call are both the call's loop, run long enough to be over. -/
theorem stepwiseCallEndsAsTheWholeCall : Obligations.StepwiseCallEndsAsTheWholeCall := by
  intro a o inp s u hi ho hstart
  obtain ⟨hm, rfl⟩ := startCall_cases hstart
  obtain ⟨t, ht, hover⟩ := runCall_begun_over hm inp
  refine ⟨t, ?_, fun k hk => ?_⟩
  · rw [exec_callInstr, decodeCall_eq_runCall hm]
    exact runCall_of_le ht hover (by omega)
  · have hrun := runSteps_eq_runCall (a := a) (s := s.begun a o inp) (by rw [begun_inbox]; exact hi)
      (by rw [begun_seq_other]; exact ho) k
    exact hrun.trans (runCall_of_le ht hover hk)

end Sys2Proof.Machine
end

section
/-! The step of a running decoder: the end test, one group or the error, and less work left after each (O46). -/

namespace Sys2Proof.Machine

/-! ## The work left of a call (44_vector_message.md R86) -/

section

variable {q : Seq}

theorem work_of_running (h : q.status = .run) : q.work = q.bodyEnd + 4 - q.pos := if_pos h

theorem work_of_not_running (h : q.status ≠ .run) : q.work = 0 := if_neg h

/-- A running call has work left: its cursor is at most 3 past the end (10_state.md R11). -/
theorem SeqInv.work_pos (h : SeqInv q) (hr : q.status = .run) : 0 < q.work := by
  have := h.bounded
  rw [work_of_running hr]
  omega

theorem work_advance_lt (hr : q.status = .run) (hp : q.pos < q.bodyEnd) : q.advance.work < q.work := by
  rw [work_of_running hr, work_of_running (q := q.advance) hr, advance_bodyEnd, advance_pos]
  omega

/-- The next group of a call is the first of what is left (40_shared_preprocessing.md R49). -/
theorem rest_take_four (q : Seq) : q.rest.take 4 = (q.inp.drop q.pos).take (min 4 (q.bodyEnd - q.pos)) := by
  rw [Seq.rest, List.drop_take, List.take_take]

end

section

variable {a : AgentId} {o : BufId} {s t u : State} {bs : List Byte}

theorem work_add_work_other (s : State) (a : AgentId) :
    (s.seq a).work + (s.seq (other a)).work = s.vseq.work + s.sseq.work := by
  cases a
  · rfl
  · exact Nat.add_comm _ _

/-! ## One step of a running decoder -/

theorem groupBytes_length_le (g : List Byte) : (groupBytes g).length ≤ 3 := List.length_take_le' ..

/-- What a running call appends, the advance of `pos` with it (20_memory.md R24; 44_vector_message.md R88). -/
theorem Appended.stepped (hw : Worked a s u) (hl : bs.length ≤ 3) (hwf : s.bufs.wf = true) :
    Appended a o bs s (stepped a o bs u) := by
  obtain ⟨grown, others, port⟩ := Appended.of (o := o) hw hl (.inr hwf)
  exact ⟨by rw [Machine.stepped, setSeq_bufs]; exact grown,
    fun j hj => by rw [Machine.stepped, setSeq_bufs]; exact others j hj,
    by rw [Machine.stepped, setSeq_port]; exact port⟩

/-- The body of a running call lies within its IN (40_shared_preprocessing.md R47). -/
theorem GoodState.bodyEnd_le (h : GoodState s) (hr : (s.seq a).status = .run) :
    (s.seq a).bodyEnd ≤ (s.seq a).inp.length := by
  obtain ⟨hn, -, -⟩ := (h.seqInv a).running hr
  exact hn ▸ (h.seqInv a).stripped.1

/-- A step of a running decoder leaves its call less work. -/
theorem GoodState.agentStep_work_lt (h : GoodState s) (hr : (s.seq a).status = .run)
    (ht : Machine.agentStep a s = .next t) : (t.seq a).work < (s.seq a).work := by
  have hpos := (h.seqInv a).work_pos hr
  rcases agentStep_cases ht with ⟨-, rfl⟩ | ⟨hp, o, -, -, u, bs, hw, rfl⟩ | ⟨-, u, b, -, rfl⟩
  · rw [work_of_not_running (by simp)]
    exact hpos
  · rw [stepped_seq, hw.seq]
    exact work_advance_lt hr hp
  · rw [work_of_not_running (by simp)]
    exact hpos

/-! ## One step of the machine -/

/-- With a decoder running the machine takes a running decoder's step, whichever the free value says (log 7). -/
theorem autoStep_of_running (hr : (s.seq a).status = .run) :
    ∃ c turns, (s.seq c).status = .run ∧ autoStep s = agentStep c { s with turns := turns } := by
  by_cases ho : (s.seq (other a)).status = .run
  · have hboth : ∀ c, (s.seq c).status = .run := forall_agent hr ho
    exact ⟨_, _, hboth _, autoStep_both (hboth .vdec) (hboth .sdec)⟩
  · exact ⟨a, s.turns, hr, autoStep_alone hr ho⟩

/-- With a decoder running the machine's own move answers a next state with less work left. -/
theorem GoodState.autoStep_progress (h : GoodState s) (hr : (s.seq a).status = .run) :
    ∃ t, autoStep s = .next t ∧ t.vseq.work + t.sseq.work < s.vseq.work + s.sseq.work := by
  obtain ⟨c, turns, hc, hs⟩ := autoStep_of_running hr
  have hg : GoodState { s with turns := turns } := h.congr (seq_setTurns turns) h.canonical h.loaded
  have hc' : (State.seq { s with turns := turns } c).status = .run := by rw [seq_setTurns]; exact hc
  obtain ⟨t, ht⟩ := hg.agentStep_next hc'
  have hlt := hg.agentStep_work_lt hc' ht
  have hother := (agentStep_sameOutside ht).sequencer
  rw [seq_setTurns] at hlt hother
  refine ⟨t, hs.trans ht, ?_⟩
  rw [← work_add_work_other t c, ← work_add_work_other s c, hother]
  exact Nat.add_lt_add_right hlt _

end

/-- Settles O46: the end test, a valid group and an invalid one are the three steps of a running decoder, and each lowers its
own work and leaves the other decoder's as it was. -/
theorem runningDecodersAlwaysProgress : Obligations.RunningDecodersAlwaysProgress := by
  refine ⟨fun a o s hgood hr hout => ⟨fun hend => ?_, fun g hp hg => ?_⟩, fun s hgood hi ⟨a, hr⟩ => ?_⟩
  · refine ⟨_, agentStep_end hend, finished_sameOutside, finished_bufs .., finished_errByte .., ?_, finished_seq ..⟩
    rw [finished_port]
    exact .quiet
  · have hb := hgood.bodyEnd_le hr
    have hfree := hgood.exclusive ((inFlight_iff s a o).mpr ⟨hr, hout⟩)
    rw [← rest_take_four] at hg
    subst hg
    refine ⟨fun hv => ?_, fun b hbad => ?_⟩
    · obtain ⟨u, hu, hw⟩ := agentStep_valid hb hp hout hfree hv
      refine ⟨_, hu, hw.sameOutside.trans (stepped_sameOutside ..), .stepped hw (groupBytes_length_le _) hgood.canonical,
        ?_, ?_⟩
      · rw [stepped_errByte, hw.errByte]
      · rw [stepped_seq, hw.seq]; rfl
    · obtain ⟨u, hu, hw⟩ := agentStep_invalid hb hp hbad
      refine ⟨_, hu, hw.sameOutside.trans (raised_sameOutside b), ?_, ?_, ?_, ?_⟩
      · rw [raised_bufs, hw.bufs]
      · rw [raised_port]
        exact .quiet
      · rintro rfl
        rfl
      · rw [raised_seq, hw.seq]; rfl
  · rw [step_of_inbox_nil hi]
    exact hgood.autoStep_progress hr

end Sys2Proof.Machine
end

section
/-! The equivalence harness: a call is a function of its input and buffer (O42), CHECK.EQ passes (O44), how many bytes groups
and calls append (O40), and which inputs both decoders reject (O41). -/

namespace Sys2Proof.Machine

section

variable {a : AgentId} {o : BufId} {inp xs g : List Byte} {s t : State}

/-! ## The result of a call (45_equivalence_harness.md R96) -/

/-- One result belongs to a decoder and an input, from whatever state and on whatever buffer the call runs (R96): `Ok` on a
valid body, else the error, with the first invalid byte on SDEC (60_exceptions.md R98). -/
theorem exists_result_of_input (a : AgentId) (inp : List Byte) : ∃ r, ∀ (o : BufId) (s : State), MayStart a o s →
    ∃ t, exec (callInstr a o inp) s = .next t ∧ t.result a = some r ∧
      t.bufs.read o.toNat = s.bufs.read o.toNat ++ callBytes inp := by
  cases hb : (bodyOf inp).find? fun b => !valid b with
  | none =>
    have hv : (bodyOf inp).all valid = true := by simpa using hb
    exact ⟨_, decodes_of_callBytes_eq hv rfl a⟩
  | some b => exact ⟨_, rejects_of_first_invalid hb a⟩

/-! ## The harness (R91) -/

/-- A machine right after reset may start either decoder on the harness's buffer (70_reset_and_hazards.md R107; log 24). -/
theorem mayStart_reset (a : AgentId) : MayStart a 0 .reset := by
  cases a
  · exact ⟨nofun, rfl⟩
  · exact ⟨nofun, rfl⟩

/-- What the harness reads of a decoder does not depend on which one it is: the kind says whether the body is valid, and the
fresh buffer holds the bytes of the input (R89, R91). -/
theorem freshRun_eq (a : AgentId) (x : List Byte) : freshRun a x = some ((bodyOf x).all valid, callBytes x) := by
  obtain ⟨t, r, ht, hres, hok, hread⟩ := decodeCall_result (mayStart_reset a) x
  have hread : t.bufs.read 0 = callBytes x := hread
  cases r with
  | ok =>
    have hv : (bodyOf x).all valid = true := hok.mp rfl
    simp only [freshRun, harnessResult, ht, hres, hread, hv]
  | err c =>
    have hv : (bodyOf x).all valid = false := Bool.eq_false_iff.mpr fun hv => nomatch hok.mpr hv
    simp only [freshRun, harnessResult, ht, hres, hread, hv]

/-- CHECK.EQ writes the verdict on the harness's two runs and nothing else (R91). -/
theorem exec_checkEq (x : List Byte) (s : State) :
    exec (.checkEq x) s = .next { s with verdict := some (judge (freshRun .sdec x) (freshRun .vdec x)) } := rfl

/-- Two accepting runs are judged by their buffers (R91; D24). -/
theorem judge_ok_eq_pass_iff {outS outV : List Byte} :
    judge (some (true, outS)) (some (true, outV)) = .pass ↔ outS = outV := by
  rw [judge]
  split
  · exact iff_of_true rfl ‹_›
  · exact iff_of_false nofun ‹_›

theorem judge_self (r : HarnessResult) : judge (some r) (some r) = .pass := by
  obtain ⟨_ | _, out⟩ := r
  · rfl
  · exact judge_ok_eq_pass_iff.mpr rfl

theorem judge_none_right (r : Option HarnessResult) : judge r none = .fail := by
  obtain _ | ⟨_ | _, out⟩ := r <;> rfl

/-! ## How many bytes are appended (R94) -/

/-- A row's append of a group's bytes lengthens the buffer by `N(L)` (40_shared_preprocessing.md R50). -/
theorem Appended.length_read (h : Appended a o (groupBytes g) s t) (hl : lengthOk g.length = true) :
    (t.bufs.read o.toNat).length = (s.bufs.read o.toNat).length + nBytes g.length := by
  rw [h.grown, List.length_append, groupBytes_length hl]

/-- The groups of a body are its bytes in order (40_shared_preprocessing.md R49). -/
theorem groupsOf_flatten (xs : List Byte) : (groupsOf xs).flatten = xs := by
  induction xs using groupsOf.induct with
  | case1 x0 x1 x2 x3 rest ih => simp [groupsOf, ih]
  | case2 => rfl
  | case3 short hlong hne => rw [groupsOf.eq_3 short hlong hne, List.flatten_singleton]

/-- In a valid body every group is good. -/
theorem goodGroups_of_all_valid (hv : xs.all valid = true) : goodGroups (groupsOf xs) = groupsOf xs := by
  refine List.takeWhile_eq_self_iff.mpr fun g hg => List.all_eq_true.mpr fun b hb => ?_
  exact List.all_eq_true.mp hv b (groupsOf_flatten xs ▸ List.mem_flatten.mpr ⟨g, hg, hb⟩)

/-- Whole groups give three bytes each, and a last shorter one gives `N` of what is left (R94). -/
theorem length_flatMap_groupBytes (xs : List Byte) : ((groupsOf xs).flatMap groupBytes).length =
    3 * (xs.length / 4) + [0, 1, 1, 2].getD (xs.length % 4) 0 := by
  induction xs using groupsOf.induct with
  | case1 x0 x1 x2 x3 rest ih =>
    have hlen : (x0 :: x1 :: x2 :: x3 :: rest).length = rest.length + 4 := rfl
    have hdiv : (rest.length + 4) / 4 = rest.length / 4 + 1 := by omega
    have h3 : (groupBytes [x0, x1, x2, x3]).length = 3 := by
      rw [groupBytes_length rfl]
      simp [nBytes]
    rw [hlen, hdiv, Nat.add_mod_right, groupsOf, List.flatMap_cons, List.length_append, ih, h3]
    omega
  | case2 => rfl
  | case3 short hlong hne =>
    rw [groupsOf.eq_3 short hlong hne, List.flatMap_singleton]
    match short, hlong, hne with
    | [_], _, _ | [_, _], _, _ | [_, _, _], _, _ =>
      rw [groupBytes_length rfl]
      simp [nBytes]
    | x0 :: x1 :: x2 :: x3 :: rest, hlong, _ => exact absurd rfl (hlong x0 x1 x2 x3 rest)

/-! ## Which inputs are rejected (R95) -/

/-- Below `end` the body holds what the input holds (40_shared_preprocessing.md R47). -/
theorem getElem?_bodyOf {k : Nat} (h : k < (bodyOf inp).length) : (bodyOf inp)[k]? = inp[k]? := by
  obtain ⟨n, hn⟩ := bodyOf_append_pads inp
  conv_rhs => rw [hn, List.getElem?_append_left h]

/-- The body is valid when every byte of the input below `end` is (R95). -/
theorem all_valid_bodyOf_iff : (bodyOf inp).all valid = true ↔
    ∀ k b, k < (bodyOf inp).length → inp[k]? = some b → valid b = true := by
  rw [List.all_eq_true]
  constructor
  · intro h k b hk hb
    rw [← getElem?_bodyOf hk] at hb
    exact h b (List.mem_of_getElem? hb)
  · intro h b hb
    obtain ⟨k, hk, rfl⟩ := List.mem_iff_getElem.mp hb
    exact h k _ hk (by rw [← getElem?_bodyOf hk, List.getElem?_eq_getElem hk])

end

/-- Settles O42: decoder and input alone give the result and the appended bytes. -/
theorem callsAreFunctionsOfInputAndBuffer : Obligations.CallsAreFunctionsOfInputAndBuffer := by
  intro a o o' inp s s' hs hs' hbufs
  obtain ⟨r, hr⟩ := exists_result_of_input a inp
  obtain ⟨t, hexec, hres, hread⟩ := hr o s hs
  obtain ⟨t', hexec', hres', hread'⟩ := hr o' s' hs'
  exact ⟨t, t', r, hexec, hexec', hres, hres', by rw [hread, hread', hbufs]⟩

/-- Settles O44: the harness reads the same of both decoders, and a result compared with itself passes. -/
theorem equivalenceCheckAlwaysPasses : Obligations.EquivalenceCheckAlwaysPasses := by
  refine ⟨fun x s => ?_, fun outS outV r => ⟨judge_ok_eq_pass_iff, rfl, rfl, rfl, rfl, judge_none_right r⟩⟩
  rw [exec_checkEq, freshRun_eq, freshRun_eq, judge_self]

/-- Settles O40: a valid group appends `N(L)` bytes on either decoder, and a call on a valid body those of all its groups. -/
theorem groupLengthLaw : Obligations.GroupLengthLaw := by
  refine ⟨fun g o s k hk hv hf => ?_, fun a o inp s hm hv => ?_⟩
  · obtain ⟨h1, h4, rfl⟩ : 1 ≤ g.length ∧ g.length ≤ 4 ∧ k = nBytes g.length := by
      simp only [List.mem_cons, Prod.mk.injEq, List.not_mem_nil, or_false] at hk
      rw [nBytes]
      omega
    have hl : lengthOk g.length = true := decide_eq_true ⟨h1, h4⟩
    obtain ⟨tS, hexecS, -, happS, -, -⟩ := exec_groupS_valid h1 h4 hv hf
    obtain ⟨tV, hexecV, -, happV, -⟩ := exec_groupV_valid h1 h4 hv hf
    exact ⟨⟨tS, hexecS, happS.length_read hl⟩, tV, hexecV, happV.length_read hl⟩
  · obtain ⟨t, hexec, -, hread⟩ := decodes_of_callBytes_eq hv rfl a o s hm
    refine ⟨t, hexec, ?_⟩
    rw [hread, List.length_append, callBytes, goodGroups_of_all_valid hv, length_flatMap_groupBytes, Nat.add_assoc]

/-- Settles O41: a call returns `Ok` exactly on a valid body, and every other call an error. -/
theorem rejectionAgreement : Obligations.RejectionAgreement := by
  intro a o inp s hm
  obtain ⟨t, r, hexec, hres, hok, -⟩ := decodeCall_result hm inp
  have herr : (∃ c, t.result a = some (.err c)) ↔ ¬ r = .ok := by
    rw [hres]
    cases r with
    | ok => exact iff_of_false nofun (not_not_intro rfl)
    | err c => exact iff_of_true ⟨c, rfl⟩ nofun
  rw [all_valid_bodyOf_iff] at hok
  refine ⟨t, by rw [exec_callInstr]; exact hexec, ?_, ?_⟩
  · rw [herr, hok]
    simp only [not_forall, exists_prop, Bool.not_eq_true]
  · rw [hres, Option.some_inj]
    exact hok

end Sys2Proof.Machine
end

section
/-! Reset: the machine after it is idle, empty and in a good state (O1, O48), and the reset of one agent leaves what is not the
agent's own alone (O3). -/

namespace Sys2Proof.Machine

/-! ## The reset state (70_reset_and_hazards.md R107) -/

@[simp] theorem reset_seq (a : AgentId) : State.reset.seq a = .reset := by cases a <;> rfl

/-- No buffer has been handed over at reset, so each reads as an unlisted one (log 4). -/
@[simp] theorem reset_bufs_read (k : Nat) : State.reset.bufs.read k = [] := rfl

/-! ## The reset of one agent (70_reset_and_hazards.md R107, R108) -/

theorem resetAgent_sameOutside (a : AgentId) (s : State) : SameOutside a s (s.resetAgent a) := by
  cases a
  · exact ⟨rfl, rfl, nofun, fun _ => ⟨rfl, rfl⟩, rfl, rfl, rfl, rfl⟩
  · exact ⟨rfl, rfl, fun _ => rfl, nofun, rfl, rfl, rfl, rfl⟩

/-- Settles O1: each sequencer is the one after reset, and no buffer is listed. -/
theorem resetLeavesBothAgentsIdle : Obligations.ResetLeavesBothAgentsIdle := by
  refine ⟨fun a => ?_, reset_bufs_read⟩
  rw [reset_seq]
  exact ⟨rfl, rfl, rfl, rfl, rfl, rfl, rfl⟩

/-- Settles O3: the move is served by the reset of the agent, which writes that agent's own registers only. -/
theorem agentResetAbandonsTheCall : Obligations.AgentResetAbandonsTheCall := by
  intro a s rest hi
  refine ⟨State.resetAgent { s with inbox := rest } a, step_of_inbox hi, resetAgent_sameOutside a _, resetAgent_bufs _ a,
    resetAgent_seq _ a, ?_⟩
  rw [resetAgent_port]
  exact .quiet

/-- Settles O48: a sequencer after reset meets the invariant, and with no agent running no buffer is shared. -/
theorem resetIsAGoodState : Obligations.ResetIsAGoodState where
  vector := .reset
  scalar := .reset
  distinct := nofun
  canonical := rfl
  loaded := Nat.zero_le 4

end Sys2Proof.Machine
end
